-- ==== Sys2Proof/Word.lean ====
section
/-! DEFINITION. Words of the ports and the carrier of the number system (00_scope.md R10, R14). -/

namespace Sys2Proof

/-- A command word: 64 bits, bit 63 the most significant (R14, R90). -/
abbrev Word := BitVec 64

/-- The operand field `val` of a command word and the data of the READ port: 32 bits (R90, R50). -/
abbrev Val := BitVec 32

/-- An address of the READ port: 9 bits (R50). -/
abbrev Addr := BitVec 9

/-- A number as plain data, for the machine of the host's interface: a rational, as the exact number systems have them, or a
binary32 pattern, as `NUM_F32` has them (00_scope.md R10, R11). The block itself is over any carrier (`Machine.Block`,
`Device`); a machine on plain data reads every number that enters it as a value of its own carrier (`NumSel.read`). Log 2, 3,
4 and 26. -/
inductive Scalar where
  | fin (q : Rat)
  | bits (p : Val)
deriving DecidableEq, Repr, Inhabited

/-- A Frame: one Sample per channel (R6). A machine with `NCH = 1` reads and writes lane `c0` only (log 15). -/
structure Frame (α : Type) where
  c0 : α
  c1 : α
deriving DecidableEq, Repr, Inhabited

/-- Each lane through a function. -/
def Frame.map {α β : Type} (f : α → β) (x : Frame α) : Frame β := { c0 := f x.c0, c1 := f x.c1 }

/-- The content of a memory space: (index, Sample) pairs, indices strictly rising, no Sample equal to
what an unlisted index reads as (log 16). -/
abbrev Memory (α : Type) := List (Nat × α)

end Sys2Proof
end

