-- ==== Sys2Proof/Machine/Binary32.lean ====
section
/-! DEFINITION. IEEE 754 binary32 patterns (30_encoding.md R94, R98; 00_scope.md R11): classification, the
number a pattern denotes, and the nearest pattern to a rational (log 8). -/

namespace Sys2Proof

/-- A NaN pattern: exponent field all ones and fraction not zero (R98). -/
def isNaNPattern (val : Val) : Bool :=
  val.extractLsb' 23 8 == 0xFF#8 && val.extractLsb' 0 23 != 0#23

/-- The pattern of +infinity and of −infinity (R98). -/
def posInfPattern : Val := 0x7F800000
def negInfPattern : Val := 0xFF800000

/-- `2^k` for an integer `k`. -/
def pow2 (k : Int) : Rat :=
  if 0 ≤ k then ((2 ^ k.toNat : Nat) : Rat) else 1 / ((2 ^ (-k).toNat : Nat) : Rat)

/-- The magnitude a finite pattern denotes (R94): `2^(e − 127) × (1 + f ÷ 2^23)` for `1 ≤ e ≤ 254`,
`2^(−126) × (f ÷ 2^23)` for `e = 0`. -/
def patternMag (val : Val) : Rat :=
  let e : Nat := (val.extractLsb' 23 8).toNat
  let f : Rat := ((val.extractLsb' 0 23).toNat : Rat)
  if e = 0 then pow2 (-126) * (f / 8388608) else pow2 ((e : Int) - 127) * (1 + f / 8388608)

/-- The rational a finite pattern denotes: its magnitude with the sign of bit 31 (R94). -/
def patternRat (val : Val) : Rat :=
  if val.getLsbD 31 then -patternMag val else patternMag val

/-- `⌊log2 a⌋` of a positive rational. -/
def log2Floor (a : Rat) : Int :=
  let e : Int := (a.num.natAbs.log2 : Int) - (a.den.log2 : Int)
  if a < pow2 e then e - 1 else e

/-- A rational rounded to an integer, to nearest, ties to even. -/
def roundEven (r : Rat) : Int :=
  let f := r.floor
  let d := r - (f : Rat)
  if d < 1 / 2 then f else if 1 / 2 < d then f + 1 else if f % 2 = 0 then f else f + 1

/-- The exponent of the last place of a binary32 number of magnitude about `2^e`. -/
def lastPlace (e : Int) : Int := max e (-126) - 23

/-- The bits 30:0 of the magnitude `m × 2^q`, `q` its last place: the significand's carry runs into the
exponent field, and a magnitude too large gives the infinity. -/
def magBits (q : Int) (m : Int) : Nat := min ((q + 149).toNat * 8388608 + m.toNat) 0x7F800000

/-- Bits 30:0 of the binary32 number nearest to a non-negative rational, ties to even. -/
def nearestMag (a : Rat) : Nat :=
  if a = 0 then 0
  else
    let q := lastPlace (log2Floor a)
    magBits q (roundEven (a / pow2 q))

/-- A pattern from its sign and its bits 30:0. -/
def signed (neg : Bool) (mag : Nat) : Val := BitVec.ofNat 32 ((if neg then 0x80000000 else 0) + mag)

/-- The pattern nearest to a rational (R11). PRESUMED, the IEEE 754 rule (log 8): a tie goes to the even pattern, a
magnitude beyond the greatest finite one to the infinity, and a negative rational that rounds to zero to −0,
`0x8000_0000`; R11 says nearest and no more, and both zeros are the number 0 (30_encoding.md R94). -/
def nearestPattern (q : Rat) : Val :=
  if q < 0 then signed true (nearestMag (-q)) else signed false (nearestMag q)

/-- `⌊n^(1/k)⌋` from the bits above `b` on, `r` what they came to: one bit of the result a call. -/
def irootFrom (k : Nat) : Nat → Nat → Nat → Nat
  | 0, r, n => if (r + 1) ^ k ≤ n then r + 1 else r
  | b + 1, r, n => if (r + 2 ^ (b + 1)) ^ k ≤ n then irootFrom k b (r + 2 ^ (b + 1)) n else irootFrom k b r n

/-- `⌊n^(1/k)⌋` for `k ≥ 1`. -/
def iroot (k n : Nat) : Nat := irootFrom k (n.log2 / k) 0 n

/-- Bits 30:0 of the binary32 number nearest to the square root of a positive rational. -/
def nearestSqrtMag (a : Rat) : Nat :=
  let q := lastPlace (log2Floor a / 2)
  let x := a / (pow2 q * pow2 q)
  let f : Int := (iroot 2 x.floor.toNat : Int)
  let half : Rat := (f : Rat) + 1 / 2
  magBits q (if x < half * half then f else if half * half < x then f + 1 else if f % 2 = 0 then f else f + 1)

end Sys2Proof
end

