-- ==== Sys2Proof/Syntax.lean ====
section
/-! DEFINITION. The operations of the hardware: one constructor per row of spec/opcode_table.json, the 41
commands of 30_encoding.md R100 and the four operations with no encoding. -/

namespace Sys2Proof

/-- The ONE instruction type. `val` is the 32-bit pattern of a `SETP` operand (R94), `a` the new active
flag of a `SETA` (`val[0]`). -/
inductive Instr where
  | nop
  -- SETP, filter stages (41_biquad.md R160 to R170)
  | setpHpfFrequency (val : Val)
  | setpHpfQ (val : Val)
  | setpLpfFrequency (val : Val)
  | setpLpfQ (val : Val)
  | setpEqlFrequency (val : Val)
  | setpEqlGain (val : Val)
  | setpEqmFrequency (val : Val)
  | setpEqmQ (val : Val)
  | setpEqmGain (val : Val)
  | setpEqhFrequency (val : Val)
  | setpEqhGain (val : Val)
  -- SETP, effect stages (44_phaser.md to 48_reverb.md)
  | setpPhaRate (val : Val)
  | setpPhaDepth (val : Val)
  | setpPhaMix (val : Val)
  | setpFlaRate (val : Val)
  | setpFlaFeedback (val : Val)
  | setpFlaMix (val : Val)
  | setpChoRate (val : Val)
  | setpChoMix (val : Val)
  | setpDlyTime (val : Val)
  | setpDlyFeedback (val : Val)
  | setpDlyMix (val : Val)
  | setpRevTime (val : Val)
  | setpRevMix (val : Val)
  -- SETP, envelope (49_adsr.md R305 to R308)
  | setpEnvAttack (val : Val)
  | setpEnvDecay (val : Val)
  | setpEnvSustain (val : Val)
  | setpEnvRelease (val : Val)
  -- SETA (40_tick_smoother_mix.md R130 to R139)
  | setaHpf (a : Bool)
  | setaLpf (a : Bool)
  | setaEql (a : Bool)
  | setaEqm (a : Bool)
  | setaEqh (a : Bool)
  | setaPha (a : Bool)
  | setaFla (a : Bool)
  | setaCho (a : Bool)
  | setaDly (a : Bool)
  | setaRev (a : Bool)
  | trig
  | rel
  -- operations with no encoding
  | tick (input : Frame Scalar)
  | read (addr : Addr)
  | irgen (draws : List Scalar)
  | reset
deriving DecidableEq, Repr

/-- One step the outside asks of the block (00_scope.md R5 to R7, 10_state.md R50, 70_reset_and_hazards.md
R350): a command word for CTRL, an input Frame for AUDIO, draws for IRGEN, an address for VIS, a reset. -/
inductive Event where
  | word (w : Word)
  | tick (input : Frame Scalar)
  | irgen (draws : List Scalar)
  | read (addr : Addr)
  | reset
deriving DecidableEq, Repr

end Sys2Proof
end

