-- ==== Sys2Proof/WellFormed.lean ====
section
/-! DEFINITION. What a well-formed instruction is: a `SETP` whose operand is no NaN pattern (30_encoding.md
R97, R98), an `IRGEN` whose draws lie in [−1, 1] (48_reverb.md R272). Every other constructor's operands are legal at
every value of their types. -/

namespace Sys2Proof

/-- A value of the closed interval [−1, 1]: no NaN, no infinity, no number outside it. -/
def Scalar.isUnit : Scalar → Bool
  | .fin q => decide (-1 ≤ q) && decide (q ≤ 1)
  | .bits p => p.extractLsb' 23 8 != 0xFF && decide (-1 ≤ patternRat p) && decide (patternRat p ≤ 1)

/-- The check of one instruction. -/
def Instr.wf : Instr → Bool
  | .nop => true
  | .setpHpfFrequency val | .setpHpfQ val | .setpLpfFrequency val | .setpLpfQ val
  | .setpEqlFrequency val | .setpEqlGain val | .setpEqmFrequency val | .setpEqmQ val
  | .setpEqmGain val | .setpEqhFrequency val | .setpEqhGain val | .setpPhaRate val
  | .setpPhaDepth val | .setpPhaMix val | .setpFlaRate val | .setpFlaFeedback val
  | .setpFlaMix val | .setpChoRate val | .setpChoMix val | .setpDlyTime val
  | .setpDlyFeedback val | .setpDlyMix val | .setpRevTime val | .setpRevMix val
  | .setpEnvAttack val | .setpEnvDecay val | .setpEnvSustain val | .setpEnvRelease val =>
    !isNaNPattern val
  | .setaHpf _ | .setaLpf _ | .setaEql _ | .setaEqm _ | .setaEqh _ | .setaPha _ | .setaFla _
  | .setaCho _ | .setaDly _ | .setaRev _ => true
  | .trig => true
  | .rel => true
  | .tick _ => true
  | .read _ => true
  | .irgen draws => draws.all Scalar.isUnit
  | .reset => true

end Sys2Proof
end

