-- ==== Sys2Proof/Decode.lean ====
section
/-! DEFINITION. Decoding and encoding of command words (30_encoding.md R90 to R101). The decoder is total on
64-bit words (R95) and rejects by name; the encoder is written from the same field table. -/

namespace Sys2Proof

/-! ## Fields (R90) -/

def Word.op (w : Word) : BitVec 4 := w.extractLsb' 60 4
def Word.stage (w : Word) : BitVec 4 := w.extractLsb' 56 4
def Word.param (w : Word) : BitVec 4 := w.extractLsb' 52 4
def Word.rsv (w : Word) : BitVec 20 := w.extractLsb' 32 20
def Word.val (w : Word) : Val := w.extractLsb' 0 32

/-- Why a word is rejected: the conditions of R97, each by name. All have one effect (R101), so the name
is the model's own. -/
inductive Reject where
  /-- `rsv ≠ 0` -/
  | rsvNotZero
  /-- `op` in 5..15 -/
  | reservedOp
  /-- `op = 0` and the word is not all zero -/
  | nopNotZero
  /-- `op = 1` and (`stage`, `param`) is none of the 28 pairs -/
  | noSuchPair
  /-- `op = 1` and `val` is a NaN pattern -/
  | nanValue
  /-- `op = 2` and `stage > 9` -/
  | setaStage
  /-- `op = 2` and `param ≠ 0` -/
  | setaParam
  /-- `op = 2` and `val[31:1] ≠ 0` -/
  | setaVal
  /-- `op` in 3, 4 and `stage ≠ 10` -/
  | envStage
  /-- `op` in 3, 4 and `param ≠ 0` -/
  | envParam
  /-- `op` in 3, 4 and `val ≠ 0` -/
  | envVal
deriving DecidableEq, Repr

/-- The 28 settable (stage, parameter) pairs of R100. -/
def setpOf (stage param : Nat) (val : Val) : Option Instr :=
  match stage, param with
  | 0, 0 => some (.setpHpfFrequency val)
  | 0, 1 => some (.setpHpfQ val)
  | 1, 0 => some (.setpLpfFrequency val)
  | 1, 1 => some (.setpLpfQ val)
  | 2, 0 => some (.setpEqlFrequency val)
  | 2, 2 => some (.setpEqlGain val)
  | 3, 0 => some (.setpEqmFrequency val)
  | 3, 1 => some (.setpEqmQ val)
  | 3, 2 => some (.setpEqmGain val)
  | 4, 0 => some (.setpEqhFrequency val)
  | 4, 2 => some (.setpEqhGain val)
  | 5, 3 => some (.setpPhaRate val)
  | 5, 4 => some (.setpPhaDepth val)
  | 5, 6 => some (.setpPhaMix val)
  | 6, 3 => some (.setpFlaRate val)
  | 6, 5 => some (.setpFlaFeedback val)
  | 6, 6 => some (.setpFlaMix val)
  | 7, 3 => some (.setpChoRate val)
  | 7, 6 => some (.setpChoMix val)
  | 8, 7 => some (.setpDlyTime val)
  | 8, 5 => some (.setpDlyFeedback val)
  | 8, 6 => some (.setpDlyMix val)
  | 9, 7 => some (.setpRevTime val)
  | 9, 6 => some (.setpRevMix val)
  | 10, 8 => some (.setpEnvAttack val)
  | 10, 9 => some (.setpEnvDecay val)
  | 10, 10 => some (.setpEnvSustain val)
  | 10, 11 => some (.setpEnvRelease val)
  | _, _ => none

/-- The ten stages a `SETA` takes (R92). -/
def setaOf (stage : Nat) (a : Bool) : Option Instr :=
  match stage with
  | 0 => some (.setaHpf a)
  | 1 => some (.setaLpf a)
  | 2 => some (.setaEql a)
  | 3 => some (.setaEqm a)
  | 4 => some (.setaEqh a)
  | 5 => some (.setaPha a)
  | 6 => some (.setaFla a)
  | 7 => some (.setaCho a)
  | 8 => some (.setaDly a)
  | 9 => some (.setaRev a)
  | _ => none

/-- `op = 1` (R93, R94, R98). -/
def decodeSetp (w : Word) : Except Reject Instr :=
  match setpOf w.stage.toNat w.param.toNat w.val with
  | none => .error .noSuchPair
  | some i => if isNaNPattern w.val then .error .nanValue else .ok i

/-- `op = 2` (R92, R94). -/
def decodeSeta (w : Word) : Except Reject Instr :=
  if w.param ≠ 0 then .error .setaParam
  else if w.val.extractLsb' 1 31 ≠ 0 then .error .setaVal
  else match setaOf w.stage.toNat (w.val.getLsbD 0) with
    | none => .error .setaStage
    | some i => .ok i

/-- `op = 3` and `op = 4`, whose word has one legal value (R92 to R94). -/
def decodeEnv (i : Instr) (w : Word) : Except Reject Instr :=
  if w.stage ≠ 10 then .error .envStage
  else if w.param ≠ 0 then .error .envParam
  else if w.val ≠ 0 then .error .envVal
  else .ok i

/-- The decoder (R95, R97): every 64-bit word is one command or is rejected. -/
def decode (w : Word) : Except Reject Instr :=
  if w.rsv ≠ 0 then .error .rsvNotZero
  else match w.op.toNat with
    | 0 => if w = 0 then .ok .nop else .error .nopNotZero
    | 1 => decodeSetp w
    | 2 => decodeSeta w
    | 3 => decodeEnv .trig w
    | 4 => decodeEnv .rel w
    | _ => .error .reservedOp

/-- The instruction of a word whose bits are `w`, numbered as spec/opcode_table.json numbers them. A command
word is one 64-bit word and the block gives it no byte order (20_memory.md R66), so the bits are the word's
(log 21). -/
def decodeTableWord (nbits w : Nat) : Option Instr :=
  if nbits ≤ 64 ∧ w < 2 ^ nbits then
    match decode (BitVec.ofNat 64 w) with
    | .ok i => some i
    | .error _ => none
  else none

/-! ## The encoder -/

/-- A word from its fields, `rsv` zero (R90). -/
def mkWord (op stage param : BitVec 4) (val : Val) : Word :=
  op ++ stage ++ param ++ 0#20 ++ val

def encodeSetp (stage param : BitVec 4) (val : Val) : Word := mkWord 1 stage param val

def encodeSeta (stage : BitVec 4) (a : Bool) : Word := mkWord 2 stage 0 (if a then 1 else 0)

/-- The word of an instruction; `none` for the four operations that have no encoding (R100). -/
def encode : Instr → Option Word
  | .nop => some 0
  | .setpHpfFrequency val => some (encodeSetp 0 0 val)
  | .setpHpfQ val => some (encodeSetp 0 1 val)
  | .setpLpfFrequency val => some (encodeSetp 1 0 val)
  | .setpLpfQ val => some (encodeSetp 1 1 val)
  | .setpEqlFrequency val => some (encodeSetp 2 0 val)
  | .setpEqlGain val => some (encodeSetp 2 2 val)
  | .setpEqmFrequency val => some (encodeSetp 3 0 val)
  | .setpEqmQ val => some (encodeSetp 3 1 val)
  | .setpEqmGain val => some (encodeSetp 3 2 val)
  | .setpEqhFrequency val => some (encodeSetp 4 0 val)
  | .setpEqhGain val => some (encodeSetp 4 2 val)
  | .setpPhaRate val => some (encodeSetp 5 3 val)
  | .setpPhaDepth val => some (encodeSetp 5 4 val)
  | .setpPhaMix val => some (encodeSetp 5 6 val)
  | .setpFlaRate val => some (encodeSetp 6 3 val)
  | .setpFlaFeedback val => some (encodeSetp 6 5 val)
  | .setpFlaMix val => some (encodeSetp 6 6 val)
  | .setpChoRate val => some (encodeSetp 7 3 val)
  | .setpChoMix val => some (encodeSetp 7 6 val)
  | .setpDlyTime val => some (encodeSetp 8 7 val)
  | .setpDlyFeedback val => some (encodeSetp 8 5 val)
  | .setpDlyMix val => some (encodeSetp 8 6 val)
  | .setpRevTime val => some (encodeSetp 9 7 val)
  | .setpRevMix val => some (encodeSetp 9 6 val)
  | .setpEnvAttack val => some (encodeSetp 10 8 val)
  | .setpEnvDecay val => some (encodeSetp 10 9 val)
  | .setpEnvSustain val => some (encodeSetp 10 10 val)
  | .setpEnvRelease val => some (encodeSetp 10 11 val)
  | .setaHpf a => some (encodeSeta 0 a)
  | .setaLpf a => some (encodeSeta 1 a)
  | .setaEql a => some (encodeSeta 2 a)
  | .setaEqm a => some (encodeSeta 3 a)
  | .setaEqh a => some (encodeSeta 4 a)
  | .setaPha a => some (encodeSeta 5 a)
  | .setaFla a => some (encodeSeta 6 a)
  | .setaCho a => some (encodeSeta 7 a)
  | .setaDly a => some (encodeSeta 8 a)
  | .setaRev a => some (encodeSeta 9 a)
  | .trig => some (mkWord 3 10 0 0)
  | .rel => some (mkWord 4 10 0 0)
  | .tick _ => none
  | .read _ => none
  | .irgen _ => none
  | .reset => none

end Sys2Proof
end

