-- ==== Sys2Proof/Config.lean ====
section
/-! DEFINITION. What a device fixes: the numerics record NUM (00_scope.md R10), the configuration record
CFG (R8) over any carrier and as plain data, and the free values, which are constants with no body. -/

namespace Sys2Proof

/-- The numerics record `NUM` over a carrier `α`, field by field as R10 lists it. `ofDec` takes a decimal
literal, which is a rational; the two literals that are not decimals, 2π and √2, are fields. -/
structure NumSys (α : Type) where
  add : α → α → α
  sub : α → α → α
  mul : α → α → α
  div : α → α → α
  neg : α → α
  exp : α → α
  sin : α → α
  cos : α → α
  sqrt : α → α
  pow : α → α → α
  floor : α → Int
  ofInt : Int → α
  ofDec : Rat → α
  twoPi : α
  sqrt2 : α
  isNaN : α → Bool
  lt : α → α → Bool
  le : α → α → Bool
  dec32 : Val → α
  enc32 : α → Val
deriving Inhabited

/-- Which NUM a machine on plain data is built with (R11, D7: OPEN; log 2). -/
inductive NumKind where
  /-- `NUM_REAL`, computed on the rationals (log 3). -/
  | real
  /-- `NUM_F32` (log 4). -/
  | f32
  /-- The exact rationals with functions the configuration lists: one more NUM that R10 allows (log 5). -/
  | listed
  /-- A number system about which nothing is known (log 2). -/
  | other
deriving DecidableEq, Repr, Inhabited

/-- Points of its own functions that a configuration fixes, as plain data: "functions the configuration
supplies" (R11). A point that is not listed is a free value (log 5). -/
structure FnTable (α : Type) where
  exp : List (α × α) := []
  sin : List (α × α) := []
  cos : List (α × α) := []
  sqrt : List (α × α) := []
  pow : List ((α × α) × α) := []
  twoPi : Option α := none
  sqrt2 : Option α := none
deriving DecidableEq, Repr, Inhabited

/-- Every value of a table through a function. -/
def FnTable.map {α β : Type} (f : α → β) (t : FnTable α) : FnTable β where
  exp := t.exp.map (Prod.map f f)
  sin := t.sin.map (Prod.map f f)
  cos := t.cos.map (Prod.map f f)
  sqrt := t.sqrt.map (Prod.map f f)
  pow := t.pow.map (Prod.map (Prod.map f f) f)
  twoPi := t.twoPi.map f
  sqrt2 := t.sqrt2.map f

/-- The field `NUM` of CFG, as plain data. `fns` is read by the kinds `f32` and `listed` alone. -/
structure NumSel where
  kind : NumKind
  fns : FnTable Scalar := {}
deriving DecidableEq, Repr, Inhabited

/-! ## Free values: opaque, no body. Log 3 to 7 and 13. -/

/-- The functions of an exact number system at the rational points whose value is not known (log 3, 5). -/
opaque Config.realExp : Rat → Rat
opaque Config.realSin : Rat → Rat
opaque Config.realCos : Rat → Rat
opaque Config.realSqrt : Rat → Rat
opaque Config.realPow : Rat → Rat → Rat
/-- The rational that stands for 2π in an exact number system on plain data (log 3, 5). -/
opaque Config.realTwoPi : Rat
/-- The rational that stands for √2 in an exact number system on plain data (log 3, 5). -/
opaque Config.realSqrt2 : Rat
/-- A real quotient by zero, of the dividend (log 6). -/
opaque Config.realDivZero : Rat → Rat
/-- The rational an exact number system reads in a binary32 pattern that denotes none (log 7). -/
opaque Config.realForeign : Val → Rat

/-- `NUM_F32`'s functions, which R11 leaves to the configuration (log 4). -/
opaque Config.f32Exp : Val → Val
opaque Config.f32Sin : Val → Val
opaque Config.f32Cos : Val → Val
opaque Config.f32Pow : Val → Val → Val
/-- How the literals 2π and √2 enter `NUM_F32` (log 4). -/
opaque Config.f32TwoPi : Val
opaque Config.f32Sqrt2 : Val

/-- The operations of `NUM_F32` whose result can be a NaN. -/
inductive F32Op where
  | add | sub | mul | div | sqrt
deriving DecidableEq, Repr, Inhabited

/-- Which NaN pattern an operation of `NUM_F32` gives, of its operands; a square root has its operand twice (log 4). -/
opaque Config.f32Nan : F32Op → Val → Val → Val

/-- The number system the spec does not name (log 2). -/
opaque Config.otherSys : NumSys Scalar

/-- The sources RNG can be on plain data, by number, and the values of each in order (log 13). -/
opaque Config.draw : Nat → Nat → Scalar

/-! ## The configuration record -/

/-- The rows of R8's table but `NUM` and `RNG`, one field a row; units as the table has them. -/
structure Settings (α : Type) where
  fs : α
  nch : Nat
  tau : α
  fMin : α
  fMax : α
  qMin : α
  qMax : α
  gMin : α
  gMax : α
  rateMax : α
  phDepthMax : α
  fbMax : α
  hpfF0 : α
  hpfQ0 : α
  lpfF0 : α
  lpfQ0 : α
  eqlF0 : α
  eqlG0 : α
  eqmF0 : α
  eqmQ0 : α
  eqmG0 : α
  eqhF0 : α
  eqhG0 : α
  phN : Nat
  phBase : α
  phQ : α
  phRate0 : α
  phDepth0 : α
  phMix0 : α
  flBase : α
  flDepth : α
  flRate0 : α
  flFb0 : α
  flMix0 : α
  flCap : Nat
  choBase : α
  choDepth : α
  choRate0 : α
  choMix0 : α
  choCap : Nat
  dlyTmax : α
  dlyT0 : α
  dlyFb0 : α
  dlyMix0 : α
  dlyLpF : α
  dlyLpQ : α
  dlyCap : Nat
  revDecay : α
  revMix0 : α
  irCap : Nat
  envTMin : α
  envTMax : α
  envA0 : α
  envD0 : α
  envS0 : α
  envR0 : α
deriving DecidableEq, Repr, Inhabited

/-- Every number of a configuration through a function; the counts stay. -/
def Settings.map {α β : Type} (f : α → β) (c : Settings α) : Settings β :=
  { fs := f c.fs, nch := c.nch, tau := f c.tau, fMin := f c.fMin, fMax := f c.fMax, qMin := f c.qMin,
    qMax := f c.qMax, gMin := f c.gMin, gMax := f c.gMax, rateMax := f c.rateMax, phDepthMax := f c.phDepthMax,
    fbMax := f c.fbMax, hpfF0 := f c.hpfF0, hpfQ0 := f c.hpfQ0, lpfF0 := f c.lpfF0, lpfQ0 := f c.lpfQ0,
    eqlF0 := f c.eqlF0, eqlG0 := f c.eqlG0, eqmF0 := f c.eqmF0, eqmQ0 := f c.eqmQ0, eqmG0 := f c.eqmG0,
    eqhF0 := f c.eqhF0, eqhG0 := f c.eqhG0, phN := c.phN, phBase := f c.phBase, phQ := f c.phQ,
    phRate0 := f c.phRate0, phDepth0 := f c.phDepth0, phMix0 := f c.phMix0, flBase := f c.flBase,
    flDepth := f c.flDepth, flRate0 := f c.flRate0, flFb0 := f c.flFb0, flMix0 := f c.flMix0, flCap := c.flCap,
    choBase := f c.choBase, choDepth := f c.choDepth, choRate0 := f c.choRate0, choMix0 := f c.choMix0,
    choCap := c.choCap, dlyTmax := f c.dlyTmax, dlyT0 := f c.dlyT0, dlyFb0 := f c.dlyFb0, dlyMix0 := f c.dlyMix0,
    dlyLpF := f c.dlyLpF, dlyLpQ := f c.dlyLpQ, dlyCap := c.dlyCap, revDecay := f c.revDecay, revMix0 := f c.revMix0,
    irCap := c.irCap, envTMin := f c.envTMin, envTMax := f c.envTMax, envA0 := f c.envA0, envD0 := f c.envD0,
    envS0 := f c.envS0, envR0 := f c.envR0 }

/-- CFG (R8) over the carrier of its own NUM: what a block is built from, in any number system (R10, D7). -/
structure Device (α : Type) extends Settings α where
  /-- The row `NUM`. -/
  num : NumSys α
  /-- The row `RNG`: the values of the source in order; those that lie in [−1, 1] are its draws (48_reverb.md R272). -/
  rng : Nat → α

/-- CFG (R8) as plain data, for the machine of the host's interface. -/
structure Cfg extends Settings Scalar where
  /-- The row `NUM`. -/
  num : NumSel
  /-- The row `RNG`: the number of the stream the draws come from (log 13). -/
  rng : Nat
deriving DecidableEq, Repr, Inhabited

end Sys2Proof
end

