-- ==== Sys2Proof/Machine/NumF32.lean ====
section
/-! DEFINITION. The number system `NUM_F32` (00_scope.md R11) over the binary32 patterns: a `Device Val` with this record is
the block in binary32, and its steps are `deviceStep`. -/

namespace Sys2Proof

/-- The value a configuration lists for a point of one of its functions (log 5). -/
def pinned {α β : Type} [DecidableEq α] : List (α × β) → α → Option β
  | [], _ => none
  | (x, y) :: rest, a => if x = a then some y else pinned rest a

/-- What a pattern stands for (30_encoding.md R94, R98): `num` is a finite number that is not zero. -/
inductive Datum where
  | nan
  | inf (neg : Bool)
  | zero (neg : Bool)
  | num (q : Rat)
deriving DecidableEq, Repr

namespace Datum

/-- The classification of the 2^32 patterns. -/
def of (p : Val) : Datum :=
  if isNaNPattern p then nan
  else if p = posInfPattern then inf false
  else if p = negInfPattern then inf true
  else if p = 0x00000000 then zero false
  else if p = 0x80000000 then zero true
  else num (patternRat p)

/-- The sign bit; a NaN's is not asked for. -/
def isNeg : Datum → Bool
  | nan => false
  | inf s => s
  | zero s => s
  | num q => decide (q < 0)

/-- The rational of a finite datum. -/
def rat : Datum → Rat
  | num q => q
  | _ => 0

/-- `<`, false when either side is a NaN (R10); the zeros are equal. -/
def lt : Datum → Datum → Bool
  | nan, _ => false
  | _, nan => false
  | inf s, inf t => s && !t
  | inf s, _ => s
  | _, inf t => !t
  | a, b => decide (a.rat < b.rat)

def isNaN : Datum → Bool
  | nan => true
  | _ => false

/-- `<=`, false when either side is a NaN (R10). -/
def le (a b : Datum) : Bool := !a.isNaN && !b.isNaN && !b.lt a

end Datum

/-! ## The arithmetic of IEEE 754, round to nearest even (R11, log 4) -/

namespace F32

/-- The infinity and the zero of a sign. -/
def infinity (neg : Bool) : Val := signed neg 0x7F800000
def zero (neg : Bool) : Val := signed neg 0

/-- The NaN an operation gives: some NaN pattern, of which nothing else is known (log 4). -/
def nan (op : F32Op) (a b : Val) : Val := if isNaNPattern (Config.f32Nan op a b) then Config.f32Nan op a b else 0x7FC00000

/-- The sum of two data, `n` being the NaN where it is one. -/
def sum (n : Val) : Datum → Datum → Val
  | .nan, _ => n
  | _, .nan => n
  | .inf s, .inf t => if s = t then infinity s else n
  | .inf s, _ => infinity s
  | _, .inf t => infinity t
  | .zero s, .zero t => zero (s && t)
  | a, b => nearestPattern (a.rat + b.rat)

/-- Bit 31 the other way, whatever the pattern. PRESUMED (log 4). -/
def neg (a : Val) : Val := a ^^^ 0x80000000

def add (a b : Val) : Val := sum (nan .add a b) (.of a) (.of b)

def sub (a b : Val) : Val := sum (nan .sub a b) (.of a) (.of (neg b))

/-- The product of two data. -/
def product (n : Val) (a b : Datum) : Val :=
  let s := a.isNeg != b.isNeg
  match a, b with
  | .nan, _ => n
  | _, .nan => n
  | .inf _, .zero _ => n
  | .zero _, .inf _ => n
  | .inf _, _ => infinity s
  | _, .inf _ => infinity s
  | .num x, .num y => nearestPattern (x * y)
  | _, _ => zero s

def mul (a b : Val) : Val := product (nan .mul a b) (.of a) (.of b)

/-- The quotient of two data. -/
def quotient (n : Val) (a b : Datum) : Val :=
  let s := a.isNeg != b.isNeg
  match a, b with
  | .nan, _ => n
  | _, .nan => n
  | .inf _, .inf _ => n
  | .zero _, .zero _ => n
  | .inf _, _ => infinity s
  | _, .zero _ => infinity s
  | .num x, .num y => nearestPattern (x / y)
  | _, _ => zero s

def div (a b : Val) : Val := quotient (nan .div a b) (.of a) (.of b)

def sqrt (a : Val) : Val :=
  match Datum.of a with
  | .nan => nan .sqrt a a
  | .inf s => if s then nan .sqrt a a else infinity false
  | .zero s => zero s
  | .num q => if q < 0 then nan .sqrt a a else signed false (nearestSqrtMag q)

end F32

/-- `NUM_F32` (R11, log 4): the carrier is the binary32 patterns; `add`, `sub`, `mul`, `div`, `sqrt` round to nearest even;
`exp`, `sin`, `cos`, `pow` are the configuration's, from binary32 to binary32: its listed points, and free values elsewhere.
PRESUMED (log 4): that `ofDec` and `ofInt`, by which literals and integers enter, round so too, and that `neg` flips the
sign. -/
def numF32 (t : FnTable Val) : NumSys Val where
  add := F32.add
  sub := F32.sub
  mul := F32.mul
  div := F32.div
  neg := F32.neg
  exp a := (pinned t.exp a).getD (Config.f32Exp a)
  sin a := (pinned t.sin a).getD (Config.f32Sin a)
  cos a := (pinned t.cos a).getD (Config.f32Cos a)
  sqrt := F32.sqrt
  pow b e := (pinned t.pow (b, e)).getD (Config.f32Pow b e)
  floor a := (Datum.of a).rat.floor
  ofInt k := nearestPattern (k : Rat)
  ofDec := nearestPattern
  twoPi := t.twoPi.getD Config.f32TwoPi
  sqrt2 := t.sqrt2.getD Config.f32Sqrt2
  isNaN := isNaNPattern
  lt a b := (Datum.of a).lt (.of b)
  le a b := (Datum.of a).le (.of b)
  dec32 p := p
  enc32 a := a

end Sys2Proof
end

