-- ==== Sys2Proof/Machine/Numerics.lean ====
section
/-! DEFINITION. The number systems a machine on plain data can be built with (00_scope.md R10, R11), and the functions of
R9 and R12 that every family uses, over any carrier: `clamp`, the comparison `=`, `ceil`, the derived constants. -/

namespace Sys2Proof

namespace Scalar

/-- The rational a number on plain data stands for in an exact number system: that of its pattern, where it has one (R94); a
pattern that denotes no number has a free value (log 7). -/
def toRat : Scalar → Rat
  | fin q => q
  | bits p => if p.extractLsb' 23 8 = 0xFF then Config.realForeign p else patternRat p

/-- The binary32 pattern it stands for in `NUM_F32`: the nearest one to a rational (log 4). -/
def toBits : Scalar → Val
  | fin q => nearestPattern q
  | bits p => p

end Scalar

/-! ## Exact numbers on plain data -/

/-- The functions an exact number system on the rationals is given. -/
structure RatFns where
  exp : Rat → Rat
  sin : Rat → Rat
  cos : Rat → Rat
  sqrt : Rat → Rat
  pow : Rat → Rat → Rat
  twoPi : Rat
  sqrt2 : Rat

namespace RatFns

/-- A free value held in the range its function has: `raw` where it lies there, else `inside`, which does. -/
def within (ok : Rat → Bool) (raw inside : Rat) : Rat := if ok raw then raw else inside

/-- The rational `k`-th root of a non-negative rational, where it has one. -/
def root (k : Nat) (q : Rat) : Option Rat :=
  let n := iroot k q.num.toNat
  let d := iroot k q.den
  if 0 ≤ q ∧ n ^ k = q.num.toNat ∧ d ^ k = q.den then some ((n : Rat) / (d : Rat)) else none

/-- An integer power. -/
def zpow (b : Rat) (k : Int) : Rat := if 0 ≤ k then b ^ k.toNat else 1 / b ^ (-k).toNat

/-- The exact power of two rationals where it is a rational these rules find: base 1, an integer exponent, base 0 with a
positive exponent, a positive base with an exact root. `0` to the power `0` is none of them: the spec gives it no value
(log 6). -/
def power (b e : Rat) : Option Rat :=
  if b = 1 then some 1
  else if b = 0 then (if 0 < e then some 0 else none)
  else if e.den = 1 then some (zpow b e.num)
  else if 0 < b then (root e.den b).map fun r => zpow r e.num
  else none

/-- The functions of `NUM_REAL` on the rationals (R11, log 3): the exact value where it is a rational that is known; else
a free value in a range the true one lies in: `1 + a ≤ exp a`, `exp a ≤ 1 ÷ (1 − a)` for `a < 1`, `exp a > 0`; sine and
cosine in [−1, 1]; a root and a power of a positive number positive and on the right side of 1; 2π and √2 to six places.
A root of a negative number and a power with no real value are free (log 6). -/
def real : RatFns where
  exp a :=
    if a = 0 then 1
    else within (fun v => decide (0 < v) && decide (1 + a ≤ v) && (decide (1 ≤ a) || decide (v ≤ 1 / (1 - a))))
      (Config.realExp a) (if 0 < a then 1 + a else 1 / (1 - a))
  sin a := if a = 0 then 0 else within (fun v => decide (-1 ≤ v) && decide (v ≤ 1)) (Config.realSin a) 0
  cos a := if a = 0 then 1 else within (fun v => decide (-1 ≤ v) && decide (v ≤ 1)) (Config.realCos a) 0
  sqrt a :=
    match root 2 a with
    | some r => r
    | none =>
      if a < 0 then Config.realSqrt a
      else within (fun v => decide (min 1 a ≤ v) && decide (v ≤ max 1 a)) (Config.realSqrt a) 1
  pow b e :=
    match power b e with
    | some r => r
    | none =>
      if b ≤ 0 then Config.realPow b e
      else within (fun v => decide (0 < v) && decide (0 ≤ (v - 1) * ((b - 1) * e))) (Config.realPow b e) 1
  twoPi := within (fun v => decide (6283185 / 1000000 < v) && decide (v < 6283186 / 1000000)) Config.realTwoPi
    (62831855 / 10000000)
  sqrt2 := within (fun v => decide (1414213 / 1000000 < v) && decide (v < 1414214 / 1000000)) Config.realSqrt2
    (14142135 / 10000000)

/-- Functions a configuration lists (log 5): the exact value where it is known, else the listed one, else free. -/
def listed (t : FnTable Rat) : RatFns where
  exp a := if a = 0 then 1 else (pinned t.exp a).getD (Config.realExp a)
  sin a := if a = 0 then 0 else (pinned t.sin a).getD (Config.realSin a)
  cos a := if a = 0 then 1 else (pinned t.cos a).getD (Config.realCos a)
  sqrt a := (root 2 a).getD ((pinned t.sqrt a).getD (Config.realSqrt a))
  pow b e := (power b e).getD ((pinned t.pow (b, e)).getD (Config.realPow b e))
  twoPi := t.twoPi.getD Config.realTwoPi
  sqrt2 := t.sqrt2.getD Config.realSqrt2

end RatFns

/-- An exact number system on the rationals: sums, differences, products, comparisons, floors, literals, and quotients by
anything but zero, are the exact ones (R11, R13); a quotient by zero is free (log 6). -/
def numRat (f : RatFns) : NumSys Rat where
  add a b := a + b
  sub a b := a - b
  mul a b := a * b
  div a b := if b = 0 then Config.realDivZero a else a / b
  neg a := -a
  exp := f.exp
  sin := f.sin
  cos := f.cos
  sqrt := f.sqrt
  pow := f.pow
  floor a := a.floor
  ofInt k := (k : Rat)
  ofDec q := q
  twoPi := f.twoPi
  sqrt2 := f.sqrt2
  isNaN _ := false
  lt a b := decide (a < b)
  le a b := decide (a ≤ b)
  dec32 p := (Scalar.bits p).toRat
  enc32 := nearestPattern

/-! ## Number systems on plain data -/

/-- A number system on plain data: every operand is read into the carrier with `rd`, every result written out with `wr`. -/
def NumSys.onScalar {α : Type} (N : NumSys α) (rd : Scalar → α) (wr : α → Scalar) : NumSys Scalar where
  add a b := wr (N.add (rd a) (rd b))
  sub a b := wr (N.sub (rd a) (rd b))
  mul a b := wr (N.mul (rd a) (rd b))
  div a b := wr (N.div (rd a) (rd b))
  neg a := wr (N.neg (rd a))
  exp a := wr (N.exp (rd a))
  sin a := wr (N.sin (rd a))
  cos a := wr (N.cos (rd a))
  sqrt a := wr (N.sqrt (rd a))
  pow b e := wr (N.pow (rd b) (rd e))
  floor a := N.floor (rd a)
  ofInt k := wr (N.ofInt k)
  ofDec q := wr (N.ofDec q)
  twoPi := wr N.twoPi
  sqrt2 := wr N.sqrt2
  isNaN a := N.isNaN (rd a)
  lt a b := N.lt (rd a) (rd b)
  le a b := N.le (rd a) (rd b)
  dec32 p := wr (N.dec32 p)
  enc32 a := N.enc32 (rd a)

/-- The rationals on plain data. -/
def NumSys.rational (f : RatFns) : NumSys Scalar := (numRat f).onScalar Scalar.toRat .fin

/-- `NUM_REAL` on plain data (R11, log 3). The record over the real numbers themselves is `numReal`. -/
def NumSys.real : NumSys Scalar := NumSys.rational RatFns.real

/-- A number system whose functions the configuration lists (log 5). -/
def NumSys.listed (t : FnTable Scalar) : NumSys Scalar := NumSys.rational (RatFns.listed (t.map Scalar.toRat))

/-- `NUM_F32` on plain data (R11, log 4): every result is a binary32 pattern. -/
def NumSys.f32 (t : FnTable Scalar) : NumSys Scalar := (numF32 (t.map Scalar.toBits)).onScalar Scalar.toBits .bits

/-- The numerics record of a configuration (R8, row `NUM`). -/
def NumSel.sys (n : NumSel) : NumSys Scalar :=
  match n.kind with
  | .real => NumSys.real
  | .f32 => NumSys.f32 n.fns
  | .listed => NumSys.listed n.fns
  | .other => Config.otherSys

/-- The value of the machine's carrier that a number on plain data stands for: how every number from outside (CFG, the
Samples of a TICK, the draws) enters. An exact system reads a rational, `NUM_F32` the nearest binary32 pattern (log 4, 7);
of the system that is not named nothing is known. -/
def NumSel.read (n : NumSel) (x : Scalar) : Scalar :=
  match n.kind with
  | .real => .fin x.toRat
  | .f32 => .bits x.toBits
  | .listed => .fin x.toRat
  | .other => x

namespace NumSys

variable {α : Type} (N : NumSys α)

/-- The literals `0`, `1`, `2` (R12: a decimal literal `l` stands for `ofDec(l)`). -/
def zero : α := N.ofDec 0
def one : α := N.ofDec 1
def two : α := N.ofDec 2

/-- The comparison `=` of 43_delayline.md R194 (log 9). -/
def eq (a b : α) : Bool := N.le a b && N.le b a

/-- `clamp(v, lo, hi)` of R12. -/
def clamp (v lo hi : α) : α := if N.lt v lo then lo else if N.lt hi v then hi else v

/-- A draw lies in the closed interval [−1, 1] (48_reverb.md R272). -/
def isDraw (u : α) : Bool := N.le (N.neg N.one) u && N.le u N.one

/-- `ceil(v) = −floor(−v)` (R14). -/
def ceil (v : α) : Int := -N.floor (N.neg v)

end NumSys

/-- `DT = 1 ÷ FS` (R9). -/
def NumSys.dt {α : Type} (N : NumSys α) (fs : α) : α := N.div N.one fs

/-- `KS = exp((0 − DT) ÷ TAU)` (R9). -/
def NumSys.ks {α : Type} (N : NumSys α) (fs tau : α) : α := N.exp (N.div (N.sub N.zero (N.dt fs)) tau)

/-- The numerics of a configuration on plain data. -/
abbrev Cfg.sys (cfg : Cfg) : NumSys Scalar := cfg.num.sys

/-- The block a configuration on plain data builds: every number of it read as a value of the carrier. -/
abbrev Cfg.device (cfg : Cfg) : Device Scalar :=
  { toSettings := cfg.toSettings.map cfg.num.read, num := cfg.sys, rng := fun n => cfg.num.read (Config.draw cfg.rng n) }

namespace Device

variable {α : Type} (d : Device α)

/-- Value number `n` of the source of draws, held in [−1, 1]: a value outside it is no draw, and 0 stands for it (48_reverb.md
R272, log 13). -/
def draw (n : Nat) : α := if d.num.isDraw (d.rng n) then d.rng n else d.num.zero

end Device

end Sys2Proof
end

