-- ==== Sys2Proof/Machine/Regs.lean ====
section
/-! DEFINITION. The register files State is made of (10_state.md R21 to R31), over any carrier, and the names that index
them. -/

namespace Sys2Proof

/-! ## Names -/

/-- The twenty smoothed entries of R21's table. -/
inductive SParam where
  | hpfFrequency | hpfQ | lpfFrequency | lpfQ | eqlFrequency | eqlGain | eqmFrequency | eqmQ | eqmGain
  | eqhFrequency | eqhGain | phaRate | phaDepth | flaRate | flaDepth | flaFeedback | choRate | choDepth
  | dlyTime | dlyFeedback
deriving DecidableEq, Repr

/-- The ten held entries of R21's table. -/
inductive HParam where
  | phaMix | flaMix | choMix | dlyMix | revTime | revMix | envAttack | envDecay | envSustain | envRelease
deriving DecidableEq, Repr

/-- The ten chain stages, in chain order (00_scope.md R16). -/
inductive Stage where
  | hpf | lpf | eql | eqm | eqh | pha | fla | cho | dly | rev
deriving DecidableEq, Repr

/-- The causes of a ConfigurationError (60_exceptions.md R321). -/
inductive Cause where
  | badFs | badNch | badPhN | badBounds | capFla | capCho | capDly | capIr
deriving DecidableEq, Repr

namespace Machine

/-! ## Register files -/

/-- An entry of kind `S`: target and smoothed current value (R21). -/
structure Smoothed (α : Type) where
  tgt : α
  cur : α
deriving DecidableEq, Repr

/-- The parameter register file `P` (R21): twenty smoothed entries and ten held ones. -/
structure Params (α : Type) where
  hpfFrequency : Smoothed α
  hpfQ : Smoothed α
  lpfFrequency : Smoothed α
  lpfQ : Smoothed α
  eqlFrequency : Smoothed α
  eqlGain : Smoothed α
  eqmFrequency : Smoothed α
  eqmQ : Smoothed α
  eqmGain : Smoothed α
  eqhFrequency : Smoothed α
  eqhGain : Smoothed α
  phaRate : Smoothed α
  phaDepth : Smoothed α
  flaRate : Smoothed α
  flaDepth : Smoothed α
  flaFeedback : Smoothed α
  choRate : Smoothed α
  choDepth : Smoothed α
  dlyTime : Smoothed α
  dlyFeedback : Smoothed α
  phaMix : α
  flaMix : α
  choMix : α
  dlyMix : α
  revTime : α
  revMix : α
  envAttack : α
  envDecay : α
  envSustain : α
  envRelease : α
deriving DecidableEq, Repr

/-- The MixState of one chain stage (R23). -/
structure MixState (α : Type) where
  active : Bool
  wet : α
  dry : α
deriving DecidableEq, Repr

/-- `M[s]` for the ten chain stages (R23). -/
structure Mixes (α : Type) where
  hpf : MixState α
  lpf : MixState α
  eql : MixState α
  eqm : MixState α
  eqh : MixState α
  pha : MixState α
  fla : MixState α
  cho : MixState α
  dly : MixState α
  rev : MixState α
deriving DecidableEq, Repr

/-- The five normalized coefficients of a biquad (R25). -/
structure Coef (α : Type) where
  b0 : α
  b1 : α
  b2 : α
  a1 : α
  a2 : α
deriving DecidableEq, Repr

/-- The history of one biquad instance on one channel (R25). -/
structure Hist (α : Type) where
  x1 : α
  x2 : α
  y1 : α
  y2 : α
deriving DecidableEq, Repr

/-- The coefficient registers `C` (R25): one set for all `PHA.i`. -/
structure CoefFile (α : Type) where
  hpf : Coef α
  lpf : Coef α
  eql : Coef α
  eqm : Coef α
  eqh : Coef α
  pha : Coef α
  dlyLp : Coef α
deriving DecidableEq, Repr

/-- The registers of one LFO (R26). -/
structure Lfo (α : Type) where
  phase : α
  val : α
deriving DecidableEq, Repr

/-- `L` (R26). -/
structure Lfos (α : Type) where
  pha : Lfo α
  fla : Lfo α
  cho : Lfo α
deriving DecidableEq, Repr

/-- The delay write indices `W` (R27). -/
structure WriteIdx where
  fla : Nat
  cho : Nat
  dly : Nat
deriving DecidableEq, Repr

/-- The phases of the envelope (R29). -/
inductive Phase where
  | idle | attack | decay | sustain | release
deriving DecidableEq, Repr

/-- The envelope registers `E` (R29); `start` is `E.from`. -/
structure Env (α : Type) where
  ph : Phase
  k : Nat
  n : Nat
  start : α
  amp : α
deriving DecidableEq, Repr

/-- All that is kept once per channel: `H[f][c]` (R25), the three delay lines and the convolution history of the
channel (20_memory.md R61). -/
structure Channel (α : Type) where
  hpf : Hist α
  lpf : Hist α
  eql : Hist α
  eqm : Hist α
  eqh : Hist α
  pha : List (Hist α)
  dlyLp : Hist α
  dlFla : Memory α
  dlCho : Memory α
  dlDly : Memory α
  hist : Memory α
deriving DecidableEq, Repr

/-- One impulse bank `IR[b]`: its impulse channels 0 (left) and 1 (right) (R61, R64). -/
structure Bank (α : Type) where
  left : Memory α
  right : Memory α
deriving DecidableEq, Repr

end Machine

end Sys2Proof
end

