-- ==== Sys2Proof/Machine/Coef.lean ====
section
/-! DEFINITION. The biquad coefficients (41_biquad.md R152 to R155), in any number system. -/

namespace Sys2Proof

namespace Machine

/-- A filter type with the inputs it uses beside the frequency (R150, R153). -/
inductive Shape (α : Type) where
  | lowpass (q : α)
  | highpass (q : α)
  | allpass (q : α)
  | peaking (q g : α)
  | lowshelf (g : α)
  | highshelf (g : α)
deriving DecidableEq, Repr

/-- The six raw values of a coefficient set (R152). -/
structure RawCoef (α : Type) where
  b0 : α
  b1 : α
  b2 : α
  a0 : α
  a1 : α
  a2 : α
deriving DecidableEq, Repr

variable {α : Type} (N : NumSys α)

/-- `alpha = sw ÷ (2 × Q)`. -/
def alphaQ (sw q : α) : α := N.div sw (N.mul N.two q)

/-- `A = pow(10, g ÷ 40)`. -/
def gainA (g : α) : α := N.pow (N.ofDec 10) (N.div g (N.ofDec 40))

/-- `beta = 2 × sqrt(A) × alpha` with `alpha = sw ÷ 2 × SQRT2`: shelf slope 1 (R153). -/
def shelfBeta (sw a : α) : α := N.mul (N.mul N.two (N.sqrt a)) (N.mul (N.div sw N.two) N.sqrt2)

/-- `A1` of every type that is not a shelf: `−(2 × cw)`. -/
def rawA1 (cw : α) : α := N.neg (N.mul N.two cw)

/-- The raw coefficients of R152, `cw` and `sw` the cosine and sine of `w0`. -/
def rawCoef (cw sw : α) : Shape α → RawCoef α
  | .lowpass q =>
    let alpha := alphaQ N sw q
    { b0 := N.div (N.sub N.one cw) N.two, b1 := N.sub N.one cw, b2 := N.div (N.sub N.one cw) N.two,
      a0 := N.add N.one alpha, a1 := rawA1 N cw, a2 := N.sub N.one alpha }
  | .highpass q =>
    let alpha := alphaQ N sw q
    { b0 := N.div (N.add N.one cw) N.two, b1 := N.neg (N.add N.one cw), b2 := N.div (N.add N.one cw) N.two,
      a0 := N.add N.one alpha, a1 := rawA1 N cw, a2 := N.sub N.one alpha }
  | .allpass q =>
    let alpha := alphaQ N sw q
    { b0 := N.sub N.one alpha, b1 := rawA1 N cw, b2 := N.add N.one alpha,
      a0 := N.add N.one alpha, a1 := rawA1 N cw, a2 := N.sub N.one alpha }
  | .peaking q g =>
    let alpha := alphaQ N sw q
    let a := gainA N g
    { b0 := N.add N.one (N.mul alpha a), b1 := rawA1 N cw, b2 := N.sub N.one (N.mul alpha a),
      a0 := N.add N.one (N.div alpha a), a1 := rawA1 N cw, a2 := N.sub N.one (N.div alpha a) }
  | .lowshelf g =>
    let a := gainA N g
    let beta := shelfBeta N sw a
    let p := N.add a N.one
    let m := N.sub a N.one
    { b0 := N.mul a (N.add (N.sub p (N.mul m cw)) beta),
      b1 := N.mul (N.mul N.two a) (N.sub m (N.mul p cw)),
      b2 := N.mul a (N.sub (N.sub p (N.mul m cw)) beta),
      a0 := N.add (N.add p (N.mul m cw)) beta,
      a1 := N.neg (N.mul N.two (N.add m (N.mul p cw))),
      a2 := N.sub (N.add p (N.mul m cw)) beta }
  | .highshelf g =>
    let a := gainA N g
    let beta := shelfBeta N sw a
    let p := N.add a N.one
    let m := N.sub a N.one
    { b0 := N.mul a (N.add (N.add p (N.mul m cw)) beta),
      b1 := N.neg (N.mul (N.mul N.two a) (N.add m (N.mul p cw))),
      b2 := N.mul a (N.sub (N.add p (N.mul m cw)) beta),
      a0 := N.add (N.sub p (N.mul m cw)) beta,
      a1 := N.mul N.two (N.sub m (N.mul p cw)),
      a2 := N.sub (N.sub p (N.mul m cw)) beta }

/-- Normalisation by `A0` (R154). -/
def RawCoef.normalize (r : RawCoef α) : Coef α :=
  { b0 := N.div r.b0 r.a0, b1 := N.div r.b1 r.a0, b2 := N.div r.b2 r.a0,
    a1 := N.div r.a1 r.a0, a2 := N.div r.a2 r.a0 }

/-- `w0 = TWO_PI × fc ÷ FS` with `fc` the clamped frequency (R152, R155). -/
def omega (fs fMin fMax f : α) : α := N.div (N.mul N.twoPi (N.clamp f fMin fMax)) fs

/-- `coef(type, f, Q, g)` (R152). -/
def coef (fs fMin fMax : α) (shape : Shape α) (f : α) : Coef α :=
  (rawCoef N (N.cos (omega N fs fMin fMax f)) (N.sin (omega N fs fMin fMax f)) shape).normalize N

end Machine

/-- `coef` with a device's sample rate and bounds. -/
def Device.coef {α : Type} (d : Device α) (shape : Machine.Shape α) (f : α) : Machine.Coef α :=
  Machine.coef d.num d.fs d.fMin d.fMax shape f

end Sys2Proof
end

