-- ==== Sys2Proof/Machine/Operands.lean ====
section
/-! DEFINITION. The operand forms: the value of a `SETP` operand (30_encoding.md R94, R98), the domain a value is
clamped into (10_state.md R21), and the numbers of stages and parameters (00_scope.md R16). -/

namespace Sys2Proof

section
variable {α : Type} (d : Device α)

/-- The least value of an entry's domain (R21); the two fixed depths have one value. -/
def SParam.lo : SParam → α
  | .hpfFrequency | .lpfFrequency | .eqlFrequency | .eqmFrequency | .eqhFrequency => d.fMin
  | .hpfQ | .lpfQ | .eqmQ => d.qMin
  | .eqlGain | .eqmGain | .eqhGain => d.gMin
  | .phaRate | .flaRate | .choRate => d.num.zero
  | .phaDepth => d.num.zero
  | .flaDepth => d.flDepth
  | .choDepth => d.choDepth
  | .flaFeedback | .dlyFeedback => d.num.zero
  | .dlyTime => d.num.zero

/-- The greatest value of an entry's domain (R21). -/
def SParam.hi : SParam → α
  | .hpfFrequency | .lpfFrequency | .eqlFrequency | .eqmFrequency | .eqhFrequency => d.fMax
  | .hpfQ | .lpfQ | .eqmQ => d.qMax
  | .eqlGain | .eqmGain | .eqhGain => d.gMax
  | .phaRate | .flaRate | .choRate => d.rateMax
  | .phaDepth => d.phDepthMax
  | .flaDepth => d.flDepth
  | .choDepth => d.choDepth
  | .flaFeedback | .dlyFeedback => d.fbMax
  | .dlyTime => d.dlyTmax

/-- The least value of a held entry's domain (R21). -/
def HParam.lo : HParam → α
  | .phaMix | .flaMix | .choMix | .dlyMix | .revMix | .revTime | .envSustain => d.num.zero
  | .envAttack | .envDecay | .envRelease => d.envTMin

/-- The greatest value of a held entry's domain (R21). -/
def HParam.hi : HParam → α
  | .phaMix | .flaMix | .choMix | .dlyMix | .revMix | .revTime | .envSustain => d.num.one
  | .envAttack | .envDecay | .envRelease => d.envTMax

/-- The configured default of a smoothed entry (R21, column "reset value"). -/
def SParam.dflt : SParam → α
  | .hpfFrequency => d.hpfF0
  | .hpfQ => d.hpfQ0
  | .lpfFrequency => d.lpfF0
  | .lpfQ => d.lpfQ0
  | .eqlFrequency => d.eqlF0
  | .eqlGain => d.eqlG0
  | .eqmFrequency => d.eqmF0
  | .eqmQ => d.eqmQ0
  | .eqmGain => d.eqmG0
  | .eqhFrequency => d.eqhF0
  | .eqhGain => d.eqhG0
  | .phaRate => d.phRate0
  | .phaDepth => d.phDepth0
  | .flaRate => d.flRate0
  | .flaDepth => d.flDepth
  | .flaFeedback => d.flFb0
  | .choRate => d.choRate0
  | .choDepth => d.choDepth
  | .dlyTime => d.dlyT0
  | .dlyFeedback => d.dlyFb0

/-- The configured default of a held entry; `REV.time` resets to 0 (R21). -/
def HParam.dflt : HParam → α
  | .phaMix => d.phMix0
  | .flaMix => d.flMix0
  | .choMix => d.choMix0
  | .dlyMix => d.dlyMix0
  | .revTime => d.num.zero
  | .revMix => d.revMix0
  | .envAttack => d.envA0
  | .envDecay => d.envD0
  | .envSustain => d.envS0
  | .envRelease => d.envR0

/-- `clamp` into an entry's domain (30_encoding.md R99). -/
def SParam.legal (p : SParam) (v : α) : α := d.num.clamp v (p.lo d) (p.hi d)
def HParam.legal (p : HParam) (v : α) : α := d.num.clamp v (p.lo d) (p.hi d)

/-- The operand `v` of a `SETP` (R98): none for a NaN pattern, the bound of the domain for an infinity, else
`dec32(val)`. -/
def operandValue (N : NumSys α) (lo hi : α) (val : Val) : Option α :=
  if isNaNPattern val then none
  else if val = posInfPattern then some hi
  else if val = negInfPattern then some lo
  else some (N.dec32 val)

/-- The value a `SETP` stores (R98, R99): the operand clamped into the domain; none for a NaN pattern. -/
def SParam.operand (p : SParam) (val : Val) : Option α :=
  (operandValue d.num (p.lo d) (p.hi d) val).map (p.legal d)
def HParam.operand (p : HParam) (val : Val) : Option α :=
  (operandValue d.num (p.lo d) (p.hi d) val).map (p.legal d)

end

/-- A parameter, smoothed or held. -/
inductive ParamRef where
  | smoothed (p : SParam)
  | held (p : HParam)
deriving DecidableEq, Repr

/-- The parameter at a (stage, parameter) pair of numbers: the thirty rows of R21's table under the numbers of R16. -/
def paramAt (stage param : Nat) : Option ParamRef :=
  match stage, param with
  | 0, 0 => some (.smoothed .hpfFrequency)
  | 0, 1 => some (.smoothed .hpfQ)
  | 1, 0 => some (.smoothed .lpfFrequency)
  | 1, 1 => some (.smoothed .lpfQ)
  | 2, 0 => some (.smoothed .eqlFrequency)
  | 2, 2 => some (.smoothed .eqlGain)
  | 3, 0 => some (.smoothed .eqmFrequency)
  | 3, 1 => some (.smoothed .eqmQ)
  | 3, 2 => some (.smoothed .eqmGain)
  | 4, 0 => some (.smoothed .eqhFrequency)
  | 4, 2 => some (.smoothed .eqhGain)
  | 5, 3 => some (.smoothed .phaRate)
  | 5, 4 => some (.smoothed .phaDepth)
  | 5, 6 => some (.held .phaMix)
  | 6, 3 => some (.smoothed .flaRate)
  | 6, 4 => some (.smoothed .flaDepth)
  | 6, 5 => some (.smoothed .flaFeedback)
  | 6, 6 => some (.held .flaMix)
  | 7, 3 => some (.smoothed .choRate)
  | 7, 4 => some (.smoothed .choDepth)
  | 7, 6 => some (.held .choMix)
  | 8, 7 => some (.smoothed .dlyTime)
  | 8, 5 => some (.smoothed .dlyFeedback)
  | 8, 6 => some (.held .dlyMix)
  | 9, 7 => some (.held .revTime)
  | 9, 6 => some (.held .revMix)
  | 10, 8 => some (.held .envAttack)
  | 10, 9 => some (.held .envDecay)
  | 10, 10 => some (.held .envSustain)
  | 10, 11 => some (.held .envRelease)
  | _, _ => none

/-- The chain stage of a stage number (R16). -/
def stageAt (n : Nat) : Option Stage :=
  match n with
  | 0 => some .hpf
  | 1 => some .lpf
  | 2 => some .eql
  | 3 => some .eqm
  | 4 => some .eqh
  | 5 => some .pha
  | 6 => some .fla
  | 7 => some .cho
  | 8 => some .dly
  | 9 => some .rev
  | _ => none

end Sys2Proof
end

