-- ==== Sys2Proof/Machine/ResetValues.lean ====
section
/-! DEFINITION. The default configuration (00_scope.md R8) and the values of reset, file by file (10_state.md R40). -/

namespace Sys2Proof

/-! ## CFG-DEFAULT -/

section
variable {α : Type} (N : NumSys α)

/-- The default of `F_MAX`: `FS/2 - 1.0`. -/
def defaultFMax (fs : α) : α := N.sub (N.div fs N.two) N.one

/-- The default capacity of a delay line whose longest offset is `seconds`: the bound its row gives, at least 2 and at
least `ceil(seconds × FS)`, plus 1. -/
def defaultLineCap (fs seconds : α) : Nat := (max 2 (N.ceil (N.mul seconds fs))).toNat + 1

/-- The default of `IR_CAP`: its bound, at least 1 and at least `floor(FS × 3.1)`, plus 1. -/
def defaultIrCap (fs : α) : Nat := (max 1 (N.floor (N.mul fs (N.ofDec (31 / 10))))).toNat + 1

/-- The defaults of R8 (column "default") for a sample rate: literals, and formulas over the other fields. -/
def Settings.defaultAt (fs : α) : Settings α :=
  let v := N.ofDec
  let flBase := v (5 / 1000)
  let flDepth := v (2 / 1000)
  let choBase := v (30 / 1000)
  let choDepth := v (2 / 1000)
  let dlyTmax := v 2
  { fs := fs, nch := 2, tau := v (1 / 10),
    fMin := v 1, fMax := defaultFMax N fs, qMin := v (1 / 100), qMax := v 100,
    gMin := v (-40), gMax := v 40, rateMax := v 20, phDepthMax := v 5000, fbMax := v (95 / 100),
    hpfF0 := v 20, hpfQ0 := v (707 / 1000), lpfF0 := v 20000, lpfQ0 := v (707 / 1000),
    eqlF0 := v 250, eqlG0 := v 0, eqmF0 := v 1000, eqmQ0 := v 1, eqmG0 := v 0, eqhF0 := v 4000, eqhG0 := v 0,
    phN := 4, phBase := v 1000, phQ := v (707 / 1000), phRate0 := v (1 / 2), phDepth0 := v 500, phMix0 := v (1 / 2),
    flBase := flBase, flDepth := flDepth, flRate0 := v (1 / 4), flFb0 := v (1 / 2), flMix0 := v (1 / 2),
    flCap := defaultLineCap N fs (N.add flBase flDepth),
    choBase := choBase, choDepth := choDepth, choRate0 := v (3 / 2), choMix0 := v (1 / 2),
    choCap := defaultLineCap N fs (N.add choBase choDepth),
    dlyTmax := dlyTmax, dlyT0 := v (3 / 10), dlyFb0 := v (4 / 10), dlyMix0 := v (1 / 2),
    dlyLpF := v 4000, dlyLpQ := v (707 / 1000), dlyCap := defaultLineCap N fs dlyTmax,
    revDecay := v 2, revMix0 := v (1 / 2), irCap := defaultIrCap N fs,
    envTMin := v (1 / 1000), envTMax := v 10, envA0 := v (1 / 10), envD0 := v (1 / 10), envS0 := v (1 / 2),
    envR0 := v (2 / 10) }

end

/-- CFG-DEFAULT (R8) for any choice of `NUM`: `FS` 48000, the draws from source 0 (log 13). -/
def Cfg.defaultOf (n : NumSel) : Cfg :=
  { toSettings := Settings.defaultAt n.sys (n.sys.ofDec 48000), num := n, rng := 0 }

/-- CFG-DEFAULT with `NUM_REAL`, the default of the row `NUM` (log 2). -/
def Cfg.default : Cfg := Cfg.defaultOf { kind := .real }

/-! ## Reset -/

namespace Machine

variable {α : Type} (d : Device α)

/-- A smoothed entry after reset: target and current at the configured default, clamped into the domain (R40). DESIGN CHOICE
(log 27): a default that is a NaN, which only `NUM_F32` has, is stored as it is; 60_exceptions.md R321 clamps defaults outside
their domain, R12 applies `clamp` to no NaN, and the spec says nothing else of one. -/
def resetSmoothed (p : SParam) : Smoothed α := { tgt := p.legal d (p.dflt d), cur := p.legal d (p.dflt d) }

/-- A held entry with a configured default after reset (R40). DESIGN CHOICE (log 27): a NaN likewise. -/
def resetHeld (p : HParam) : α := p.legal d (p.dflt d)

def resetParams : Params α :=
  { hpfFrequency := resetSmoothed d .hpfFrequency, hpfQ := resetSmoothed d .hpfQ,
    lpfFrequency := resetSmoothed d .lpfFrequency, lpfQ := resetSmoothed d .lpfQ,
    eqlFrequency := resetSmoothed d .eqlFrequency, eqlGain := resetSmoothed d .eqlGain,
    eqmFrequency := resetSmoothed d .eqmFrequency, eqmQ := resetSmoothed d .eqmQ,
    eqmGain := resetSmoothed d .eqmGain, eqhFrequency := resetSmoothed d .eqhFrequency,
    eqhGain := resetSmoothed d .eqhGain, phaRate := resetSmoothed d .phaRate,
    phaDepth := resetSmoothed d .phaDepth, flaRate := resetSmoothed d .flaRate,
    flaDepth := resetSmoothed d .flaDepth, flaFeedback := resetSmoothed d .flaFeedback,
    choRate := resetSmoothed d .choRate, choDepth := resetSmoothed d .choDepth,
    dlyTime := resetSmoothed d .dlyTime, dlyFeedback := resetSmoothed d .dlyFeedback,
    phaMix := resetHeld d .phaMix, flaMix := resetHeld d .flaMix, choMix := resetHeld d .choMix,
    dlyMix := resetHeld d .dlyMix, revTime := d.num.zero, revMix := resetHeld d .revMix,
    envAttack := resetHeld d .envAttack, envDecay := resetHeld d .envDecay,
    envSustain := resetHeld d .envSustain, envRelease := resetHeld d .envRelease }

/-- Inactive, wet 0, dry 1 (R40). -/
def resetMix : MixState α := { active := false, wet := d.num.zero, dry := d.num.one }

def resetMixes : Mixes α :=
  { hpf := resetMix d, lpf := resetMix d, eql := resetMix d, eqm := resetMix d, eqh := resetMix d,
    pha := resetMix d, fla := resetMix d, cho := resetMix d, dly := resetMix d, rev := resetMix d }

/-- `coef` at the reset values; the phaser's at its base frequency, the LFO value being 0 (R40). -/
def resetCoefs : CoefFile α :=
  let v (p : SParam) := (resetSmoothed d p).cur
  { hpf := d.coef (.highpass (v .hpfQ)) (v .hpfFrequency),
    lpf := d.coef (.lowpass (v .lpfQ)) (v .lpfFrequency),
    eql := d.coef (.lowshelf (v .eqlGain)) (v .eqlFrequency),
    eqm := d.coef (.peaking (v .eqmQ) (v .eqmGain)) (v .eqmFrequency),
    eqh := d.coef (.highshelf (v .eqhGain)) (v .eqhFrequency),
    pha := d.coef (.allpass d.phQ) (d.num.clamp d.phBase d.fMin d.fMax),
    dlyLp := d.coef (.lowpass d.dlyLpQ) d.dlyLpF }

def resetHist : Hist α := { x1 := d.num.zero, x2 := d.num.zero, y1 := d.num.zero, y2 := d.num.zero }

def resetLfo : Lfo α := { phase := d.num.zero, val := d.num.zero }

def resetLfos : Lfos α := { pha := resetLfo d, fla := resetLfo d, cho := resetLfo d }

def resetWriteIdx : WriteIdx := { fla := 0, cho := 0, dly := 0 }

def resetEnv : Env α := { ph := .idle, k := 0, n := 1, start := d.num.zero, amp := d.num.zero }

/-- Histories zero, one per allpass stage; memories with nothing listed, so every location is 0 (R40). -/
def resetChannel : Channel α :=
  { hpf := resetHist d, lpf := resetHist d, eql := resetHist d, eqm := resetHist d, eqh := resetHist d,
    pha := List.replicate d.phN (resetHist d), dlyLp := resetHist d,
    dlFla := [], dlCho := [], dlDly := [], hist := [] }

def resetBank : Bank α := { left := [], right := [] }

/-- The output Frame register of the model before the first TICK (log 14). -/
def resetFrame : Frame α := { c0 := d.num.zero, c1 := d.num.zero }

end Machine

end Sys2Proof
end

