-- ==== Sys2Proof/Machine/State.lean ====
section
/-! DEFINITION. The state of the block (10_state.md R20) over any carrier, the state of the machine as plain data, the
reasons a step can stop, and the state after reset (10_state.md R40, 70_reset_and_hazards.md R350). -/

namespace Sys2Proof.Machine

/-- The state of the block over the carrier `α` of its NUM: the whole state of R20, and no more. -/
structure Block (α : Type) where
  /-- `P` (R21). -/
  par : Params α
  /-- `M` (R23). -/
  mix : Mixes α
  /-- `C` (R25). -/
  coef : CoefFile α
  /-- `L` (R26). -/
  lfo : Lfos α
  /-- `W` (R27). -/
  widx : WriteIdx
  /-- Write index of the convolution history (R28). -/
  hw : Nat
  /-- The live bank: `false` bank 0, `true` bank 1 (R28). -/
  irSel : Bool
  /-- Length of the live impulse response (R28). -/
  irLen : Nat
  /-- Version of the live impulse response, unbounded (R28). -/
  irVer : Nat
  /-- The regeneration in flight, with its duration in seconds (R28). -/
  job : Option α
  /-- `E` (R29). -/
  env : Env α
  /-- The sticky flag `BADCMD` (R31). -/
  badcmd : Bool
  /-- Channel 0. -/
  ch0 : Channel α
  /-- Channel 1; not part of a machine with `NCH = 1`, which leaves it as it is (log 15). -/
  ch1 : Channel α
  /-- `IR[0]` (20_memory.md R61). -/
  bank0 : Bank α
  /-- `IR[1]`. -/
  bank1 : Bank α
deriving DecidableEq, Repr

/-- The state of the machine: the block over plain data (`par` to `bank1`), and beside it `cfg`, the construction record,
which no step changes (log 1), and five fields of the model's own: what the outside still asks for, the place in the
source of draws, and the ports (log 10, 13, 14). -/
structure State extends Block Scalar where
  /-- `CFG` (00_scope.md R8). -/
  cfg : Cfg
  /-- The steps the agents still take, in order (00_scope.md R5, log 10). -/
  inbox : List Event
  /-- How many values were taken from the source of draws (log 13). -/
  rngPos : Nat
  /-- The output Frame of the latest TICK (40_tick_smoother_mix.md R120, log 14). -/
  out : Frame Scalar
  /-- The envelope output of the latest TICK (49_adsr.md R296, log 14). -/
  envOut : Scalar
  /-- The result of the latest READ (R50, log 14). -/
  readData : Val
deriving DecidableEq, Repr

/-- Why the machine stops with a fault. -/
inductive Fault where
  /-- ConfigurationError(cause) (60_exceptions.md R321): raised by RESET alone, when the configuration fails a check;
  no machine exists afterwards. Safe: the hardware stops there too. -/
  | configurationError (cause : Cause)
deriving DecidableEq, Repr

/-- Why an instruction has no meaning. -/
inductive Refusal where
  /-- The instruction of that mnemonic is not modelled: raised by an arm of `exec`. Safe: the model stops where the
  hardware goes on. No arm raises it. -/
  | notModelled (mnemonic : String)
deriving DecidableEq, Repr

/-- The numerics of the machine. -/
abbrev State.sys (s : State) : NumSys Scalar := s.cfg.sys

/-- The device the machine is. -/
abbrev State.device (s : State) : Device Scalar := s.cfg.device

/-- Every element at its reset value (R40), for a device over any carrier. -/
def Block.reset {α : Type} (d : Device α) : Block α :=
  { par := resetParams d, mix := resetMixes d, coef := resetCoefs d, lfo := resetLfos d, widx := resetWriteIdx,
    hw := 0, irSel := false, irLen := 1, irVer := 0, job := none, env := resetEnv d, badcmd := false,
    ch0 := resetChannel d, ch1 := resetChannel d, bank0 := resetBank, bank1 := resetBank }

/-- The machine after reset, for a configuration. -/
def State.ofCfg (cfg : Cfg) : State :=
  { toBlock := Block.reset cfg.device, cfg := cfg, inbox := [], rngPos := 0, out := resetFrame cfg.device,
    envOut := cfg.sys.zero, readData := 0 }

/-- The machine right after reset, built with CFG-DEFAULT (R8, R40). -/
def State.reset : State := State.ofCfg Cfg.default

end Sys2Proof.Machine
end

