-- ==== Sys2Proof/Machine/Ops.lean ====
section
/-! DEFINITION. The named operations over memories and registers (00_scope.md R15, 20_memory.md R60, 10_state.md
R21 to R31), over any carrier. The hardware has no trap and so no exception entry (60_exceptions.md R329); what a rejected
word does instead is `Block.reject`. -/

namespace Sys2Proof

namespace Memory

variable {α : Type}

/-- `MemRead(SPACE[i], 1)`: the Sample listed at `i`, else `zero` (R60). -/
def read (zero : α) : Memory α → Nat → α
  | [], _ => zero
  | (j, x) :: rest, i => if i = j then x else read zero rest i

/-- `MemWrite(SPACE[i], 1, v)` (R60), keeping the canonical form: writing `zero` removes the entry. -/
def write [DecidableEq α] (zero : α) : Memory α → Nat → α → Memory α
  | [], i, v => if v = zero then [] else [(i, v)]
  | (j, x) :: rest, i, v =>
    if i < j then (if v = zero then (j, x) :: rest else (i, v) :: (j, x) :: rest)
    else if i = j then (if v = zero then rest else (i, v) :: rest)
    else (j, x) :: write zero rest i v

/-- The canonical form from index `lo` on: indices strictly rising, below `cap`, no entry equal to `zero`. -/
def wfFrom [DecidableEq α] (zero : α) (cap : Nat) : Nat → Memory α → Bool
  | _, [] => true
  | lo, (j, x) :: rest => decide (lo ≤ j) && decide (j < cap) && decide (x ≠ zero) && wfFrom zero cap (j + 1) rest

/-- The canonical form of a space of capacity `cap`. -/
def wf [DecidableEq α] (zero : α) (cap : Nat) (m : Memory α) : Bool := wfFrom zero cap 0 m

/-- Writes a list of Samples at rising indices from `i` on. -/
def writeAll [DecidableEq α] (zero : α) : Memory α → Nat → List α → Memory α
  | m, _, [] => m
  | m, i, v :: vs => writeAll zero (write zero m i v) (i + 1) vs

end Memory

namespace Machine

variable {α : Type}

/-! ## The parameter register file -/

/-- `P[s.p]` of a smoothed entry. -/
def Params.s (r : Params α) : SParam → Smoothed α
  | .hpfFrequency => r.hpfFrequency
  | .hpfQ => r.hpfQ
  | .lpfFrequency => r.lpfFrequency
  | .lpfQ => r.lpfQ
  | .eqlFrequency => r.eqlFrequency
  | .eqlGain => r.eqlGain
  | .eqmFrequency => r.eqmFrequency
  | .eqmQ => r.eqmQ
  | .eqmGain => r.eqmGain
  | .eqhFrequency => r.eqhFrequency
  | .eqhGain => r.eqhGain
  | .phaRate => r.phaRate
  | .phaDepth => r.phaDepth
  | .flaRate => r.flaRate
  | .flaDepth => r.flaDepth
  | .flaFeedback => r.flaFeedback
  | .choRate => r.choRate
  | .choDepth => r.choDepth
  | .dlyTime => r.dlyTime
  | .dlyFeedback => r.dlyFeedback

/-- `P[s.p]` of a held entry. -/
def Params.h (r : Params α) : HParam → α
  | .phaMix => r.phaMix
  | .flaMix => r.flaMix
  | .choMix => r.choMix
  | .dlyMix => r.dlyMix
  | .revTime => r.revTime
  | .revMix => r.revMix
  | .envAttack => r.envAttack
  | .envDecay => r.envDecay
  | .envSustain => r.envSustain
  | .envRelease => r.envRelease

/-- `P[s.p].tgt <- v`. -/
def Params.setTgt (r : Params α) (p : SParam) (v : α) : Params α :=
  match p with
  | .hpfFrequency => { r with hpfFrequency := { r.hpfFrequency with tgt := v } }
  | .hpfQ => { r with hpfQ := { r.hpfQ with tgt := v } }
  | .lpfFrequency => { r with lpfFrequency := { r.lpfFrequency with tgt := v } }
  | .lpfQ => { r with lpfQ := { r.lpfQ with tgt := v } }
  | .eqlFrequency => { r with eqlFrequency := { r.eqlFrequency with tgt := v } }
  | .eqlGain => { r with eqlGain := { r.eqlGain with tgt := v } }
  | .eqmFrequency => { r with eqmFrequency := { r.eqmFrequency with tgt := v } }
  | .eqmQ => { r with eqmQ := { r.eqmQ with tgt := v } }
  | .eqmGain => { r with eqmGain := { r.eqmGain with tgt := v } }
  | .eqhFrequency => { r with eqhFrequency := { r.eqhFrequency with tgt := v } }
  | .eqhGain => { r with eqhGain := { r.eqhGain with tgt := v } }
  | .phaRate => { r with phaRate := { r.phaRate with tgt := v } }
  | .phaDepth => { r with phaDepth := { r.phaDepth with tgt := v } }
  | .flaRate => { r with flaRate := { r.flaRate with tgt := v } }
  | .flaDepth => { r with flaDepth := { r.flaDepth with tgt := v } }
  | .flaFeedback => { r with flaFeedback := { r.flaFeedback with tgt := v } }
  | .choRate => { r with choRate := { r.choRate with tgt := v } }
  | .choDepth => { r with choDepth := { r.choDepth with tgt := v } }
  | .dlyTime => { r with dlyTime := { r.dlyTime with tgt := v } }
  | .dlyFeedback => { r with dlyFeedback := { r.dlyFeedback with tgt := v } }

/-- `P[s.p] <- v` of a held entry. -/
def Params.setHeld (r : Params α) (p : HParam) (v : α) : Params α :=
  match p with
  | .phaMix => { r with phaMix := v }
  | .flaMix => { r with flaMix := v }
  | .choMix => { r with choMix := v }
  | .dlyMix => { r with dlyMix := v }
  | .revTime => { r with revTime := v }
  | .revMix => { r with revMix := v }
  | .envAttack => { r with envAttack := v }
  | .envDecay => { r with envDecay := v }
  | .envSustain => { r with envSustain := v }
  | .envRelease => { r with envRelease := v }

/-- One function applied to each of the twenty smoothed entries; the held ones stay. -/
def Params.mapSmoothed (f : Smoothed α → Smoothed α) (r : Params α) : Params α :=
  { r with
    hpfFrequency := f r.hpfFrequency, hpfQ := f r.hpfQ, lpfFrequency := f r.lpfFrequency, lpfQ := f r.lpfQ,
    eqlFrequency := f r.eqlFrequency, eqlGain := f r.eqlGain, eqmFrequency := f r.eqmFrequency, eqmQ := f r.eqmQ,
    eqmGain := f r.eqmGain, eqhFrequency := f r.eqhFrequency, eqhGain := f r.eqhGain, phaRate := f r.phaRate,
    phaDepth := f r.phaDepth, flaRate := f r.flaRate, flaDepth := f r.flaDepth, flaFeedback := f r.flaFeedback,
    choRate := f r.choRate, choDepth := f r.choDepth, dlyTime := f r.dlyTime, dlyFeedback := f r.dlyFeedback }

/-! ## The mix state -/

/-- `M[s]`. -/
def Mixes.of (m : Mixes α) : Stage → MixState α
  | .hpf => m.hpf
  | .lpf => m.lpf
  | .eql => m.eql
  | .eqm => m.eqm
  | .eqh => m.eqh
  | .pha => m.pha
  | .fla => m.fla
  | .cho => m.cho
  | .dly => m.dly
  | .rev => m.rev

/-- `M[s].active <- a`. -/
def Mixes.setActive (m : Mixes α) (st : Stage) (a : Bool) : Mixes α :=
  match st with
  | .hpf => { m with hpf := { m.hpf with active := a } }
  | .lpf => { m with lpf := { m.lpf with active := a } }
  | .eql => { m with eql := { m.eql with active := a } }
  | .eqm => { m with eqm := { m.eqm with active := a } }
  | .eqh => { m with eqh := { m.eqh with active := a } }
  | .pha => { m with pha := { m.pha with active := a } }
  | .fla => { m with fla := { m.fla with active := a } }
  | .cho => { m with cho := { m.cho with active := a } }
  | .dly => { m with dly := { m.dly with active := a } }
  | .rev => { m with rev := { m.rev with active := a } }

/-- One function applied to the MixState of every chain stage. -/
def Mixes.mapStages (f : Stage → MixState α → MixState α) (m : Mixes α) : Mixes α :=
  { hpf := f .hpf m.hpf, lpf := f .lpf m.lpf, eql := f .eql m.eql, eqm := f .eqm m.eqm, eqh := f .eqh m.eqh,
    pha := f .pha m.pha, fla := f .fla m.fla, cho := f .cho m.cho, dly := f .dly m.dly, rev := f .rev m.rev }

/-! ## Updates of the block -/

namespace Block

def setTgt (b : Block α) (p : SParam) (v : α) : Block α := { b with par := b.par.setTgt p v }
def setHeld (b : Block α) (p : HParam) (v : α) : Block α := { b with par := b.par.setHeld p v }
def setActive (b : Block α) (st : Stage) (a : Bool) : Block α := { b with mix := b.mix.setActive st a }
def setJob (b : Block α) (j : Option α) : Block α := { b with job := j }
def setEnv (b : Block α) (e : Env α) : Block α := { b with env := e }

/-- What a rejected word does: `BADCMD <- 1` and nothing else (30_encoding.md R97, 60_exceptions.md R325). -/
def reject (b : Block α) : Block α := { b with badcmd := true }

/-- `IR[ir_sel]`, the live bank (R64). -/
def liveBank (b : Block α) : Bank α := if b.irSel then b.bank1 else b.bank0

/-- `IR[1 − ir_sel]`, the shadow bank (R64). -/
def shadowBank (b : Block α) : Bank α := if b.irSel then b.bank0 else b.bank1

/-- Replaces the shadow bank. -/
def setShadow (b : Block α) (k : Bank α) : Block α := if b.irSel then { b with bank0 := k } else { b with bank1 := k }

end Block

/-- A `SETP` of a smoothed entry: the clamped operand to the target; a NaN pattern is a rejected word (R97 to R99). -/
def setpSmoothed (d : Device α) (p : SParam) (val : Val) (b : Block α) : Block α :=
  match p.operand d val with
  | none => b.reject
  | some v => b.setTgt p v

/-- A `SETP` of a held entry. -/
def setpHeld (d : Device α) (p : HParam) (val : Val) (b : Block α) : Block α :=
  match p.operand d val with
  | none => b.reject
  | some v => b.setHeld p v

/-! ## Updates of the machine -/

/-- A change of the block alone: what every command does. -/
def State.onBlock (s : State) (f : Block Scalar → Block Scalar) : State := { s with toBlock := f s.toBlock }

/-- A rejected word, on the machine. -/
def State.reject (s : State) : State := s.onBlock Block.reject

end Machine

end Sys2Proof
end

