-- ==== Sys2Proof/Machine/Envelope.lean ====
section
/-! DEFINITION. The ADSR envelope generator (49_adsr.md R290 to R308). -/

namespace Sys2Proof.Machine

section
variable {α : Type} (N : NumSys α)

/-- `N(d) = max(1, floor(d × FS + 0.5))` (R292). -/
def phaseTicks (fs d : α) : Nat := (max 1 (N.floor (N.add (N.mul d fs) (N.ofDec (1 / 2))))).toNat

/-- `lerp(a, b, k, n)` (R292). -/
def lerp (a b : α) (k n : Nat) : α := N.add a (N.mul (N.sub b a) (N.div (N.ofInt k) (N.ofInt n)))

/-- R298. -/
def envIdle (e : Env α) : Env α := { e with amp := N.zero }

/-- R299; `decay` is `P[ENV.decay]`. -/
def envAttack (fs decay : α) (e : Env α) : Env α :=
  if e.n ≤ e.k + 1 then { ph := .decay, k := 0, n := phaseTicks N fs decay, start := N.one, amp := N.one }
  else { e with k := e.k + 1, amp := lerp N e.start N.one (e.k + 1) e.n }

/-- R300; `sustain` is `P[ENV.sustain]`. -/
def envDecay (sustain : α) (e : Env α) : Env α :=
  if e.n ≤ e.k + 1 then { ph := .sustain, k := 0, n := 1, start := sustain, amp := sustain }
  else { e with k := e.k + 1, amp := lerp N e.start sustain (e.k + 1) e.n }

/-- R301. -/
def envSustain (sustain : α) (e : Env α) : Env α := { e with amp := sustain }

/-- R302. -/
def envRelease (e : Env α) : Env α :=
  if e.n ≤ e.k + 1 then { ph := .idle, k := 0, n := 1, start := N.zero, amp := N.zero }
  else { e with k := e.k + 1, amp := lerp N e.start N.zero (e.k + 1) e.n }

/-- Step 6 of TICK: exactly one of R298 to R302, by the phase as it stands (R297). -/
def envTick (fs decay sustain : α) (e : Env α) : Env α :=
  match e.ph with
  | .idle => envIdle N e
  | .attack => envAttack N fs decay e
  | .decay => envDecay N sustain e
  | .sustain => envSustain sustain e
  | .release => envRelease N e

/-- `TRIG` on the envelope registers, `attack` being `P[ENV.attack]` (R294, R303). -/
def envTrig (fs attack : α) (e : Env α) : Env α :=
  { e with start := e.amp, ph := .attack, k := 0, n := phaseTicks N fs attack }

/-- `REL` on the envelope registers, `release` being `P[ENV.release]` (R295). -/
def envRel (fs release : α) (e : Env α) : Env α :=
  match e.ph with
  | .attack | .decay | .sustain => { e with start := e.amp, ph := .release, k := 0, n := phaseTicks N fs release }
  | .idle | .release => e

end

/-- The number of a phase on the READ port (10_state.md R29). -/
def Phase.code : Phase → Val
  | .idle => 0
  | .attack => 1
  | .decay => 2
  | .sustain => 3
  | .release => 4

section
variable {α : Type} (d : Device α) (b : Block α)

/-- Step 6 of TICK on the block. -/
def envStep : Block α := b.setEnv (envTick d.num d.fs b.par.envDecay b.par.envSustain b.env)

/-- `TRIG` on the block (R294). -/
def trigger : Block α := b.setEnv (envTrig d.num d.fs b.par.envAttack b.env)

/-- `REL` on the block (R295). -/
def release : Block α := b.setEnv (envRel d.num d.fs b.par.envRelease b.env)

end

/-! ## Commands -/

/-- R294. -/
def execTrig (s : State) : Host.Outcome State Fault Refusal :=
  .next (s.onBlock (trigger s.device))

/-- R295. -/
def execRel (s : State) : Host.Outcome State Fault Refusal :=
  .next (s.onBlock (release s.device))

/-- R305. -/
def execSetpEnvAttack (val : Val) (s : State) : Host.Outcome State Fault Refusal :=
  .next (s.onBlock (setpHeld s.device .envAttack val))

/-- R306. -/
def execSetpEnvDecay (val : Val) (s : State) : Host.Outcome State Fault Refusal :=
  .next (s.onBlock (setpHeld s.device .envDecay val))

/-- R307. -/
def execSetpEnvSustain (val : Val) (s : State) : Host.Outcome State Fault Refusal :=
  .next (s.onBlock (setpHeld s.device .envSustain val))

/-- R308. -/
def execSetpEnvRelease (val : Val) (s : State) : Host.Outcome State Fault Refusal :=
  .next (s.onBlock (setpHeld s.device .envRelease val))

end Sys2Proof.Machine
end

