-- ==== Sys2Proof/Machine/Flags.lean ====
section
/-! DEFINITION. The flags (10_state.md R31) and the gain targets that follow the active flags
(40_tick_smoother_mix.md R126). No arithmetic condition code exists (R31). -/

namespace Sys2Proof.Machine

variable {α : Type}

/-- `IR_BUSY`: the predicate `job ≠ none`. -/
def Block.irBusy (b : Block α) : Bool := b.job.isSome

/-- The `STATUS` word: bit 0 `BADCMD`, bit 1 `IR_BUSY`, bit 2 `ir_sel`, the rest zero (R51). -/
def Block.status (b : Block α) : Val :=
  0#29 ++ BitVec.ofBool b.irSel ++ BitVec.ofBool b.irBusy ++ BitVec.ofBool b.badcmd

/-- The gain targets `(wet, dry)` of an effect stage (R126). -/
def effectTargets (N : NumSys α) (active : Bool) (mix : α) : α × α :=
  if active then (mix, N.sub N.one (N.div mix N.two)) else (N.zero, N.one)

/-- The gain targets of a filter stage (R126). -/
def filterTargets (N : NumSys α) (active : Bool) : α × α :=
  if active then (N.one, N.zero) else (N.zero, N.one)

/-- `(wet_tgt(s), dry_tgt(s))` (R126). -/
def gainTargets (N : NumSys α) (par : Params α) (st : Stage) (m : MixState α) : α × α :=
  match st with
  | .hpf | .lpf | .eql | .eqm | .eqh => filterTargets N m.active
  | .pha => effectTargets N m.active par.phaMix
  | .fla => effectTargets N m.active par.flaMix
  | .cho => effectTargets N m.active par.choMix
  | .dly => effectTargets N m.active par.dlyMix
  | .rev => effectTargets N m.active par.revMix

def Block.wetTgt (N : NumSys α) (b : Block α) (st : Stage) : α := (gainTargets N b.par st (b.mix.of st)).1
def Block.dryTgt (N : NumSys α) (b : Block α) (st : Stage) : α := (gainTargets N b.par st (b.mix.of st)).2

def State.wetTgt (s : State) (st : Stage) : Scalar := s.toBlock.wetTgt s.sys st
def State.dryTgt (s : State) (st : Stage) : Scalar := s.toBlock.dryTgt s.sys st

end Sys2Proof.Machine
end

