-- ==== Sys2Proof/Machine/Control.lean ====
section
/-! DEFINITION. `NOP` and the ten `SETA` commands (40_tick_smoother_mix.md R130 to R140), the READ port (10_state.md
R50, R51), and construction, which is RESET (60_exceptions.md R321, 70_reset_and_hazards.md R350). -/

namespace Sys2Proof.Machine

/-- R140. -/
def execNop (s : State) : Host.Outcome State Fault Refusal := .next s

/-- R130. -/
def execSetaHpf (a : Bool) (s : State) : Host.Outcome State Fault Refusal := .next (s.onBlock (·.setActive .hpf a))

/-- R131. -/
def execSetaLpf (a : Bool) (s : State) : Host.Outcome State Fault Refusal := .next (s.onBlock (·.setActive .lpf a))

/-- R132. -/
def execSetaEql (a : Bool) (s : State) : Host.Outcome State Fault Refusal := .next (s.onBlock (·.setActive .eql a))

/-- R133. -/
def execSetaEqm (a : Bool) (s : State) : Host.Outcome State Fault Refusal := .next (s.onBlock (·.setActive .eqm a))

/-- R134. -/
def execSetaEqh (a : Bool) (s : State) : Host.Outcome State Fault Refusal := .next (s.onBlock (·.setActive .eqh a))

/-- R135. -/
def execSetaPha (a : Bool) (s : State) : Host.Outcome State Fault Refusal := .next (s.onBlock (·.setActive .pha a))

/-- R136. -/
def execSetaFla (a : Bool) (s : State) : Host.Outcome State Fault Refusal := .next (s.onBlock (·.setActive .fla a))

/-- R137. -/
def execSetaCho (a : Bool) (s : State) : Host.Outcome State Fault Refusal := .next (s.onBlock (·.setActive .cho a))

/-- R138. -/
def execSetaDly (a : Bool) (s : State) : Host.Outcome State Fault Refusal := .next (s.onBlock (·.setActive .dly a))

/-- R139. -/
def execSetaRev (a : Bool) (s : State) : Host.Outcome State Fault Refusal := .next (s.onBlock (·.setActive .rev a))

/-! ## The READ port -/

section
variable {α : Type}

/-- A parameter's value, current or target; a held entry's are one register (R21). -/
def Params.value (r : Params α) (tgt : Bool) : ParamRef → α
  | .smoothed p => if tgt then (r.s p).tgt else (r.s p).cur
  | .held p => r.h p

/-- A flag as an unsigned word. -/
def flagWord (b : Bool) : Val := if b then 1 else 0

/-- The LFO of a stage number, for `LFOPH` (R51). -/
def Lfos.ofStage (l : Lfos α) : Nat → Option (Lfo α)
  | 5 => some l.pha
  | 6 => some l.fla
  | 7 => some l.cho
  | _ => none

variable (N : NumSys α) (b : Block α)

/-- Registers 12 to 14 of a chain stage: `ACTIVE`, `WET`, `DRY` (R51). -/
def mixRegister (tgt : Bool) (st : Stage) (r : Nat) : Val :=
  match r with
  | 12 => flagWord (b.mix.of st).active
  | 13 => N.enc32 (if tgt then b.wetTgt N st else (b.mix.of st).wet)
  | 14 => N.enc32 (if tgt then b.dryTgt N st else (b.mix.of st).dry)
  | _ => 0

/-- Registers of a stage 0 to 14; 0 where the map lists none (R51). -/
def stageRegister (tgt : Bool) (stage r : Nat) : Val :=
  if r ≤ 11 then
    match paramAt stage r with
    | some p => N.enc32 (b.par.value tgt p)
    | none => 0
  else if r = 15 then
    match b.lfo.ofStage stage with
    | some l => N.enc32 l.phase
    | none => 0
  else
    match stageAt stage with
    | some st => mixRegister N b tgt st r
    | none => 0

/-- The global registers of stage number 15 (R51). -/
def globalRegister (r : Nat) : Val :=
  match r with
  | 0 => b.status
  | 1 => BitVec.ofNat 32 b.irLen
  | 2 => BitVec.ofNat 32 b.irVer
  | 3 => N.enc32 b.env.amp
  | 4 => b.env.ph.code
  | 5 => 1
  | _ => 0

/-- READ (R50, R51): `A[8]` selects the target, `A[7:4]` the stage, `A[3:0]` the register. -/
def readPort (a : Addr) : Val :=
  let stage := (a.extractLsb' 4 4).toNat
  let r := (a.extractLsb' 0 4).toNat
  if stage = 15 then globalRegister N b r else stageRegister N b (a.getLsbD 8) stage r

end

/-- READ of agent VIS: the word is put out, nothing else changes (R50, log 14). -/
def execRead (a : Addr) (s : State) : Host.Outcome State Fault Refusal :=
  .next { s with readData := readPort s.sys s.toBlock a }

/-! ## Construction -/

section
variable {α : Type} (d : Device α)

/-- The bounds of check 4 (R321, and the column "constraint" of 00_scope.md R8, log 19). DESIGN CHOICE (log 27): a reset
default that is a NaN passes; of the settings R321 names `TAU` alone is asked whether it is one, and a default outside its
domain is no error. -/
def boundsOk : Bool :=
  let N := d.num
  N.lt N.zero d.fMin && N.le d.fMin d.fMax && N.lt d.fMax (N.div d.fs N.two)
  && N.lt N.zero d.qMin && N.le d.qMin d.qMax
  && N.le d.gMin N.zero && N.le N.zero d.gMax
  && N.le N.zero d.rateMax && N.lt d.rateMax d.fs
  && N.le N.zero d.phDepthMax
  && N.le N.zero d.fbMax && N.lt d.fbMax N.one
  && N.lt N.zero d.phBase && N.lt N.zero d.phQ
  && N.lt N.zero d.flBase && N.le N.zero d.flDepth
  && N.lt N.zero d.choBase && N.le N.zero d.choDepth
  && N.lt N.zero d.dlyTmax
  && N.le d.fMin d.dlyLpF && N.le d.dlyLpF d.fMax
  && N.le d.qMin d.dlyLpQ && N.le d.dlyLpQ d.qMax
  && N.lt N.zero d.revDecay
  && N.lt N.zero d.envTMin && N.le d.envTMin d.envTMax
  && !N.isNaN d.tau

/-- A delay capacity that does not cover the largest offset (R321 checks 5 to 7, 43_delayline.md R198). -/
def capTooSmall (N : NumSys α) (cap : Nat) (seconds fs : α) : Bool :=
  decide (cap < 2) || decide ((cap : Int) < N.ceil (N.mul seconds fs))

/-- The checks of R321 in their order: the cause of the first that fails. -/
def checkDevice : Option Cause :=
  let N := d.num
  if !N.lt N.zero d.fs then some .badFs
  else if d.nch ≠ 1 ∧ d.nch ≠ 2 then some .badNch
  else if d.phN < 1 then some .badPhN
  else if !boundsOk d then some .badBounds
  else if capTooSmall N d.flCap (N.add d.flBase d.flDepth) d.fs then some .capFla
  else if capTooSmall N d.choCap (N.add d.choBase d.choDepth) d.fs then some .capCho
  else if capTooSmall N d.dlyCap d.dlyTmax d.fs then some .capDly
  else if d.irCap < 1 ∨ (d.irCap : Int) < N.floor (N.mul d.fs (N.ofDec (31 / 10))) then some .capIr
  else none

/-- `reset(CFG)` (R350): the reset state of the block, or ConfigurationError and no state. -/
def construct : Except Cause (Block α) :=
  match checkDevice d with
  | some c => .error c
  | none => .ok (Block.reset d)

end

/-- The checks of R321 of a configuration on plain data. -/
abbrev checkCfg (cfg : Cfg) : Option Cause := checkDevice cfg.device

/-- A second reset: the same function of the same `CFG` (R350). What the outside still asks for and the place in RNG are
no state of the block and stay (10_state.md R33, log 17); the ports show what they show after construction. -/
def execReset (s : State) : Host.Outcome State Fault Refusal :=
  match construct s.device with
  | .ok b => .next { State.ofCfg s.cfg with toBlock := b, inbox := s.inbox, rngPos := s.rngPos }
  | .error c => .fault (.configurationError c)

/-! ## Error codes (60_exceptions.md R320) -/

/-- The five kinds of R320's table. -/
inductive ErrorKind where
  | configurationError | parameterOutOfRange | bufferUnderrunOrOverrun | impulseSynthesisFailure | badCommand
deriving DecidableEq, Repr

/-- The code of a kind of error (R320). -/
def ErrorKind.code : ErrorKind → Nat
  | .configurationError => 1
  | .parameterOutOfRange => 2
  | .bufferUnderrunOrOverrun => 3
  | .impulseSynthesisFailure => 4
  | .badCommand => 5

end Sys2Proof.Machine
end

