-- ==== Sys2Proof/Machine/DelayLine.lean ====
section
/-! DEFINITION. The circular delay line (43_delayline.md R190 to R200). -/

namespace Sys2Proof.Machine

variable {α : Type} (N : NumSys α)

/-- The offset in samples, `D = clamp(off × FS, 1, ofInt(CAP))` (R192). -/
def delaySamples (fs : α) (cap : Nat) (off : α) : α := N.clamp (N.mul off fs) N.one (N.ofInt cap)

/-- An integer position reduced by the mathematical `mod CAP` (20_memory.md R70). -/
def wrapIdx (cap : Nat) (i : Int) : Nat := (i % (cap : Int)).toNat

/-- The read at an offset of `d` samples from write index `w` (R193, R194): the stored Sample for an integer
offset, else linear interpolation between the two nearest. -/
def readAt (cap w : Nat) (m : Memory α) (d : α) : α :=
  let r := N.sub (N.ofInt w) d
  let i0 := N.floor r
  let fr := N.sub r (N.ofInt i0)
  let a := m.read N.zero (wrapIdx cap i0)
  if N.eq fr N.zero then a
  else N.add (N.mul a (N.sub N.one fr)) (N.mul (m.read N.zero (wrapIdx cap (i0 + 1))) fr)

/-- `dl_read(line, c, off)`, `off` in seconds (R194). -/
def dlRead (fs : α) (cap w : Nat) (m : Memory α) (off : α) : α := readAt N cap w m (delaySamples N fs cap off)

/-- `dl_write(line, c, v)` (R196). -/
def dlWrite [DecidableEq α] (w : Nat) (m : Memory α) (v : α) : Memory α := m.write N.zero w v

/-- `dl_advance(line)`: `w <- (w + 1) mod CAP` (R196, 20_memory.md R70). -/
def advance (cap w : Nat) : Nat := (w + 1) % cap

/-- What a line with feedback stores, `x + fb × d`: `d` the Sample just read, or what an in-loop filter made of it
(R197, R200). -/
def feedbackStore (x fb d : α) : α := N.add x (N.mul fb d)

end Sys2Proof.Machine
end

