-- ==== Sys2Proof/Machine/Lfo.lean ====
section
/-! DEFINITION. The sine LFOs, step 2 of TICK (42_lfo.md R180 to R183). -/

namespace Sys2Proof.Machine

variable {α : Type} (N : NumSys α)

/-- The wrap of a phase into `[0, 2π)` (R181). -/
def wrapPhase (p : α) : α := N.sub p (N.mul N.twoPi (N.ofInt (N.floor (N.div p N.twoPi))))

/-- The guard line of R181: a phase outside `[0, 2π)` becomes 0. -/
def guardPhase (p : α) : α := if N.lt p N.zero || N.le N.twoPi p then N.zero else p

/-- `lfo_tick(s)` for a rate in Hz (R181). -/
def lfoTick (fs rate : α) (l : Lfo α) : Lfo α :=
  let p := guardPhase N (wrapPhase N (N.add l.phase (N.mul (N.mul N.twoPi rate) (N.dt fs))))
  { phase := p, val := N.sin p }

/-- Step 2 of TICK: the three LFOs, each at its smoothed rate. -/
def lfoAll (d : Device α) (b : Block α) : Block α :=
  { b with lfo :=
    { pha := lfoTick d.num d.fs b.par.phaRate.cur b.lfo.pha
      fla := lfoTick d.num d.fs b.par.flaRate.cur b.lfo.fla
      cho := lfoTick d.num d.fs b.par.choRate.cur b.lfo.cho } }

/-- `base + depth × value` (R182). -/
def modulated (base depth : α) (l : Lfo α) : α := N.add base (N.mul depth l.val)

end Sys2Proof.Machine
end

