-- ==== Sys2Proof/Machine/Chorus.lean ====
section
/-! DEFINITION. The modulated-delay chorus (46_chorus.md R240 to R246). -/

namespace Sys2Proof.Machine

variable {α : Type} (d : Device α) (b : Block α)

/-- `off_cho = CHO_BASE + P[CHO.depth].cur × L[CHO].val`, in seconds (R242). -/
def chorusOffset : α := modulated d.num d.choBase b.par.choDepth.cur b.lfo.cho

/-- `wetpath_CHO(c, x)`: no feedback (R241 to R244). -/
def wetCho [DecidableEq α] (ch : Channel α) (x : α) : Channel α × α :=
  let y := dlRead d.num d.fs d.choCap b.widx.cho ch.dlCho (chorusOffset d b)
  ({ ch with dlCho := dlWrite d.num b.widx.cho ch.dlCho x }, y)

/-- R245. -/
def execSetpChoRate (val : Val) (s : State) : Host.Outcome State Fault Refusal :=
  .next (s.onBlock (setpSmoothed s.device .choRate val))

/-- R246. -/
def execSetpChoMix (val : Val) (s : State) : Host.Outcome State Fault Refusal := .next (s.onBlock (setpHeld s.device .choMix val))

end Sys2Proof.Machine
end

