-- ==== Sys2Proof/Machine/Biquad.lean ====
section
/-! DEFINITION. The biquad IIR stage (41_biquad.md R150 to R158) and the eleven `SETP` commands of the filter
stages (R160 to R170). -/

namespace Sys2Proof.Machine

/-! ## The difference equation (R157) -/

section
variable {α : Type} (N : NumSys α)

/-- `y = b0 × x + b1 × x1 + b2 × x2 − a1 × y1 − a2 × y2`, left to right. -/
def biquadOut (c : Coef α) (h : Hist α) (x : α) : α :=
  N.sub (N.sub (N.add (N.add (N.mul c.b0 x) (N.mul c.b1 h.x1)) (N.mul c.b2 h.x2)) (N.mul c.a1 h.y1))
    (N.mul c.a2 h.y2)

/-- `biquad(f, c, x)`: the new history and the output. -/
def biquad (c : Coef α) (h : Hist α) (x : α) : Hist α × α :=
  let y := biquadOut N c h x
  ({ x1 := x, x2 := h.x1, y1 := y, y2 := h.y1 }, y)

/-- Biquads in series with one coefficient set: the allpass stages of the phaser (44_phaser.md R213). -/
def biquadChain (c : Coef α) : List (Hist α) → α → List (Hist α) × α
  | [], x => ([], x)
  | h :: hs, x =>
    let r := biquad N c h x
    let rest := biquadChain c hs r.2
    (r.1 :: rest.1, rest.2)

end

/-! ## Commands -/

/-- R160. -/
def execSetpHpfFrequency (val : Val) (s : State) : Host.Outcome State Fault Refusal :=
  .next (s.onBlock (setpSmoothed s.device .hpfFrequency val))

/-- R161. -/
def execSetpHpfQ (val : Val) (s : State) : Host.Outcome State Fault Refusal := .next (s.onBlock (setpSmoothed s.device .hpfQ val))

/-- R162. -/
def execSetpLpfFrequency (val : Val) (s : State) : Host.Outcome State Fault Refusal :=
  .next (s.onBlock (setpSmoothed s.device .lpfFrequency val))

/-- R163. -/
def execSetpLpfQ (val : Val) (s : State) : Host.Outcome State Fault Refusal := .next (s.onBlock (setpSmoothed s.device .lpfQ val))

/-- R164. -/
def execSetpEqlFrequency (val : Val) (s : State) : Host.Outcome State Fault Refusal :=
  .next (s.onBlock (setpSmoothed s.device .eqlFrequency val))

/-- R165. -/
def execSetpEqlGain (val : Val) (s : State) : Host.Outcome State Fault Refusal :=
  .next (s.onBlock (setpSmoothed s.device .eqlGain val))

/-- R166. -/
def execSetpEqmFrequency (val : Val) (s : State) : Host.Outcome State Fault Refusal :=
  .next (s.onBlock (setpSmoothed s.device .eqmFrequency val))

/-- R167. -/
def execSetpEqmQ (val : Val) (s : State) : Host.Outcome State Fault Refusal := .next (s.onBlock (setpSmoothed s.device .eqmQ val))

/-- R168. -/
def execSetpEqmGain (val : Val) (s : State) : Host.Outcome State Fault Refusal :=
  .next (s.onBlock (setpSmoothed s.device .eqmGain val))

/-- R169. -/
def execSetpEqhFrequency (val : Val) (s : State) : Host.Outcome State Fault Refusal :=
  .next (s.onBlock (setpSmoothed s.device .eqhFrequency val))

/-- R170. -/
def execSetpEqhGain (val : Val) (s : State) : Host.Outcome State Fault Refusal :=
  .next (s.onBlock (setpSmoothed s.device .eqhGain val))

end Sys2Proof.Machine
end

