-- ==== Sys2Proof/Machine/FeedbackDelay.lean ====
section
/-! DEFINITION. The feedback delay with in-loop lowpass (47_feedback_delay.md R250 to R258). -/

namespace Sys2Proof.Machine

variable {α : Type} (d : Device α) (b : Block α)

/-- `off_dly = P[DLY.time].cur`, in seconds (R251). -/
def delayOffset : α := b.par.dlyTime.cur

/-- `wetpath_DLY(c, x)`: the wet signal is the raw delayed Sample, the filtered one feeds back (R252 to R254). -/
def wetDly [DecidableEq α] (ch : Channel α) (x : α) : Channel α × α :=
  let y := dlRead d.num d.fs d.dlyCap b.widx.dly ch.dlDly (delayOffset b)
  let f := biquad d.num b.coef.dlyLp ch.dlyLp y
  ({ ch with
      dlyLp := f.1
      dlDly := dlWrite d.num b.widx.dly ch.dlDly (feedbackStore d.num x b.par.dlyFeedback.cur f.2) }, y)

/-- R256. -/
def execSetpDlyTime (val : Val) (s : State) : Host.Outcome State Fault Refusal :=
  .next (s.onBlock (setpSmoothed s.device .dlyTime val))

/-- R257. -/
def execSetpDlyFeedback (val : Val) (s : State) : Host.Outcome State Fault Refusal :=
  .next (s.onBlock (setpSmoothed s.device .dlyFeedback val))

/-- R258. -/
def execSetpDlyMix (val : Val) (s : State) : Host.Outcome State Fault Refusal := .next (s.onBlock (setpHeld s.device .dlyMix val))

end Sys2Proof.Machine
end

