-- ==== Sys2Proof/Machine/Flanger.lean ====
section
/-! DEFINITION. The modulated-delay flanger (45_flanger.md R225 to R232). -/

namespace Sys2Proof.Machine

variable {α : Type} (d : Device α) (b : Block α)

/-- `off_fla = FL_BASE + P[FLA.depth].cur × L[FLA].val`, in seconds (R226). -/
def flangerOffset : α := modulated d.num d.flBase b.par.flaDepth.cur b.lfo.fla

/-- `wetpath_FLA(c, x)` (R226 to R228). -/
def wetFla [DecidableEq α] (ch : Channel α) (x : α) : Channel α × α :=
  let y := dlRead d.num d.fs d.flCap b.widx.fla ch.dlFla (flangerOffset d b)
  ({ ch with dlFla := dlWrite d.num b.widx.fla ch.dlFla (feedbackStore d.num x b.par.flaFeedback.cur y) }, y)

/-- R230. -/
def execSetpFlaRate (val : Val) (s : State) : Host.Outcome State Fault Refusal :=
  .next (s.onBlock (setpSmoothed s.device .flaRate val))

/-- R231. -/
def execSetpFlaFeedback (val : Val) (s : State) : Host.Outcome State Fault Refusal :=
  .next (s.onBlock (setpSmoothed s.device .flaFeedback val))

/-- R232. -/
def execSetpFlaMix (val : Val) (s : State) : Host.Outcome State Fault Refusal := .next (s.onBlock (setpHeld s.device .flaMix val))

end Sys2Proof.Machine
end

