-- ==== Sys2Proof/Machine/Phaser.lean ====
section
/-! DEFINITION. The cascaded allpass phaser (44_phaser.md R210 to R217). -/

namespace Sys2Proof.Machine

variable {α : Type} (d : Device α) (b : Block α)

/-- `f_pha = PH_BASE + P[PHA.depth].cur × L[PHA].val`, in Hz (R211). -/
def phaserFrequency : α := modulated d.num d.phBase b.par.phaDepth.cur b.lfo.pha

/-- `wetpath_PHA(c, x)` (R213). -/
def wetPha (ch : Channel α) (x : α) : Channel α × α :=
  let r := biquadChain d.num b.coef.pha ch.pha x
  ({ ch with pha := r.1 }, r.2)

/-- R215. -/
def execSetpPhaRate (val : Val) (s : State) : Host.Outcome State Fault Refusal :=
  .next (s.onBlock (setpSmoothed s.device .phaRate val))

/-- R216. -/
def execSetpPhaDepth (val : Val) (s : State) : Host.Outcome State Fault Refusal :=
  .next (s.onBlock (setpSmoothed s.device .phaDepth val))

/-- R217. -/
def execSetpPhaMix (val : Val) (s : State) : Host.Outcome State Fault Refusal := .next (s.onBlock (setpHeld s.device .phaMix val))

end Sys2Proof.Machine
end

