-- ==== Sys2Proof/Machine/Reverb.lean ====
section
/-! DEFINITION. The convolution reverb and its impulse-response synthesiser (48_reverb.md R265 to R277). -/

namespace Sys2Proof.Machine

/-! ## The impulse response (R266, R272, R275) -/

section
variable {α : Type} (N : NumSys α)

/-- The length of the impulse response of a duration: `floor(FS × dur)`, at most `IR_CAP`; none where synthesis
fails and the silent buffer is published (R266, R275). -/
def irLength (fs : α) (cap : Nat) (dur : α) : Option Nat :=
  if N.lt N.zero dur then
    let l := N.floor (N.mul fs dur)
    if l < 1 then none else some (min l.toNat cap)
  else none

/-- The envelope `(1 − n ÷ L)^e` (R266). -/
def irEnvelope (e : α) (l n : Nat) : α :=
  N.pow (N.sub N.one (N.div (N.ofInt n) (N.ofInt l))) e

/-- One channel of `gen`: draw `n` of the channel times the envelope at `n`. -/
def irChannel (e : α) (l : Nat) (u : Nat → α) : List α :=
  (List.range l).map fun n => N.mul (u n) (irEnvelope N e l n)

/-- `gen(dur, e)` (R266): the length and the two channels; the left channel takes draws `0 .. L−1`, the right
`L .. 2L−1`. A failure gives the silent buffer (R275). -/
def gen (fs e : α) (cap : Nat) (u : Nat → α) (dur : α) : Nat × List α × List α :=
  match irLength N fs cap dur with
  | none => (1, [N.zero], [N.zero])
  | some l => (l, irChannel N e l u, irChannel N e l fun n => u (l + n))

/-- How many draws `gen` takes: none for the silent buffer. -/
def drawsTaken (fs : α) (cap : Nat) (dur : α) : Nat :=
  match irLength N fs cap dur with
  | none => 0
  | some l => 2 * l

/-- The convolution sum of R268, ascending `k`, from the values of the impulse response and the history. -/
def convolve (len : Nat) (ir hist : Nat → α) : α :=
  (List.range len).foldl (fun acc k => N.add acc (N.mul (ir k) (hist k))) N.zero

end

section
variable {α : Type} (d : Device α) (b : Block α)

/-- The draw of number `n` in an IRGEN step: a draw it is given, and past their end the next of RNG, `pos` of whose values
are used up. A value outside [−1, 1] is no draw and is passed over (R272, log 13). -/
def drawAt (given : List α) (pos n : Nat) : α :=
  let us := given.filter d.num.isDraw
  match us[n]? with
  | some u => u
  | none => d.draw (pos + (n - us.length))

/-! ## The audio half (R267 to R269) -/

/-- The impulse channel audio channel `c` is convolved with (R269). -/
def impulseChannel (c : Nat) : Memory α := if d.nch = 2 ∧ c = 1 then b.liveBank.right else b.liveBank.left

/-- `wetpath_REV(c, x)`: the history store, then the convolution (R267, R268). -/
def wetRev [DecidableEq α] (c : Nat) (ch : Channel α) (x : α) : Channel α × α :=
  let hist := ch.hist.write d.num.zero b.hw x
  ({ ch with hist := hist },
    convolve d.num b.irLen (fun k => (impulseChannel d b c).read d.num.zero k)
      (fun k => hist.read d.num.zero (wrapIdx d.irCap ((b.hw : Int) - (k : Int)))))

/-! ## The synthesis half: agent IRGEN (R273) -/

/-- The completion and publication of the job `dur` with the draws `u`. -/
def publish [DecidableEq α] (dur : α) (u : Nat → α) : Block α :=
  let g := gen d.num d.fs d.revDecay d.irCap u dur
  let shadow := b.shadowBank
  { b.setShadow
      { left := shadow.left.writeAll d.num.zero 0 g.2.1
        right := shadow.right.writeAll d.num.zero 0 g.2.2 } with
    irSel := !b.irSel, irLen := g.1, irVer := b.irVer + 1, job := none }

/-- The IRGEN step: enabled exactly when a job is in flight (R273); a turn of the agent without a job is no step, and the
block stays (log 12). -/
def irgenStep [DecidableEq α] (u : Nat → α) : Block α :=
  match b.job with
  | none => b
  | some dur => publish d b dur u

/-- How many values of RNG an IRGEN step uses up: what the job takes past the end of the draws given. -/
def drawsUsed (given : List α) : Nat :=
  match b.job with
  | none => 0
  | some dur => drawsTaken d.num d.fs d.irCap dur - (given.filter d.num.isDraw).length

end

/-- R273; the draws given are read as values of the carrier (log 4, 7). -/
def execIrgen (draws : List Scalar) (s : State) : Host.Outcome State Fault Refusal :=
  let us := draws.map s.cfg.num.read
  .next { s with
    toBlock := irgenStep s.device s.toBlock (drawAt s.device us s.rngPos)
    rngPos := s.rngPos + drawsUsed s.device s.toBlock us }

/-! ## Commands -/

/-- The duration of a normalized time, `v × 3 + 0.1` seconds (R270). -/
def reverbDuration {α : Type} (N : NumSys α) (v : α) : α := N.add (N.mul v (N.ofDec 3)) (N.ofDec (1 / 10))

/-- `SETP.REV.time` (R270, R276): the held entry, then the job, which replaces one in flight. -/
def setpTime {α : Type} (d : Device α) (val : Val) (b : Block α) : Block α :=
  match HParam.operand d .revTime val with
  | none => b.reject
  | some v => (b.setHeld .revTime v).setJob (some (reverbDuration d.num v))

/-- R270, R276. -/
def execSetpRevTime (val : Val) (s : State) : Host.Outcome State Fault Refusal :=
  .next (s.onBlock (setpTime s.device val))

/-- R271. -/
def execSetpRevMix (val : Val) (s : State) : Host.Outcome State Fault Refusal :=
  .next (s.onBlock (setpHeld s.device .revMix val))

end Sys2Proof.Machine
end

