-- ==== Sys2Proof/Machine/Smoother.lean ====
section
/-! DEFINITION. The exponential parameter smoother, step 1 of TICK (40_tick_smoother_mix.md R121, R122). -/

namespace Sys2Proof.Machine

variable {α : Type}

/-- `smooth(t, c)` for the time constant `tau` at sample rate `fs` (R122). -/
def smooth (N : NumSys α) (fs tau t c : α) : α :=
  if N.le tau N.zero then t else N.add t (N.mul (N.sub c t) (N.ks fs tau))

/-- `smooth` with a device's sample rate and time constant. -/
def smoothed (d : Device α) (t c : α) : α := smooth d.num d.fs d.tau t c

/-- `P[s.p].cur <- smooth(P[s.p].tgt, P[s.p].cur)`. -/
def Smoothed.step (d : Device α) (e : Smoothed α) : Smoothed α := { e with cur := smoothed d e.tgt e.cur }

/-- The gains of one stage move toward their targets (R121, R126). -/
def MixState.step (d : Device α) (par : Params α) (st : Stage) (m : MixState α) : MixState α :=
  { m with
    wet := smoothed d (gainTargets d.num par st m).1 m.wet
    dry := smoothed d (gainTargets d.num par st m).2 m.dry }

/-- Step 1 of TICK: the forty applications of `smooth` (R121). -/
def smoothAll (d : Device α) (b : Block α) : Block α :=
  { b with
    par := b.par.mapSmoothed (Smoothed.step d)
    mix := b.mix.mapStages (MixState.step d b.par) }

end Sys2Proof.Machine
end

