-- ==== Sys2Proof/Machine/Tick.lean ====
section
/-! DEFINITION. TICK, the step of agent AUDIO (40_tick_smoother_mix.md R120, R127; 41_biquad.md R156, R158). -/

namespace Sys2Proof.Machine

section
variable {α : Type} (d : Device α) (b : Block α)

/-! ## Steps 3 and 4: modulated controls and coefficients -/

/-- Step 4: every coefficient set from the current parameters (R156). The modulated frequency of step 3 is
`phaserFrequency`; the three offsets of step 3 depend on nothing that steps 4 and 5 write before using them, and are
formed where they are used (45_flanger.md R226, 46_chorus.md R242, 47_feedback_delay.md R251). -/
def coefAll : Block α :=
  { b with coef :=
    { hpf := d.coef (.highpass b.par.hpfQ.cur) b.par.hpfFrequency.cur
      lpf := d.coef (.lowpass b.par.lpfQ.cur) b.par.lpfFrequency.cur
      eql := d.coef (.lowshelf b.par.eqlGain.cur) b.par.eqlFrequency.cur
      eqm := d.coef (.peaking b.par.eqmQ.cur b.par.eqmGain.cur) b.par.eqmFrequency.cur
      eqh := d.coef (.highshelf b.par.eqhGain.cur) b.par.eqhFrequency.cur
      pha := d.coef (.allpass d.phQ) (phaserFrequency d b)
      dlyLp := d.coef (.lowpass d.dlyLpQ) d.dlyLpF } }

/-! ## Step 5: the signal path -/

/-- `x <- M[s].dry × x + M[s].wet × w` (R127). -/
def mixOut (N : NumSys α) (wet dry x w : α) : α := N.add (N.mul dry x) (N.mul wet w)

/-- The chain order (R127, 00_scope.md R3). -/
def chainOrder : List Stage := [.hpf, .lpf, .eql, .eqm, .eqh, .pha, .fla, .cho, .dly, .rev]

variable [DecidableEq α]

/-- `wetpath_s(c, x)` of every chain stage (R127, R158). -/
def wetPath (c : Nat) (st : Stage) (ch : Channel α) (x : α) : Channel α × α :=
  match st with
  | .hpf => let r := biquad d.num b.coef.hpf ch.hpf x; ({ ch with hpf := r.1 }, r.2)
  | .lpf => let r := biquad d.num b.coef.lpf ch.lpf x; ({ ch with lpf := r.1 }, r.2)
  | .eql => let r := biquad d.num b.coef.eql ch.eql x; ({ ch with eql := r.1 }, r.2)
  | .eqm => let r := biquad d.num b.coef.eqm ch.eqm x; ({ ch with eqm := r.1 }, r.2)
  | .eqh => let r := biquad d.num b.coef.eqh ch.eqh x; ({ ch with eqh := r.1 }, r.2)
  | .pha => wetPha d b ch x
  | .fla => wetFla d b ch x
  | .cho => wetCho d b ch x
  | .dly => wetDly d b ch x
  | .rev => wetRev d b c ch x

/-- One stage of the chain on one channel: the wet path, then the mix. -/
def stageStep (c : Nat) (acc : Channel α × α) (st : Stage) : Channel α × α :=
  let r := wetPath d b c st acc.1 acc.2
  (r.1, mixOut d.num (b.mix.of st).wet (b.mix.of st).dry acc.2 r.2)

/-- The chain on channel `c` for the input Sample `x`: the channel afterwards and the output Sample. -/
def runChain (c : Nat) (ch : Channel α) (x : α) : Channel α × α := chainOrder.foldl (stageStep d b c) (ch, x)

omit [DecidableEq α] in
/-- The write indices advance once, after all channels (R127, 43_delayline.md R196, 48_reverb.md R267). -/
def advanceAll : Block α :=
  { b with
    widx :=
      { fla := advance d.flCap b.widx.fla
        cho := advance d.choCap b.widx.cho
        dly := advance d.dlyCap b.widx.dly }
    hw := advance d.irCap b.hw }

/-- Every channel of the device through the chain (R127, R141): channel 1 only where `NCH = 2`; with one channel the
second lane puts out 0 (log 15). -/
def runChannels (input : Frame α) : Block α × Frame α :=
  let r0 := runChain d b 0 b.ch0 input.c0
  let r1 := if d.nch = 2 then runChain d b 1 b.ch1 input.c1 else (b.ch1, d.num.zero)
  ({ b with ch0 := r0.1, ch1 := r1.1 }, { c0 := r0.2, c1 := r1.2 })

/-! ## The tick -/

/-- Steps 1 to 4 of TICK: smoothed, modulated, coefficients up to date (R120). -/
def beforeChain : Block α := coefAll d (lfoAll d (smoothAll d b))

/-- TICK on the block: the six steps in their order (R120); the output Frame beside the block. The envelope value put out is
`env.amp` of the block (49_adsr.md R296). -/
def tickBlock (input : Frame α) : Block α × Frame α :=
  let r := runChannels d (beforeChain d b) input
  (envStep d (advanceAll d r.1), r.2)

/-- `processBlock` with block size `B` (00_scope.md R6): `B` consecutive TICKs; the output Frames and the block. -/
def blockRun : List (Frame α) → Block α → List (Frame α) × Block α
  | [], b => ([], b)
  | f :: fs, b =>
    let t := tickBlock d b f
    let r := blockRun fs t.1
    (t.2 :: r.1, r.2)

end

/-- TICK on the machine: the input Samples are read as values of the carrier (log 4, 7); the output Frame goes to `out`, the
envelope value to `envOut` (log 14). -/
def tick (input : Frame Scalar) (s : State) : State :=
  let r := tickBlock s.device s.toBlock (input.map s.cfg.num.read)
  { s with toBlock := r.1, out := r.2, envOut := r.1.env.amp }

/-- R120. -/
def execTick (input : Frame Scalar) (s : State) : Host.Outcome State Fault Refusal := .next (tick input s)

/-- `processBlock` on the machine: the output Frames and the state. -/
def processBlock : List (Frame Scalar) → State → List (Frame Scalar) × State
  | [], s => ([], s)
  | f :: fs, s =>
    let t := tick f s
    let r := processBlock fs t
    (t.out :: r.1, r.2)

end Sys2Proof.Machine
end

