-- ==== Sys2Proof/Machine/Device.lean ====
section
/-! DEFINITION. The step relation of the block over any carrier (00_scope.md R5 to R7, R10): what one step of one agent does
to a `Device`, its state a `Block`, and what the port of that agent puts out. The machine of the host's interface is this
at the plain carrier (Machine/Dispatch.lean; log 26). -/

namespace Sys2Proof.Machine

/-- One step the outside asks of a device: a command word of CTRL, a TICK of AUDIO with its input Frame, an IRGEN step with
draws it is given and the place reached in RNG, a READ of VIS, a reset. -/
inductive Act (α : Type) where
  | word (w : Word)
  | tick (input : Frame α)
  | irgen (given : List α) (pos : Nat)
  | read (addr : Addr)
  | reset

/-- What a step puts out: nothing, the output Frame and the envelope value of a TICK, the word of a READ. -/
inductive Output (α : Type) where
  | nothing
  | frame (out : Frame α) (env : α)
  | data (w : Val)

section
variable {α : Type} (d : Device α)

/-- The meaning of the 41 commands on a block (30_encoding.md R100). The last four constructors are no commands: no word
decodes to one (R95), and they are steps of their own. -/
def command (b : Block α) : Instr → Block α
  | .nop => b
  | .setpHpfFrequency val => setpSmoothed d .hpfFrequency val b
  | .setpHpfQ val => setpSmoothed d .hpfQ val b
  | .setpLpfFrequency val => setpSmoothed d .lpfFrequency val b
  | .setpLpfQ val => setpSmoothed d .lpfQ val b
  | .setpEqlFrequency val => setpSmoothed d .eqlFrequency val b
  | .setpEqlGain val => setpSmoothed d .eqlGain val b
  | .setpEqmFrequency val => setpSmoothed d .eqmFrequency val b
  | .setpEqmQ val => setpSmoothed d .eqmQ val b
  | .setpEqmGain val => setpSmoothed d .eqmGain val b
  | .setpEqhFrequency val => setpSmoothed d .eqhFrequency val b
  | .setpEqhGain val => setpSmoothed d .eqhGain val b
  | .setpPhaRate val => setpSmoothed d .phaRate val b
  | .setpPhaDepth val => setpSmoothed d .phaDepth val b
  | .setpPhaMix val => setpHeld d .phaMix val b
  | .setpFlaRate val => setpSmoothed d .flaRate val b
  | .setpFlaFeedback val => setpSmoothed d .flaFeedback val b
  | .setpFlaMix val => setpHeld d .flaMix val b
  | .setpChoRate val => setpSmoothed d .choRate val b
  | .setpChoMix val => setpHeld d .choMix val b
  | .setpDlyTime val => setpSmoothed d .dlyTime val b
  | .setpDlyFeedback val => setpSmoothed d .dlyFeedback val b
  | .setpDlyMix val => setpHeld d .dlyMix val b
  | .setpRevTime val => setpTime d val b
  | .setpRevMix val => setpHeld d .revMix val b
  | .setpEnvAttack val => setpHeld d .envAttack val b
  | .setpEnvDecay val => setpHeld d .envDecay val b
  | .setpEnvSustain val => setpHeld d .envSustain val b
  | .setpEnvRelease val => setpHeld d .envRelease val b
  | .setaHpf a => b.setActive .hpf a
  | .setaLpf a => b.setActive .lpf a
  | .setaEql a => b.setActive .eql a
  | .setaEqm a => b.setActive .eqm a
  | .setaEqh a => b.setActive .eqh a
  | .setaPha a => b.setActive .pha a
  | .setaFla a => b.setActive .fla a
  | .setaCho a => b.setActive .cho a
  | .setaDly a => b.setActive .dly a
  | .setaRev a => b.setActive .rev a
  | .trig => trigger d b
  | .rel => release d b
  | .tick _ => b
  | .read _ => b
  | .irgen _ => b
  | .reset => b

/-- A command word presented to a block: executed whole, or rejected (R95 to R97). -/
def commandWord (w : Word) (b : Block α) : Block α :=
  match decode w with
  | .ok i => command d b i
  | .error _ => b.reject

/-- One step: the block afterwards and what is put out, or ConfigurationError and no block (60_exceptions.md R321). -/
def deviceStep [DecidableEq α] (a : Act α) (b : Block α) : Except Cause (Block α × Output α) :=
  match a with
  | .word w => .ok (commandWord d w b, .nothing)
  | .tick input =>
    let r := tickBlock d b input
    .ok (r.1, .frame r.2 r.1.env.amp)
  | .irgen given pos => .ok (irgenStep d b (drawAt d given pos), .nothing)
  | .read addr => .ok (b, .data (readPort d.num b addr))
  | .reset =>
    match construct d with
    | .ok t => .ok (t, .nothing)
    | .error c => .error c

end

end Sys2Proof.Machine
end

