-- ==== Sys2Proof/Machine/Dispatch.lean ====
section
/-! DEFINITION. The meaning of every instruction, one arm a constructor. -/

namespace Sys2Proof.Machine

def exec (i : Instr) (s : State) : Host.Outcome State Fault Refusal :=
  match i with
  | .nop => Sys2Proof.Machine.execNop s
  | .setpHpfFrequency val => Sys2Proof.Machine.execSetpHpfFrequency val s
  | .setpHpfQ val => Sys2Proof.Machine.execSetpHpfQ val s
  | .setpLpfFrequency val => Sys2Proof.Machine.execSetpLpfFrequency val s
  | .setpLpfQ val => Sys2Proof.Machine.execSetpLpfQ val s
  | .setpEqlFrequency val => Sys2Proof.Machine.execSetpEqlFrequency val s
  | .setpEqlGain val => Sys2Proof.Machine.execSetpEqlGain val s
  | .setpEqmFrequency val => Sys2Proof.Machine.execSetpEqmFrequency val s
  | .setpEqmQ val => Sys2Proof.Machine.execSetpEqmQ val s
  | .setpEqmGain val => Sys2Proof.Machine.execSetpEqmGain val s
  | .setpEqhFrequency val => Sys2Proof.Machine.execSetpEqhFrequency val s
  | .setpEqhGain val => Sys2Proof.Machine.execSetpEqhGain val s
  | .setpPhaRate val => Sys2Proof.Machine.execSetpPhaRate val s
  | .setpPhaDepth val => Sys2Proof.Machine.execSetpPhaDepth val s
  | .setpPhaMix val => Sys2Proof.Machine.execSetpPhaMix val s
  | .setpFlaRate val => Sys2Proof.Machine.execSetpFlaRate val s
  | .setpFlaFeedback val => Sys2Proof.Machine.execSetpFlaFeedback val s
  | .setpFlaMix val => Sys2Proof.Machine.execSetpFlaMix val s
  | .setpChoRate val => Sys2Proof.Machine.execSetpChoRate val s
  | .setpChoMix val => Sys2Proof.Machine.execSetpChoMix val s
  | .setpDlyTime val => Sys2Proof.Machine.execSetpDlyTime val s
  | .setpDlyFeedback val => Sys2Proof.Machine.execSetpDlyFeedback val s
  | .setpDlyMix val => Sys2Proof.Machine.execSetpDlyMix val s
  | .setpRevTime val => Sys2Proof.Machine.execSetpRevTime val s
  | .setpRevMix val => Sys2Proof.Machine.execSetpRevMix val s
  | .setpEnvAttack val => Sys2Proof.Machine.execSetpEnvAttack val s
  | .setpEnvDecay val => Sys2Proof.Machine.execSetpEnvDecay val s
  | .setpEnvSustain val => Sys2Proof.Machine.execSetpEnvSustain val s
  | .setpEnvRelease val => Sys2Proof.Machine.execSetpEnvRelease val s
  | .setaHpf a => Sys2Proof.Machine.execSetaHpf a s
  | .setaLpf a => Sys2Proof.Machine.execSetaLpf a s
  | .setaEql a => Sys2Proof.Machine.execSetaEql a s
  | .setaEqm a => Sys2Proof.Machine.execSetaEqm a s
  | .setaEqh a => Sys2Proof.Machine.execSetaEqh a s
  | .setaPha a => Sys2Proof.Machine.execSetaPha a s
  | .setaFla a => Sys2Proof.Machine.execSetaFla a s
  | .setaCho a => Sys2Proof.Machine.execSetaCho a s
  | .setaDly a => Sys2Proof.Machine.execSetaDly a s
  | .setaRev a => Sys2Proof.Machine.execSetaRev a s
  | .trig => Sys2Proof.Machine.execTrig s
  | .rel => Sys2Proof.Machine.execRel s
  | .tick input => Sys2Proof.Machine.execTick input s
  | .read addr => Sys2Proof.Machine.execRead addr s
  | .irgen draws => Sys2Proof.Machine.execIrgen draws s
  | .reset => Sys2Proof.Machine.execReset s

end Sys2Proof.Machine
end

