-- ==== Sys2Proof/Machine/Agents.lean ====
section
/-! DEFINITION. One step of one agent (00_scope.md R5 to R7; 30_encoding.md R96, R97). -/

namespace Sys2Proof.Machine

/-- One entry of `inbox`, executed whole: a command word of CTRL is decoded and executed, or rejected (R95 to R97);
TICK, IRGEN, READ and reset are their own instructions. -/
def runEvent (e : Event) (s : State) : Host.Outcome State Fault Refusal :=
  match e with
  | .word w =>
    match decode w with
    | .ok i => exec i s
    | .error _ => .next s.reject
  | .tick input => exec (.tick input) s
  | .irgen draws => exec (.irgen draws) s
  | .read addr => exec (.read addr) s
  | .reset => exec .reset s

/-- Takes the next entry of `inbox` and runs it; with none, no agent takes a step and the state stays (60_exceptions.md
R323, R337; log 11). -/
def runNext (s : State) : Host.Outcome State Fault Refusal :=
  match s.inbox with
  | [] => .next s
  | e :: rest => runEvent e { s with inbox := rest }

/-- What an entry of `inbox` asks of the device, its numbers read as values of the carrier. -/
def actOf (s : State) : Event → Act Scalar
  | .word w => .word w
  | .tick input => .tick (input.map s.cfg.num.read)
  | .irgen draws => .irgen (draws.map s.cfg.num.read) s.rngPos
  | .read addr => .read addr
  | .reset => .reset

/-- A command word at the head of `inbox` (log 10). -/
def pushWord (s : State) (w : Word) : State := { s with inbox := .word w :: s.inbox }

end Sys2Proof.Machine
end

