-- ==== Sys2Proof/Machine/Step.lean ====
section
/-! DEFINITION. The step of the machine, and how the host places a command word. -/

namespace Sys2Proof.Machine

/-- One step of one agent, the next one of `inbox` (00_scope.md R5, log 10). -/
def step (s : State) : Host.Outcome State Fault Refusal := runNext s

/-- `s` with the word `w`, numbered as spec/opcode_table.json numbers it, as the command the next step takes. A word
has 64 bits, so bits above 63 do not exist (30_encoding.md R90); `nbits` is 64 for every encoded row. -/
def State.withFetchWord (s : State) (_nbits w : Nat) : State := pushWord s (BitVec.ofNat 64 w)

end Sys2Proof.Machine
end

