-- ==== Sys2Proof/Machine/NumReal.lean ====
section
/-! DEFINITION. The reference number system `NUM_REAL` over the real numbers (00_scope.md R11): a `Device ℝ` with this
record is the block in exact real arithmetic, and its steps are `deviceStep`. -/

namespace Sys2Proof

/-- A real rounded to an integer, to nearest, ties to even. -/
noncomputable def roundEvenReal (r : ℝ) : Int :=
  if r - ⌊r⌋ < 1 / 2 then ⌊r⌋ else if 1 / 2 < r - ⌊r⌋ then ⌊r⌋ + 1 else if ⌊r⌋ % 2 = 0 then ⌊r⌋ else ⌊r⌋ + 1

/-- Bits 30:0 of the binary32 number nearest to a non-negative real (R11, log 8). -/
noncomputable def nearestMagReal (a : ℝ) : Nat :=
  if a = 0 then 0
  else magBits (lastPlace (Int.log 2 a)) (roundEvenReal (a / (pow2 (lastPlace (Int.log 2 a)) : ℝ)))

/-- `NUM_REAL` (R11): the carrier is the real numbers, every function is the exact mathematical one and nothing is a
NaN. DESIGN CHOICE (log 6): where the mathematical function has no real value and the spec gives none, the value is the
one Mathlib's total function has: a quotient by zero is 0, the square root of a negative number is 0, `pow 0 0` is 1, 0 to
a negative power is 0, and a negative base has the value of `Real.rpow`, `exp(log |b| × e) ×
cos(e × π)`; and `dec32` of a pattern that is not finite, which no rule asks for (log 7), is the number its fields would
spell. No statement rests on one of them. PRESUMED (log 8): `enc32` at ties, beyond the greatest finite number and of a
negative number that rounds to zero. -/
noncomputable def numReal : NumSys ℝ where
  add a b := a + b
  sub a b := a - b
  mul a b := a * b
  div a b := a / b
  neg a := -a
  exp := Real.exp
  sin := Real.sin
  cos := Real.cos
  sqrt := Real.sqrt
  pow b e := b ^ e
  floor a := ⌊a⌋
  ofInt k := (k : ℝ)
  ofDec q := (q : ℝ)
  twoPi := 2 * Real.pi
  sqrt2 := Real.sqrt 2
  isNaN _ := false
  lt a b := @decide (a < b) (Classical.propDecidable _)
  le a b := @decide (a ≤ b) (Classical.propDecidable _)
  dec32 p := (patternRat p : ℝ)
  enc32 a := @ite _ (a < 0) (Classical.propDecidable _) (signed true (nearestMagReal (-a))) (signed false (nearestMagReal a))

end Sys2Proof
end

