-- ==== Sys2Proof/Safety.lean ====
section
/-! DEFINITION. What counts as a safe state and a fair schedule, and the terms the claims are written in. -/

namespace Sys2Proof.Machine

section
variable {α : Type}

/-! ## Exact number systems (00_scope.md R11, R13) -/

/-- `N` is exact under the reading `r` of its carrier as real numbers: sums, differences, products, quotients by anything but
zero, negations, floors, integers, literals and comparisons are the mathematical ones ("In `NUM_REAL` all field laws hold",
R13). `NUM_REAL` is so over the reals, and on the rationals. -/
structure Exact (N : NumSys α) (r : α → ℝ) : Prop where
  add : ∀ a b, r (N.add a b) = r a + r b
  sub : ∀ a b, r (N.sub a b) = r a - r b
  mul : ∀ a b, r (N.mul a b) = r a * r b
  div : ∀ a b, r b ≠ 0 → r (N.div a b) = r a / r b
  neg : ∀ a, r (N.neg a) = -r a
  floor : ∀ a, N.floor a = ⌊r a⌋
  ofInt : ∀ k, r (N.ofInt k) = k
  ofDec : ∀ q, r (N.ofDec q) = q
  isNaN : ∀ a, N.isNaN a = false
  lt : ∀ a b, N.lt a b = true ↔ r a < r b
  le : ∀ a b, N.le a b = true ↔ r a ≤ r b

/-- The real number a carrier value stands for, of an exact number system on plain data. -/
noncomputable def plain (x : Scalar) : ℝ := (x.toRat : ℝ)

/-- `N` computes with the integers from `−cap` to `cap` exactly: the property of `NUM` a claim on integer offsets names (R13,
43_delayline.md R194). -/
structure IntegersExact (N : NumSys α) (cap : Nat) : Prop where
  one : N.one = N.ofInt 1
  sub : ∀ a b : Nat, a ≤ cap → b ≤ cap → N.sub (N.ofInt a) (N.ofInt b) = N.ofInt ((a : Int) - (b : Int))
  floor : ∀ k : Int, -(cap : Int) ≤ k → k ≤ cap → N.floor (N.ofInt k) = k
  lt : ∀ a b : Nat, a ≤ cap → b ≤ cap → N.lt (N.ofInt a) (N.ofInt b) = decide (a < b)
  subSelf : ∀ k : Int, -(cap : Int) ≤ k → k ≤ cap →
    N.le (N.sub (N.ofInt k) (N.ofInt k)) N.zero = true ∧ N.le N.zero (N.sub (N.ofInt k) (N.ofInt k)) = true

/-! ## The structural invariant -/

/-- Every capacity has at least one location: what the checks 5 to 8 of 60_exceptions.md R321 leave at the least. -/
structure CapsPositive (c : Settings α) : Prop where
  fla : 0 < c.flCap
  cho : 0 < c.choCap
  dly : 0 < c.dlyCap
  ir : 0 < c.irCap

variable [DecidableEq α]

/-- One channel's state has the shape `CFG` gives it: `PH_N` allpass histories (10_state.md R25), every memory in
canonical form within its capacity (20_memory.md R61). -/
structure ChannelWf (d : Device α) (ch : Channel α) : Prop where
  pha : ch.pha.length = d.phN
  dlFla : Memory.wf d.num.zero d.flCap ch.dlFla = true
  dlCho : Memory.wf d.num.zero d.choCap ch.dlCho = true
  dlDly : Memory.wf d.num.zero d.dlyCap ch.dlDly = true
  hist : Memory.wf d.num.zero d.irCap ch.hist = true

/-- Both impulse channels of a bank in canonical form. -/
structure BankWf (d : Device α) (k : Bank α) : Prop where
  left : Memory.wf d.num.zero d.irCap k.left = true
  right : Memory.wf d.num.zero d.irCap k.right = true

/-- The ranges 10_state.md R27 to R29 and 20_memory.md R61 give the registers and memories. -/
structure Block.Inv (d : Device α) (b : Block α) : Prop where
  caps : CapsPositive d.toSettings
  wFla : b.widx.fla < d.flCap
  wCho : b.widx.cho < d.choCap
  wDly : b.widx.dly < d.dlyCap
  hw : b.hw < d.irCap
  irLenPos : 1 ≤ b.irLen
  irLenCap : b.irLen ≤ d.irCap
  envK : b.env.k < b.env.n
  ch0 : ChannelWf d b.ch0
  ch1 : ChannelWf d b.ch1
  bank0 : BankWf d b.bank0
  bank1 : BankWf d b.bank1

/-- The same of the machine. -/
abbrev State.Inv (s : State) : Prop := s.toBlock.Inv s.device

/-! ## The numbers of a state (00_scope.md R10) -/

/-- Every number of the memory satisfies `P`. -/
def Memory.All (P : α → Prop) (m : Memory α) : Prop := ∀ e ∈ m, P e.2

/-- Every register of a biquad history. -/
def Hist.All (P : α → Prop) (h : Hist α) : Prop := P h.x1 ∧ P h.x2 ∧ P h.y1 ∧ P h.y2

/-- Every coefficient of a biquad. -/
def Coef.All (P : α → Prop) (c : Coef α) : Prop := P c.b0 ∧ P c.b1 ∧ P c.b2 ∧ P c.a1 ∧ P c.a2

/-- Every number a channel keeps. -/
structure Channel.All (P : α → Prop) (ch : Channel α) : Prop where
  hist : ∀ h ∈ [ch.hpf, ch.lpf, ch.eql, ch.eqm, ch.eqh, ch.dlyLp] ++ ch.pha, h.All P
  mems : ∀ m ∈ [ch.dlFla, ch.dlCho, ch.dlDly, ch.hist], Memory.All P m

/-- Every number of a block. -/
structure Block.All (P : α → Prop) (b : Block α) : Prop where
  smoothed : ∀ p, P (b.par.s p).tgt ∧ P (b.par.s p).cur
  held : ∀ p, P (b.par.h p)
  mix : ∀ st, P (b.mix.of st).wet ∧ P (b.mix.of st).dry
  coef : ∀ c ∈ [b.coef.hpf, b.coef.lpf, b.coef.eql, b.coef.eqm, b.coef.eqh, b.coef.pha, b.coef.dlyLp], c.All P
  lfo : ∀ l ∈ [b.lfo.pha, b.lfo.fla, b.lfo.cho], P l.phase ∧ P l.val
  job : ∀ dur ∈ b.job, P dur
  env : P b.env.start ∧ P b.env.amp
  ch0 : b.ch0.All P
  ch1 : b.ch1.All P
  banks : ∀ m ∈ [b.bank0.left, b.bank0.right, b.bank1.left, b.bank1.right], Memory.All P m

/-- Every number of the machine's state and of its output ports is a value of its own carrier: a rational in an exact number
system, a binary32 pattern in `NUM_F32` (log 4). -/
structure State.InCarrier (s : State) : Prop where
  block : s.toBlock.All fun x => s.cfg.num.read x = x
  out : s.cfg.num.read s.out.c0 = s.out.c0 ∧ s.cfg.num.read s.out.c1 = s.out.c1
  envOut : s.cfg.num.read s.envOut = s.envOut

/-! ## Legal parameters (30_encoding.md R99) -/

omit [DecidableEq α]

/-- A value lies in the closed interval of its entry. -/
def InDomain (N : NumSys α) (lo hi v : α) : Prop := N.le lo v = true ∧ N.le v hi = true

/-- Every target, every current value and every held value lies in its domain. -/
structure Block.ParamsLegal (d : Device α) (b : Block α) : Prop where
  tgt : ∀ p : SParam, InDomain d.num (p.lo d) (p.hi d) (b.par.s p).tgt
  cur : ∀ p : SParam, InDomain d.num (p.lo d) (p.hi d) (b.par.s p).cur
  held : ∀ p : HParam, InDomain d.num (p.lo d) (p.hi d) (b.par.h p)

abbrev State.ParamsLegal (s : State) : Prop := s.toBlock.ParamsLegal s.device

/-- Smoothing is off, or its factor lies in [0, 1]: the condition R99 names for the current values. -/
def SmoothingMonotone (d : Device α) (r : α → ℝ) : Prop :=
  d.num.le d.tau d.num.zero = true ∨ 0 ≤ r (d.num.ks d.fs d.tau) ∧ r (d.num.ks d.fs d.tau) ≤ 1

/-! ## The envelope (49_adsr.md R296) -/

/-- The amplitude, the start of the ramp and the sustain level lie in [0, 1]. -/
structure Block.EnvUnit (N : NumSys α) (b : Block α) : Prop where
  amp : InDomain N N.zero N.one b.env.amp
  start : InDomain N N.zero N.one b.env.start
  sustain : InDomain N N.zero N.one b.par.envSustain

abbrev State.EnvUnit (s : State) : Prop := s.toBlock.EnvUnit s.sys

/-! ## Bypass (40_tick_smoother_mix.md R128) -/

/-- Every chain stage is inactive with settled gains, wet 0 and dry 1, under the reading `r` of the carrier. -/
def Block.Bypassed (r : α → ℝ) (b : Block α) : Prop :=
  ∀ st : Stage, (b.mix.of st).active = false ∧ r (b.mix.of st).wet = 0 ∧ r (b.mix.of st).dry = 1

/-- The same of the machine. -/
abbrev State.Bypassed (s : State) : Prop := s.toBlock.Bypassed plain

end

/-- A Sample of `NUM_REAL` on plain data: a rational. -/
def IsReal (x : Scalar) : Prop := ∃ q : Rat, x = .fin q

/-! ## Operands of a command (30_encoding.md R98) -/

/-- The operand `v` of a `SETP` into the domain `[lo, hi]`: the bound for an infinity, `dec32(val)` for a finite
pattern, none for a NaN. -/
inductive IsOperand {α : Type} (N : NumSys α) (lo hi : α) (val : Val) : α → Prop where
  | posInf (h : val = 0x7F800000) : IsOperand N lo hi val hi
  | negInf (h : val = 0xFF800000) : IsOperand N lo hi val lo
  | finite (h : val.extractLsb' 23 8 ≠ 0xFF) : IsOperand N lo hi val (N.dec32 val)

/-- A NaN pattern, by its fields. -/
def IsNaN (val : Val) : Prop := val.extractLsb' 23 8 = 0xFF ∧ val.extractLsb' 0 23 ≠ 0

/-- The command `mk`, whose word is `top` followed by the operand, writes the clamped operand to the target of `p`
and changes nothing else. -/
def WritesTarget (mk : Val → Instr) (top : BitVec 32) (p : SParam) (lo hi : Device Scalar → Scalar) : Prop :=
  ∀ (val : Val) (s : State) (v : Scalar), IsOperand s.sys (lo s.device) (hi s.device) val v →
    decode (top ++ val) = .ok (mk val) ∧
    ∃ t, exec (mk val) s = .next t ∧ t = { s with par := t.par } ∧
      (t.par.s p).tgt = s.sys.clamp v (lo s.device) (hi s.device) ∧ (∀ q, (t.par.s q).cur = (s.par.s q).cur) ∧
      (∀ q, q ≠ p → (t.par.s q).tgt = (s.par.s q).tgt) ∧ ∀ q, t.par.h q = s.par.h q

/-- The same for a held entry `p`. -/
def WritesHeld (mk : Val → Instr) (top : BitVec 32) (p : HParam) (lo hi : Device Scalar → Scalar) : Prop :=
  ∀ (val : Val) (s : State) (v : Scalar), IsOperand s.sys (lo s.device) (hi s.device) val v →
    decode (top ++ val) = .ok (mk val) ∧
    ∃ t, exec (mk val) s = .next t ∧ t = { s with par := t.par } ∧
      t.par.h p = s.sys.clamp v (lo s.device) (hi s.device) ∧ (∀ q, q ≠ p → t.par.h q = s.par.h q) ∧
      ∀ q, t.par.s q = s.par.s q

/-- A mix command: a held entry over [0, 1] whose value moves the gain targets of its stage, and no other stage's, at
once (44_phaser.md R217). -/
def WritesMix (mk : Val → Instr) (top : BitVec 32) (p : HParam) (st : Stage) : Prop :=
  WritesHeld mk top p (·.num.zero) (·.num.one) ∧
  ∀ (val : Val) (s : State) (v : Scalar), IsOperand s.sys s.sys.zero s.sys.one val v →
    ∃ t, exec (mk val) s = .next t ∧
      t.wetTgt st = (if (s.mix.of st).active then s.sys.clamp v s.sys.zero s.sys.one else s.sys.zero) ∧
      t.dryTgt st = (if (s.mix.of st).active
        then s.sys.sub s.sys.one (s.sys.div (s.sys.clamp v s.sys.zero s.sys.one) s.sys.two) else s.sys.one) ∧
      ∀ q, q ≠ st → t.wetTgt q = s.wetTgt q ∧ t.dryTgt q = s.dryTgt q

/-- `SETA` of the stage `st`, whose word is `top` followed by the flag: the flag is written, nothing else; the gain
targets become `wet` and `dry` (40_tick_smoother_mix.md R126). -/
def WritesActive (mk : Bool → Instr) (top : BitVec 32) (st : Stage) (wet dry : Bool → State → Scalar) : Prop :=
  ∀ (a : Bool) (s : State),
    decode (top ++ (if a then 1#32 else 0#32)) = .ok (mk a) ∧
    ∃ t, exec (mk a) s = .next t ∧ t = { s with mix := t.mix } ∧
      t.mix.of st = { s.mix.of st with active := a } ∧ (∀ q, q ≠ st → t.mix.of q = s.mix.of q) ∧
      t.wetTgt st = wet a s ∧ t.dryTgt st = dry a s

/-- The gain targets of a filter stage. -/
def filterWet (a : Bool) (s : State) : Scalar := if a then s.sys.one else s.sys.zero
def filterDry (a : Bool) (s : State) : Scalar := if a then s.sys.zero else s.sys.one

/-- The gain targets of an effect stage with the mix entry `p`. -/
def effectWet (p : HParam) (a : Bool) (s : State) : Scalar := if a then s.par.h p else s.sys.zero
def effectDry (p : HParam) (a : Bool) (s : State) : Scalar :=
  if a then s.sys.sub s.sys.one (s.sys.div (s.par.h p) s.sys.two) else s.sys.one

/-! ## Terms of the per-tick rules -/

section
variable {α : Type}

/-- One LFO tick, as the pseudocode of 42_lfo.md R181 gives it. -/
def LfoAdvanced (N : NumSys α) (fs rate : α) (l l' : Lfo α) : Prop :=
  let p := N.add l.phase (N.mul (N.mul N.twoPi rate) (N.div N.one fs))
  let q := N.sub p (N.mul N.twoPi (N.ofInt (N.floor (N.div p N.twoPi))))
  l'.phase = (if N.lt q N.zero = true ∨ N.le N.twoPi q = true then N.zero else q) ∧ l'.val = N.sin l'.phase

/-- `b0 × x + b1 × x1 + b2 × x2 − a1 × y1 − a2 × y2`, left to right (41_biquad.md R157). -/
def differenceEquation (N : NumSys α) (c : Coef α) (h : Hist α) (x : α) : α :=
  N.sub (N.sub (N.add (N.add (N.mul c.b0 x) (N.mul c.b1 h.x1)) (N.mul c.b2 h.x2)) (N.mul c.a1 h.y1)) (N.mul c.a2 h.y2)

/-- The history a biquad keeps after the Sample `x` gave `y` (R157). -/
def shifted (h : Hist α) (x y : α) : Hist α := { x1 := x, x2 := h.x1, y1 := y, y2 := h.y1 }

/-- `y` and the history `h'` are what the biquad `(c, h)` makes of `x` (R157). -/
def Filtered (N : NumSys α) (c : Coef α) (h : Hist α) (x y : α) (h' : Hist α) : Prop :=
  y = differenceEquation N c h x ∧ h' = shifted h x y

/-- `m'` is `m` with the Sample `v` at index `i`: every other index reads as before (20_memory.md R60). -/
def Stored (zero : α) (m m' : Memory α) (i : Nat) (v : α) : Prop :=
  ∀ j, m'.read zero j = if j = i then v else m.read zero j

/-- `out` and the channel `ch'` are what the ten stages, in chain order, make of the Sample `x` on channel `c`, with
the registers of `b`: `x_{k+1} = dry × x_k + wet × w_k` (40_tick_smoother_mix.md R127). -/
def Chained [DecidableEq α] (d : Device α) (b : Block α) (c : Nat) (ch : Channel α) (x : α) (ch' : Channel α) (out : α) :
    Prop :=
  ∃ (sig : Nat → α) (lane : Nat → Channel α), sig 0 = x ∧ lane 0 = ch ∧ sig 10 = out ∧ lane 10 = ch' ∧
    ∀ k st, ([.hpf, .lpf, .eql, .eqm, .eqh, .pha, .fla, .cho, .dly, .rev] : List Stage)[k]? = some st →
      ∃ w, wetPath d b c st (lane k) (sig k) = (lane (k + 1), w) ∧
        sig (k + 1) = d.num.add (d.num.mul (b.mix.of st).dry (sig k)) (d.num.mul (b.mix.of st).wet w)

/-- The registers the signal path of a TICK from `b` to `t` works with: smoothed parameters and gains, LFO values and
coefficients of this tick; everything else as before it (R120, steps 1 to 4). -/
def midTick (b t : Block α) : Block α := { b with par := t.par, mix := t.mix, lfo := t.lfo, coef := t.coef }

end

/-- The rows of 10_state.md R21's table for the filter stages: stage number, parameter number, entry. -/
def filterRows : List (Nat × Nat × ParamRef) :=
  [(0, 0, .smoothed .hpfFrequency), (0, 1, .smoothed .hpfQ), (1, 0, .smoothed .lpfFrequency), (1, 1, .smoothed .lpfQ),
   (2, 0, .smoothed .eqlFrequency), (2, 2, .smoothed .eqlGain), (3, 0, .smoothed .eqmFrequency),
   (3, 1, .smoothed .eqmQ), (3, 2, .smoothed .eqmGain), (4, 0, .smoothed .eqhFrequency), (4, 2, .smoothed .eqhGain)]

/-- The rows for the phaser, the flanger and the chorus. -/
def modulatedRows : List (Nat × Nat × ParamRef) :=
  [(5, 3, .smoothed .phaRate), (5, 4, .smoothed .phaDepth), (5, 6, .held .phaMix), (6, 3, .smoothed .flaRate),
   (6, 4, .smoothed .flaDepth), (6, 5, .smoothed .flaFeedback), (6, 6, .held .flaMix), (7, 3, .smoothed .choRate),
   (7, 4, .smoothed .choDepth), (7, 6, .held .choMix)]

/-- The rows for the feedback delay, the reverb and the envelope. -/
def delayRows : List (Nat × Nat × ParamRef) :=
  [(8, 7, .smoothed .dlyTime), (8, 5, .smoothed .dlyFeedback), (8, 6, .held .dlyMix), (9, 7, .held .revTime),
   (9, 6, .held .revMix), (10, 8, .held .envAttack), (10, 9, .held .envDecay), (10, 10, .held .envSustain),
   (10, 11, .held .envRelease)]

/-- The thirty rows of R21's table. -/
def paramRows : List (Nat × Nat × ParamRef) := filterRows ++ modulatedRows ++ delayRows

/-- The ten chain stages under their numbers (00_scope.md R16). -/
def stageRows : List (Nat × Stage) :=
  [(0, .hpf), (1, .lpf), (2, .eql), (3, .eqm), (4, .eqh), (5, .pha), (6, .fla), (7, .cho), (8, .dly), (9, .rev)]

/-- The numbers of the envelope phases (10_state.md R29). -/
def phaseRows : List (Phase × Val) := [(.idle, 0), (.attack, 1), (.decay, 2), (.sustain, 3), (.release, 4)]

/-- The smoothed entries that reset to a configured default, by the rows of 10_state.md R21's table: entry, default, and the
bounds of the domain. -/
def smoothedResets {α : Type} (d : Device α) : List (SParam × α × α × α) :=
  [(.hpfFrequency, d.hpfF0, d.fMin, d.fMax), (.hpfQ, d.hpfQ0, d.qMin, d.qMax),
   (.lpfFrequency, d.lpfF0, d.fMin, d.fMax), (.lpfQ, d.lpfQ0, d.qMin, d.qMax),
   (.eqlFrequency, d.eqlF0, d.fMin, d.fMax), (.eqlGain, d.eqlG0, d.gMin, d.gMax),
   (.eqmFrequency, d.eqmF0, d.fMin, d.fMax), (.eqmQ, d.eqmQ0, d.qMin, d.qMax), (.eqmGain, d.eqmG0, d.gMin, d.gMax),
   (.eqhFrequency, d.eqhF0, d.fMin, d.fMax), (.eqhGain, d.eqhG0, d.gMin, d.gMax),
   (.phaRate, d.phRate0, d.num.zero, d.rateMax), (.phaDepth, d.phDepth0, d.num.zero, d.phDepthMax),
   (.flaRate, d.flRate0, d.num.zero, d.rateMax), (.flaFeedback, d.flFb0, d.num.zero, d.fbMax),
   (.choRate, d.choRate0, d.num.zero, d.rateMax),
   (.dlyTime, d.dlyT0, d.num.zero, d.dlyTmax), (.dlyFeedback, d.dlyFb0, d.num.zero, d.fbMax)]

/-- The held entries, likewise. -/
def heldResets {α : Type} (d : Device α) : List (HParam × α × α × α) :=
  [(.phaMix, d.phMix0, d.num.zero, d.num.one), (.flaMix, d.flMix0, d.num.zero, d.num.one),
   (.choMix, d.choMix0, d.num.zero, d.num.one), (.dlyMix, d.dlyMix0, d.num.zero, d.num.one),
   (.revMix, d.revMix0, d.num.zero, d.num.one), (.envAttack, d.envA0, d.envTMin, d.envTMax),
   (.envDecay, d.envD0, d.envTMin, d.envTMax), (.envSustain, d.envS0, d.num.zero, d.num.one),
   (.envRelease, d.envR0, d.envTMin, d.envTMax)]

/-- The value of an entry a READ returns: `cur` for `sel` 0, `tgt` for `sel` 1; a held entry has one register (R21). -/
def entryValue (s : State) (sel : Bool) : ParamRef → Scalar
  | .smoothed p => if sel then (s.par.s p).tgt else (s.par.s p).cur
  | .held p => s.par.h p

/-- The word the READ port returns for `sel`, stage number `st` and register number `r` (10_state.md R51). -/
inductive ReadsAs (s : State) (sel : Bool) (st r : Nat) : Val → Prop where
  | param (p : ParamRef) (h : (st, r, p) ∈ paramRows) : ReadsAs s sel st r (s.sys.enc32 (entryValue s sel p))
  | active (g : Stage) (h : (st, g) ∈ stageRows) (hr : r = 12) :
      ReadsAs s sel st r (if (s.mix.of g).active then 1 else 0)
  | wet (g : Stage) (h : (st, g) ∈ stageRows) (hr : r = 13) :
      ReadsAs s sel st r (s.sys.enc32 (if sel then s.wetTgt g else (s.mix.of g).wet))
  | dry (g : Stage) (h : (st, g) ∈ stageRows) (hr : r = 14) :
      ReadsAs s sel st r (s.sys.enc32 (if sel then s.dryTgt g else (s.mix.of g).dry))
  | lfoPha (h : st = 5) (hr : r = 15) : ReadsAs s sel st r (s.sys.enc32 s.lfo.pha.phase)
  | lfoFla (h : st = 6) (hr : r = 15) : ReadsAs s sel st r (s.sys.enc32 s.lfo.fla.phase)
  | lfoCho (h : st = 7) (hr : r = 15) : ReadsAs s sel st r (s.sys.enc32 s.lfo.cho.phase)
  | status (h : st = 15) (hr : r = 0) (w : Val) (h0 : w.getLsbD 0 = s.badcmd) (h1 : w.getLsbD 1 = s.job.isSome)
      (h2 : w.getLsbD 2 = s.irSel) (h3 : w.extractLsb' 3 29 = 0) : ReadsAs s sel st r w
  | irLen (h : st = 15) (hr : r = 1) : ReadsAs s sel st r (BitVec.ofNat 32 s.irLen)
  | irVer (h : st = 15) (hr : r = 2) : ReadsAs s sel st r (BitVec.ofNat 32 s.irVer)
  | envAmp (h : st = 15) (hr : r = 3) : ReadsAs s sel st r (s.sys.enc32 s.env.amp)
  | envPh (h : st = 15) (hr : r = 4) (w : Val) (hw : (s.env.ph, w) ∈ phaseRows) : ReadsAs s sel st r w
  | cmdVer (h : st = 15) (hr : r = 5) : ReadsAs s sel st r 1
  | unmappedGlobal (h : st = 15) (hr : 6 ≤ r) : ReadsAs s sel st r 0
  | unmappedStage (h : 11 ≤ st ∧ st ≤ 14) : ReadsAs s sel st r 0
  | noParam (h : st ≤ 10) (hr : r ≤ 11) (hp : ∀ p, (st, r, p) ∉ paramRows) : ReadsAs s sel st r 0
  | noMix (h : st = 10) (hr : 12 ≤ r) : ReadsAs s sel st r 0
  | noLfo (h : st ≤ 4 ∨ 8 ≤ st ∧ st ≤ 10) (hr : r = 15) : ReadsAs s sel st r 0

/-! ## Rejected words (30_encoding.md R97) -/

/-- The 28 settable (stage, parameter) pairs: the pairs of `paramRows` but for the two fixed depths (10_state.md R22). -/
def Settable (st r : Nat) : Prop :=
  ∃ p, (st, r, p) ∈ paramRows ∧ p ≠ .smoothed .flaDepth ∧ p ≠ .smoothed .choDepth

/-- The conditions of R97, on the fields of the word as R90 places them. -/
def Rejectable (w : Word) : Prop :=
  let op := (w.extractLsb' 60 4).toNat
  let st := (w.extractLsb' 56 4).toNat
  let r := (w.extractLsb' 52 4).toNat
  let val := w.extractLsb' 0 32
  w.extractLsb' 32 20 ≠ 0 ∨ 5 ≤ op ∨ (op = 0 ∧ w ≠ 0) ∨ (op = 1 ∧ (¬ Settable st r ∨ IsNaN val)) ∨
  (op = 2 ∧ (9 < st ∨ r ≠ 0 ∨ val.extractLsb' 1 31 ≠ 0)) ∨
  ((op = 3 ∨ op = 4) ∧ (st ≠ 10 ∨ r ≠ 0 ∨ val ≠ 0))

/-! ## The opcode map (30_encoding.md R100) -/

/-- The upper half of the match word of each `SETP` command, in the order of R100's table. -/
def setpTable : List (BitVec 32 × (Val → Instr)) :=
  [(0x10000000#32, Instr.setpHpfFrequency), (0x10100000#32, Instr.setpHpfQ), (0x11000000#32, Instr.setpLpfFrequency),
   (0x11100000#32, Instr.setpLpfQ), (0x12000000#32, Instr.setpEqlFrequency), (0x12200000#32, Instr.setpEqlGain),
   (0x13000000#32, Instr.setpEqmFrequency), (0x13100000#32, Instr.setpEqmQ), (0x13200000#32, Instr.setpEqmGain),
   (0x14000000#32, Instr.setpEqhFrequency), (0x14200000#32, Instr.setpEqhGain), (0x15300000#32, Instr.setpPhaRate),
   (0x15400000#32, Instr.setpPhaDepth), (0x15600000#32, Instr.setpPhaMix), (0x16300000#32, Instr.setpFlaRate),
   (0x16500000#32, Instr.setpFlaFeedback), (0x16600000#32, Instr.setpFlaMix), (0x17300000#32, Instr.setpChoRate),
   (0x17600000#32, Instr.setpChoMix), (0x18700000#32, Instr.setpDlyTime), (0x18500000#32, Instr.setpDlyFeedback),
   (0x18600000#32, Instr.setpDlyMix), (0x19700000#32, Instr.setpRevTime), (0x19600000#32, Instr.setpRevMix),
   (0x1A800000#32, Instr.setpEnvAttack), (0x1A900000#32, Instr.setpEnvDecay), (0x1AA00000#32, Instr.setpEnvSustain),
   (0x1AB00000#32, Instr.setpEnvRelease)]

/-- The same for the `SETA` commands. -/
def setaTable : List (BitVec 32 × (Bool → Instr)) :=
  [(0x20000000#32, Instr.setaHpf), (0x21000000#32, Instr.setaLpf), (0x22000000#32, Instr.setaEql), (0x23000000#32, Instr.setaEqm),
   (0x24000000#32, Instr.setaEqh), (0x25000000#32, Instr.setaPha), (0x26000000#32, Instr.setaFla), (0x27000000#32, Instr.setaCho),
   (0x28000000#32, Instr.setaDly), (0x29000000#32, Instr.setaRev)]

/-! ## Runs of one line, of the convolution and of one filter -/

section
variable {α : Type}

/-- A delay line read at the constant offset `off` and then written with the input, tick after tick: the values read
(43_delayline.md R199). -/
def lineRun [DecidableEq α] (N : NumSys α) (fs : α) (cap : Nat) (off : α) : List α → Nat → Memory α → List α
  | [], _, _ => []
  | x :: xs, w, m => dlRead N fs cap w m off :: lineRun N fs cap off xs (advance cap w) (dlWrite N w m x)

/-- The wet path of the reverb, tick after tick, with a fixed impulse response (48_reverb.md R267, R268). -/
def reverbRun [DecidableEq α] (N : NumSys α) (cap len : Nat) (ir : Nat → α) : List α → Nat → Memory α → List α
  | [], _, _ => []
  | x :: xs, hw, m =>
    convolve N len ir (fun k => (m.write N.zero hw x).read N.zero (wrapIdx cap ((hw : Int) - (k : Int)))) ::
      reverbRun N cap len ir xs (advance cap hw) (m.write N.zero hw x)

/-- The outputs of a biquad with one coefficient set for a run of inputs (41_biquad.md R157). -/
def biquadRun (N : NumSys α) (c : Coef α) : Hist α → List α → List α
  | _, [] => []
  | h, x :: xs => (biquad N c h x).2 :: biquadRun N c (biquad N c h x).1 xs

end

/-! ## Filters as transfer functions (41_biquad.md R159) -/

/-- `H(z) = (b0 + b1 z⁻¹ + b2 z⁻²) ÷ (1 + a1 z⁻¹ + a2 z⁻²)`. -/
noncomputable def transfer (c : Coef ℝ) (z : ℂ) : ℂ :=
  ((c.b0 : ℂ) + c.b1 * z⁻¹ + c.b2 * (z⁻¹) ^ 2) / (1 + (c.a1 : ℂ) * z⁻¹ + c.a2 * (z⁻¹) ^ 2)

/-- The constraints 00_scope.md R8 puts on the sample rate and the frequency bounds. -/
structure FrequencyBounds (fs fMin fMax : ℝ) : Prop where
  fMinPos : 0 < fMin
  le : fMin ≤ fMax
  nyquist : fMax < fs / 2

/-- The point of the unit circle at the cutoff frequency. -/
noncomputable def atCutoff (fs fMin fMax f : ℝ) : ℂ := Complex.exp (omega numReal fs fMin fMax f * Complex.I)

/-! ## Schedules -/

/-- The state after `n` steps of a schedule; none once a reset has failed. -/
def trace (sched : Nat → Event) (s : State) : Nat → Option State
  | 0 => some s
  | n + 1 =>
    match trace sched s n with
    | none => none
    | some t =>
      match runEvent (sched n) t with
      | .next u => some u
      | .fault _ => none
      | .refused _ => none

/-- Weak fairness of IRGEN (48_reverb.md R274): a job in flight is at some later time either given its turn or no
longer in flight. -/
def WeaklyFair (sched : Nat → Event) (s : State) : Prop :=
  ∀ n t, trace sched s n = some t → t.job ≠ none →
    ∃ m, n ≤ m ∧ ((∃ draws, sched m = .irgen draws) ∨ ∃ u, trace sched s m = some u ∧ u.job = none)

end Sys2Proof.Machine
end

