-- ==== Sys2Proof/Certificates/Slice0/Obligations.lean ====
section
/-! DEFINITION. The statements for the provers. -/

open Sys2Proof Sys2Proof.Machine

/-! ## Commands -/

/-- R160 to R170: the eleven parameters of the filter stages. -/
def Obligations.FilterParameterCommands : Prop :=
  WritesTarget .setpHpfFrequency 0x10000000 .hpfFrequency (·.fMin) (·.fMax) ∧
  WritesTarget .setpLpfFrequency 0x11000000 .lpfFrequency (·.fMin) (·.fMax) ∧
  WritesTarget .setpEqlFrequency 0x12000000 .eqlFrequency (·.fMin) (·.fMax) ∧
  WritesTarget .setpEqmFrequency 0x13000000 .eqmFrequency (·.fMin) (·.fMax) ∧
  WritesTarget .setpEqhFrequency 0x14000000 .eqhFrequency (·.fMin) (·.fMax) ∧
  WritesTarget .setpHpfQ 0x10100000 .hpfQ (·.qMin) (·.qMax) ∧
  WritesTarget .setpLpfQ 0x11100000 .lpfQ (·.qMin) (·.qMax) ∧
  WritesTarget .setpEqmQ 0x13100000 .eqmQ (·.qMin) (·.qMax) ∧
  WritesTarget .setpEqlGain 0x12200000 .eqlGain (·.gMin) (·.gMax) ∧
  WritesTarget .setpEqmGain 0x13200000 .eqmGain (·.gMin) (·.gMax) ∧
  WritesTarget .setpEqhGain 0x14200000 .eqhGain (·.gMin) (·.gMax)

/-- R215, R216, R230, R231, R245, R256, R257: the smoothed parameters of the effect stages. -/
def Obligations.EffectParameterCommands : Prop :=
  WritesTarget .setpPhaRate 0x15300000 .phaRate (·.num.zero) (·.rateMax) ∧
  WritesTarget .setpPhaDepth 0x15400000 .phaDepth (·.num.zero) (·.phDepthMax) ∧
  WritesTarget .setpFlaRate 0x16300000 .flaRate (·.num.zero) (·.rateMax) ∧
  WritesTarget .setpChoRate 0x17300000 .choRate (·.num.zero) (·.rateMax) ∧
  WritesTarget .setpFlaFeedback 0x16500000 .flaFeedback (·.num.zero) (·.fbMax) ∧
  WritesTarget .setpDlyTime 0x18700000 .dlyTime (·.num.zero) (·.dlyTmax) ∧
  WritesTarget .setpDlyFeedback 0x18500000 .dlyFeedback (·.num.zero) (·.fbMax)

/-- R217, R232, R246, R258, R271: the five mix commands and the gain targets they move. -/
def Obligations.MixCommands : Prop :=
  WritesMix .setpPhaMix 0x15600000 .phaMix .pha ∧
  WritesMix .setpFlaMix 0x16600000 .flaMix .fla ∧
  WritesMix .setpChoMix 0x17600000 .choMix .cho ∧
  WritesMix .setpDlyMix 0x18600000 .dlyMix .dly ∧
  WritesMix .setpRevMix 0x19600000 .revMix .rev

/-- R270: the held entry, and the regeneration it starts, which replaces one in flight; the live impulse response and
everything else stay. -/
def Obligations.ReverbTimeCommand : Prop :=
  ∀ (val : Val) (s : State) (v : Scalar), IsOperand s.sys s.sys.zero s.sys.one val v →
    decode (0x19700000#32 ++ val) = .ok (.setpRevTime val) ∧
    ∃ t, exec (.setpRevTime val) s = .next t ∧ t = { s with par := t.par, job := t.job } ∧
      t.par.h .revTime = s.sys.clamp v s.sys.zero s.sys.one ∧
      t.job = some (s.sys.add (s.sys.mul (t.par.h .revTime) (s.sys.ofDec 3)) (s.sys.ofDec (1 / 10))) ∧
      (∀ q, q ≠ .revTime → t.par.h q = s.par.h q) ∧ ∀ q, t.par.s q = s.par.s q

/-- R305 to R308: the four envelope parameters. -/
def Obligations.EnvelopeCommands : Prop :=
  WritesHeld .setpEnvAttack 0x1A800000 .envAttack (·.envTMin) (·.envTMax) ∧
  WritesHeld .setpEnvDecay 0x1A900000 .envDecay (·.envTMin) (·.envTMax) ∧
  WritesHeld .setpEnvSustain 0x1AA00000 .envSustain (·.num.zero) (·.num.one) ∧
  WritesHeld .setpEnvRelease 0x1AB00000 .envRelease (·.envTMin) (·.envTMax)

/-- R130 to R134: the five filter stages' flags, and the filter policy of R126. -/
def Obligations.FilterActiveCommands : Prop :=
  WritesActive .setaHpf 0x20000000 .hpf filterWet filterDry ∧
  WritesActive .setaLpf 0x21000000 .lpf filterWet filterDry ∧
  WritesActive .setaEql 0x22000000 .eql filterWet filterDry ∧
  WritesActive .setaEqm 0x23000000 .eqm filterWet filterDry ∧
  WritesActive .setaEqh 0x24000000 .eqh filterWet filterDry

/-- R135 to R139: the five effect stages' flags, and the effect policy of R126. -/
def Obligations.EffectActiveCommands : Prop :=
  WritesActive .setaPha 0x25000000 .pha (effectWet .phaMix) (effectDry .phaMix) ∧
  WritesActive .setaFla 0x26000000 .fla (effectWet .flaMix) (effectDry .flaMix) ∧
  WritesActive .setaCho 0x27000000 .cho (effectWet .choMix) (effectDry .choMix) ∧
  WritesActive .setaDly 0x28000000 .dly (effectWet .dlyMix) (effectDry .dlyMix) ∧
  WritesActive .setaRev 0x29000000 .rev (effectWet .revMix) (effectDry .revMix)

/-- R140: NOP is the all-zero word and changes nothing; any other word with `op = 0` is rejected. -/
def Obligations.NopDoesNothing : Prop :=
  decode 0 = .ok .nop ∧ (∀ s : State, exec .nop s = .next s) ∧
  ∀ w : Word, w.extractLsb' 60 4 = 0 → w ≠ 0 → ∃ r, decode w = .error r

/-- R294, R295, R303: the attack starts at the current amplitude, in every phase; the release does so too, and in Idle
and Release changes nothing. -/
def Obligations.TrigAndRelStartPhases : Prop :=
  (decode 0x3A00000000000000 = .ok .trig ∧
    ∀ s : State, ∃ t, exec .trig s = .next t ∧ t = { s with env := t.env } ∧
      let n := (max 1 (s.sys.floor (s.sys.add (s.sys.mul s.par.envAttack s.device.fs) (s.sys.ofDec (1 / 2))))).toNat
      t.env = { start := s.env.amp, ph := .attack, k := 0, n := n, amp := s.env.amp }) ∧
  decode 0x4A00000000000000 = .ok .rel ∧
    ∀ s : State, ∃ t, exec .rel s = .next t ∧ t = { s with env := t.env } ∧
      let n := (max 1 (s.sys.floor (s.sys.add (s.sys.mul s.par.envRelease s.device.fs) (s.sys.ofDec (1 / 2))))).toNat
      ((s.env.ph = .attack ∨ s.env.ph = .decay ∨ s.env.ph = .sustain) →
        t.env = { start := s.env.amp, ph := .release, k := 0, n := n, amp := s.env.amp }) ∧
      (s.env.ph = .idle ∨ s.env.ph = .release → t = s)

/-! ## TICK -/

/-- R121, R122: step 1 of TICK, the forty smoothings. -/
def Obligations.TickSmooths : Prop :=
  ∀ (f : Frame Scalar) (s : State),
    let N := s.sys
    let sm (t c : Scalar) : Scalar :=
      if N.le s.device.tau N.zero = true then t
      else N.add t (N.mul (N.sub c t) (N.exp (N.div (N.sub N.zero (N.div N.one s.device.fs)) s.device.tau)))
    ∃ t, exec (.tick f) s = .next t ∧
      (∀ p, t.par.s p = { tgt := (s.par.s p).tgt, cur := sm (s.par.s p).tgt (s.par.s p).cur }) ∧
      (∀ p, t.par.h p = s.par.h p) ∧
      ∀ st, t.mix.of st = { active := (s.mix.of st).active, wet := sm (s.wetTgt st) (s.mix.of st).wet,
                            dry := sm (s.dryTgt st) (s.mix.of st).dry }

/-- R181, R182, R183: step 2, the three LFOs, each at the rate smoothed in this tick. -/
def Obligations.TickAdvancesLfos : Prop :=
  ∀ (f : Frame Scalar) (s : State), ∃ t, exec (.tick f) s = .next t ∧
    LfoAdvanced s.sys s.device.fs (t.par.s .phaRate).cur s.lfo.pha t.lfo.pha ∧
    LfoAdvanced s.sys s.device.fs (t.par.s .flaRate).cur s.lfo.fla t.lfo.fla ∧
    LfoAdvanced s.sys s.device.fs (t.par.s .choRate).cur s.lfo.cho t.lfo.cho

/-- R156, R211: steps 3 and 4, every coefficient set from the values of this tick. -/
def Obligations.TickUpdatesCoefficients : Prop :=
  ∀ (f : Frame Scalar) (s : State), ∃ t, exec (.tick f) s = .next t ∧
    let co (shape : Shape Scalar) (freq : Scalar) : Coef Scalar :=
      coef s.sys s.device.fs s.device.fMin s.device.fMax shape freq
    t.coef.hpf = co (.highpass (t.par.s .hpfQ).cur) (t.par.s .hpfFrequency).cur ∧
    t.coef.lpf = co (.lowpass (t.par.s .lpfQ).cur) (t.par.s .lpfFrequency).cur ∧
    t.coef.eql = co (.lowshelf (t.par.s .eqlGain).cur) (t.par.s .eqlFrequency).cur ∧
    t.coef.eqm = co (.peaking (t.par.s .eqmQ).cur (t.par.s .eqmGain).cur) (t.par.s .eqmFrequency).cur ∧
    t.coef.eqh = co (.highshelf (t.par.s .eqhGain).cur) (t.par.s .eqhFrequency).cur ∧
    t.coef.pha = co (.allpass s.device.phQ)
      (s.sys.add s.device.phBase (s.sys.mul (t.par.s .phaDepth).cur t.lfo.pha.val)) ∧
    t.coef.dlyLp = co (.lowpass s.device.dlyLpQ) s.device.dlyLpF

/-- R127, R129, R141: step 5, the ten stages in chain order on every channel, active or not, then the write indices; the
input Samples are read as values of the machine's own number system (log 4, 7). -/
def Obligations.TickRunsChain : Prop :=
  ∀ (f : Frame Scalar) (s : State), ∃ t, exec (.tick f) s = .next t ∧
    let mid := midTick s.toBlock t.toBlock
    let x := f.map s.cfg.num.read
    Chained s.device mid 0 s.ch0 x.c0 t.ch0 t.out.c0 ∧
    (s.device.nch = 2 → Chained s.device mid 1 s.ch1 x.c1 t.ch1 t.out.c1) ∧
    t.widx.fla = (s.widx.fla + 1) % s.device.flCap ∧ t.widx.cho = (s.widx.cho + 1) % s.device.choCap ∧
    t.widx.dly = (s.widx.dly + 1) % s.device.dlyCap ∧ t.hw = (s.hw + 1) % s.device.irCap

/-- R157, R158, R213: the wet paths of the filter stages and of the phaser, and what they leave of the channel, in every
number system. -/
def Obligations.FilterWetPaths : Prop :=
  ∀ (α : Type) [DecidableEq α] (d : Device α) (b : Block α) (c : Nat) (ch : Channel α) (x : α),
    let N := d.num
    (∃ h y, wetPath d b c .hpf ch x = ({ ch with hpf := h }, y) ∧ Filtered N b.coef.hpf ch.hpf x y h) ∧
    (∃ h y, wetPath d b c .lpf ch x = ({ ch with lpf := h }, y) ∧ Filtered N b.coef.lpf ch.lpf x y h) ∧
    (∃ h y, wetPath d b c .eql ch x = ({ ch with eql := h }, y) ∧ Filtered N b.coef.eql ch.eql x y h) ∧
    (∃ h y, wetPath d b c .eqm ch x = ({ ch with eqm := h }, y) ∧ Filtered N b.coef.eqm ch.eqm x y h) ∧
    (∃ h y, wetPath d b c .eqh ch x = ({ ch with eqh := h }, y) ∧ Filtered N b.coef.eqh ch.eqh x y h) ∧
    ∃ (hs : List (Hist α)) (v : Nat → α),
      wetPath d b c .pha ch x = ({ ch with pha := hs }, v ch.pha.length) ∧ v 0 = x ∧ hs.length = ch.pha.length ∧
      ∀ i h, ch.pha[i]? = some h → ∃ h', hs[i]? = some h' ∧ Filtered N b.coef.pha h (v i) (v (i + 1)) h'

/-- R226 to R228, R241 to R244, R251 to R254: the wet paths of the three delay stages, in every number system. Each stores
one Sample, at the write index of its line. -/
def Obligations.DelayWetPaths : Prop :=
  ∀ (α : Type) [DecidableEq α] (d : Device α) (b : Block α) (c : Nat) (ch : Channel α) (x : α),
    b.Inv d → ChannelWf d ch →
    let N := d.num
    (∃ m y, wetPath d b c .fla ch x = ({ ch with dlFla := m }, y) ∧
      y = dlRead N d.fs d.flCap b.widx.fla ch.dlFla (N.add d.flBase (N.mul (b.par.s .flaDepth).cur b.lfo.fla.val)) ∧
      Stored N.zero ch.dlFla m b.widx.fla (N.add x (N.mul (b.par.s .flaFeedback).cur y))) ∧
    (∃ m y, wetPath d b c .cho ch x = ({ ch with dlCho := m }, y) ∧
      y = dlRead N d.fs d.choCap b.widx.cho ch.dlCho (N.add d.choBase (N.mul (b.par.s .choDepth).cur b.lfo.cho.val)) ∧
      Stored N.zero ch.dlCho m b.widx.cho x) ∧
    ∃ m y h z, wetPath d b c .dly ch x = ({ ch with dlDly := m, dlyLp := h }, y) ∧
      y = dlRead N d.fs d.dlyCap b.widx.dly ch.dlDly (b.par.s .dlyTime).cur ∧
      Filtered N b.coef.dlyLp ch.dlyLp y z h ∧
      Stored N.zero ch.dlDly m b.widx.dly (N.add x (N.mul (b.par.s .dlyFeedback).cur z))

/-- R192 to R194: the read of a delay line, in every number system; `fr = 0` is `<=` both ways (the model's reading of
the comparison, log 9). -/
def Obligations.DelayReadFormula : Prop :=
  ∀ (α : Type) (N : NumSys α) (fs off : α) (cap w : Nat) (m : Memory α),
    let v := N.mul off fs
    let d := if N.lt v N.one = true then N.one else if N.lt (N.ofInt (cap : Int)) v = true then N.ofInt (cap : Int) else v
    let r := N.sub (N.ofInt (w : Int)) d
    let fr := N.sub r (N.ofInt (N.floor r))
    let a := m.read N.zero (N.floor r % (cap : Int)).toNat
    let b := m.read N.zero ((N.floor r + 1) % (cap : Int)).toNat
    (N.le fr N.zero = true ∧ N.le N.zero fr = true → dlRead N fs cap w m off = a) ∧
    (¬ (N.le fr N.zero = true ∧ N.le N.zero fr = true) →
      dlRead N fs cap w m off = N.add (N.mul a (N.sub N.one fr)) (N.mul b fr))

/-- R267, R268, R269: the wet path of the reverb, in every number system: the present Sample is stored at `hw`, and the
result is the convolution sum, in ascending order, of the impulse channel of the lane with the history. -/
def Obligations.ReverbWetPath : Prop :=
  ∀ (α : Type) [DecidableEq α] (d : Device α) (b : Block α) (c : Nat) (ch : Channel α) (x : α),
    b.Inv d → ChannelWf d ch →
    let N := d.num
    let bank := if b.irSel then b.bank1 else b.bank0
    let ir := if d.nch = 2 ∧ c = 1 then bank.right else bank.left
    ∃ (m : Memory α) (acc : Nat → α), wetPath d b c .rev ch x = ({ ch with hist := m }, acc b.irLen) ∧
      Stored N.zero ch.hist m b.hw x ∧ acc 0 = N.zero ∧
      ∀ k, k < b.irLen → acc (k + 1) = N.add (acc k)
        (N.mul (ir.read N.zero k) (m.read N.zero (((b.hw : Int) - (k : Int)) % (d.irCap : Int)).toNat))

/-- R297 to R302: step 6, the envelope, one phase a tick. -/
def Obligations.TickAdvancesEnvelope : Prop :=
  ∀ (f : Frame Scalar) (s : State), ∃ t, exec (.tick f) s = .next t ∧
    let N := s.sys
    let e := s.env
    let ticks (d : Scalar) : Nat := (max 1 (N.floor (N.add (N.mul d s.device.fs) (N.ofDec (1 / 2))))).toNat
    let ramp (b : Scalar) : Scalar :=
      N.add e.start (N.mul (N.sub b e.start) (N.div (N.ofInt ((e.k + 1 : Nat) : Int)) (N.ofInt (e.n : Int))))
    (e.ph = .idle → t.env = { e with amp := N.zero }) ∧
    (e.ph = .attack → e.n ≤ e.k + 1 →
      t.env = { ph := .decay, k := 0, n := ticks s.par.envDecay, start := N.one, amp := N.one }) ∧
    (e.ph = .attack → e.k + 1 < e.n → t.env = { e with k := e.k + 1, amp := ramp N.one }) ∧
    (e.ph = .decay → e.n ≤ e.k + 1 →
      t.env = { ph := .sustain, k := 0, n := 1, start := s.par.envSustain, amp := s.par.envSustain }) ∧
    (e.ph = .decay → e.k + 1 < e.n → t.env = { e with k := e.k + 1, amp := ramp s.par.envSustain }) ∧
    (e.ph = .sustain → t.env = { e with amp := s.par.envSustain }) ∧
    (e.ph = .release → e.n ≤ e.k + 1 → t.env = { ph := .idle, k := 0, n := 1, start := N.zero, amp := N.zero }) ∧
    (e.ph = .release → e.k + 1 < e.n → t.env = { e with k := e.k + 1, amp := ramp N.zero })

/-- R120: what a TICK never writes; of each memory it writes at most the Sample at the write index; and it puts out the
amplitude as the envelope value (R296; the output registers are the model's, log 14). -/
def Obligations.TickFrame : Prop :=
  ∀ (f : Frame Scalar) (s : State), s.Inv → ∃ t, exec (.tick f) s = .next t ∧
    (∀ p, (t.par.s p).tgt = (s.par.s p).tgt) ∧ (∀ p, t.par.h p = s.par.h p) ∧
    (∀ st, (t.mix.of st).active = (s.mix.of st).active) ∧
    t.job = s.job ∧ t.irSel = s.irSel ∧ t.irLen = s.irLen ∧ t.irVer = s.irVer ∧ t.badcmd = s.badcmd ∧
    t.bank0 = s.bank0 ∧ t.bank1 = s.bank1 ∧ t.cfg = s.cfg ∧ t.inbox = s.inbox ∧ t.rngPos = s.rngPos ∧
    t.readData = s.readData ∧ t.envOut = t.env.amp ∧
    let zero := s.sys.zero
    let same (m m' : Memory Scalar) (w : Nat) : Prop := ∀ i, i ≠ w → m'.read zero i = m.read zero i
    same s.ch0.dlFla t.ch0.dlFla s.widx.fla ∧ same s.ch0.dlCho t.ch0.dlCho s.widx.cho ∧
    same s.ch0.dlDly t.ch0.dlDly s.widx.dly ∧ same s.ch0.hist t.ch0.hist s.hw ∧
    same s.ch1.dlFla t.ch1.dlFla s.widx.fla ∧ same s.ch1.dlCho t.ch1.dlCho s.widx.cho ∧
    same s.ch1.dlDly t.ch1.dlDly s.widx.dly ∧ same s.ch1.hist t.ch1.hist s.hw

/-- R6: `processBlock` of `B` Frames is `B` consecutive TICKs: the machine, stepped `B` times, comes to its state, its
outputs are the Frames put out along the way, and an empty block does nothing. -/
def Obligations.BlockIsConsecutiveTicks : Prop :=
  (∀ s : State, processBlock [] s = ([], s)) ∧
  (∀ (fs : List (Frame Scalar)) (f : Frame Scalar) (s : State),
    exec (.tick f) (processBlock fs s).2 = .next (processBlock (fs ++ [f]) s).2 ∧
    (processBlock (fs ++ [f]) s).1 = (processBlock fs s).1 ++ [(processBlock (fs ++ [f]) s).2.out]) ∧
  ∀ (fs : List (Frame Scalar)) (rest : List Event) (s : State),
    core.run fs.length { s with inbox := fs.map Event.tick ++ rest } =
      .next (processBlock fs { s with inbox := rest }).2

/-- R127, R141: the lanes do not interact. Two machines that differ in one channel's state, and are given Frames that
differ on that channel, agree on the other channel after every block. -/
def Obligations.ChannelsDoNotInteract : Prop :=
  ∀ (fs fs' : List (Frame Scalar)) (s : State) (o : Frame Scalar) (ch : Channel Scalar),
    (fs.map Frame.c0 = fs'.map Frame.c0 →
      let a := processBlock fs s
      let b := processBlock fs' { s with ch1 := ch, out := o }
      a.1.map Frame.c0 = b.1.map Frame.c0 ∧ a.2.ch0 = b.2.ch0) ∧
    (fs.map Frame.c1 = fs'.map Frame.c1 →
      let a := processBlock fs s
      let b := processBlock fs' { s with ch0 := ch, out := o }
      a.1.map Frame.c1 = b.1.map Frame.c1 ∧ a.2.ch1 = b.2.ch1)

/-- R290: the envelope neither writes nor reads the audio chain. A machine with any other envelope and any other envelope
parameters puts out the same Frames, and its chain comes to the same state; and a machine with any other chain, given any
other Frames, comes to the same envelope and puts out the same envelope value. -/
def Obligations.EnvelopeIsIsolated : Prop :=
  (∀ (fs : List (Frame Scalar)) (s : State) (e : Env Scalar) (a d u r o : Scalar),
    let s' := { s with env := e, envOut := o,
                       par := { s.par with envAttack := a, envDecay := d, envSustain := u, envRelease := r } }
    let x := processBlock fs s
    let y := processBlock fs s'
    x.1 = y.1 ∧ x.2.ch0 = y.2.ch0 ∧ x.2.ch1 = y.2.ch1 ∧ x.2.mix = y.2.mix ∧ x.2.lfo = y.2.lfo ∧ x.2.coef = y.2.coef ∧
    x.2.widx = y.2.widx ∧ x.2.hw = y.2.hw ∧ ∀ p, x.2.par.s p = y.2.par.s p) ∧
  ∀ (fs fs' : List (Frame Scalar)) (s s' : State), fs.length = fs'.length → s.cfg = s'.cfg → s.env = s'.env →
    s.envOut = s'.envOut → (∀ p ∈ [HParam.envAttack, .envDecay, .envSustain, .envRelease], s.par.h p = s'.par.h p) →
    (processBlock fs s).2.env = (processBlock fs' s').2.env ∧ (processBlock fs s).2.envOut = (processBlock fs' s').2.envOut

/-! ## READ, IRGEN, RESET -/

/-- R50, R51: a READ of any address returns the word of the register map, and nothing else of the machine changes
(that the word is kept in `readData` is the model's choice, log 14). -/
def Obligations.ReadReturnsRegisterMap : Prop :=
  ∀ (a : Addr) (s : State), ∃ w, exec (.read a) s = .next { s with readData := w } ∧
    ReadsAs s (a.getLsbD 8) (a.extractLsb' 4 4).toNat (a.extractLsb' 0 4).toNat w

/-- R266, R272, R273, R275: a regeneration in flight is published, whatever its duration and whatever draws it is
given (read as values of the machine's own number system). The shadow bank becomes the live one. It holds, for a length `L` of at least 1, the draws under the envelope, `L`
for the left channel and then `L` for the right; else the silent buffer. From `L` on it holds what it held; the bank that
was live stays. The draws begin with those given, values outside [−1, 1] passed over; past their end they are values of
which nothing is known but that each lies in [−1, 1] (where 0 does so in the number system; log 13). -/
def Obligations.IrgenPublishes : Prop :=
  ∀ (s : State) (dur : Scalar) (draws : List Scalar), s.Inv → s.job = some dur →
    let N := s.sys
    let inRange (x : Scalar) : Bool := N.le (N.neg N.one) x && N.le x N.one
    let sounding : Prop := N.lt N.zero dur = true ∧ 1 ≤ N.floor (N.mul s.device.fs dur)
    ∃ (t : State) (u : Nat → Scalar) (L : Nat), exec (.irgen draws) s = .next t ∧
      (sounding → L = min (N.floor (N.mul s.device.fs dur)).toNat s.device.irCap) ∧ (¬ sounding → L = 1) ∧
      t = { s with irSel := !s.irSel, irLen := L, irVer := s.irVer + 1, job := none,
                   bank0 := t.bank0, bank1 := t.bank1, rngPos := t.rngPos } ∧
      (∀ n x, (draws.filter inRange)[n]? = some x → u n = s.cfg.num.read x) ∧
      (inRange N.zero = true → ∀ n, inRange (u n) = true) ∧
      (if s.irSel then t.bank1 = s.bank1 else t.bank0 = s.bank0) ∧
      let old := if s.irSel then s.bank0 else s.bank1
      let new := if s.irSel then t.bank0 else t.bank1
      let shape (n : Nat) : Scalar :=
        N.pow (N.sub N.one (N.div (N.ofInt (n : Int)) (N.ofInt (L : Int)))) s.device.revDecay
      ∀ n,
        (sounding → n < L →
          new.left.read N.zero n = N.mul (u n) (shape n) ∧ new.right.read N.zero n = N.mul (u (L + n)) (shape n)) ∧
        (¬ sounding → n < L → new.left.read N.zero n = N.zero ∧ new.right.read N.zero n = N.zero) ∧
        (L ≤ n → new.left.read N.zero n = old.left.read N.zero n ∧ new.right.read N.zero n = old.right.read N.zero n)

/-- R276: cancel-and-restart. A request that follows another, with no publication between, leaves exactly the state
it leaves without the earlier one; so nothing of the earlier is ever published. -/
def Obligations.LaterRequestCancelsEarlier : Prop :=
  ∀ (s t : State) (v1 v2 : Val), ¬ IsNaN v1 → ¬ IsNaN v2 → exec (.setpRevTime v1) s = .next t →
    exec (.setpRevTime v2) t = exec (.setpRevTime v2) s ∧
    ∀ u draws w, exec (.setpRevTime v2) t = .next u → exec (.irgen draws) u = .next w → w.irVer = s.irVer + 1

/-- R350, R321: RESET of a configuration that passes gives every element its reset value, and discards the rest; with
one that fails no state exists. What the outside still asks for is kept (the model's choice, log 17). -/
def Obligations.ResetReconstructs : Prop :=
  ∀ s : State,
    (checkCfg s.cfg = none →
      exec .reset s = .next { State.ofCfg s.cfg with inbox := s.inbox, rngPos := s.rngPos }) ∧
    ∀ c, checkCfg s.cfg = some c → exec .reset s = .fault (.configurationError c)

/-- R40, R21: the values of reset, element by element, of a block of any number system, and so of the machine: each
parameter at the default its row of R21's table names, clamped into the row's domain. A default that is a NaN is no value
`clamp` is applied to (R12): log 27, OpenPointsAsLogged. -/
def Obligations.ResetValues : Prop :=
  (∀ cfg : Cfg, (State.ofCfg cfg).toBlock = Block.reset cfg.device) ∧
  ∀ (α : Type) (d : Device α),
    let N := d.num
    let b := Block.reset d
    let co (shape : Shape α) (freq : α) : Coef α := coef N d.fs d.fMin d.fMax shape freq
    (∀ row ∈ smoothedResets d, N.isNaN row.2.1 = false →
      let v := N.clamp row.2.1 row.2.2.1 row.2.2.2; b.par.s row.1 = { tgt := v, cur := v }) ∧
    b.par.s .flaDepth = { tgt := d.flDepth, cur := d.flDepth } ∧
    b.par.s .choDepth = { tgt := d.choDepth, cur := d.choDepth } ∧
    (∀ row ∈ heldResets d, N.isNaN row.2.1 = false → b.par.h row.1 = N.clamp row.2.1 row.2.2.1 row.2.2.2) ∧
    b.par.h .revTime = N.zero ∧
    (∀ st, b.mix.of st = { active := false, wet := N.zero, dry := N.one }) ∧
    b.coef.hpf = co (.highpass (b.par.s .hpfQ).cur) (b.par.s .hpfFrequency).cur ∧
    b.coef.lpf = co (.lowpass (b.par.s .lpfQ).cur) (b.par.s .lpfFrequency).cur ∧
    b.coef.eql = co (.lowshelf (b.par.s .eqlGain).cur) (b.par.s .eqlFrequency).cur ∧
    b.coef.eqm = co (.peaking (b.par.s .eqmQ).cur (b.par.s .eqmGain).cur) (b.par.s .eqmFrequency).cur ∧
    b.coef.eqh = co (.highshelf (b.par.s .eqhGain).cur) (b.par.s .eqhFrequency).cur ∧
    b.coef.pha = co (.allpass d.phQ) (N.clamp d.phBase d.fMin d.fMax) ∧
    b.coef.dlyLp = co (.lowpass d.dlyLpQ) d.dlyLpF ∧
    (∀ h ∈ [b.ch0.hpf, b.ch0.lpf, b.ch0.eql, b.ch0.eqm, b.ch0.eqh, b.ch0.dlyLp] ++ b.ch0.pha,
      h = { x1 := N.zero, x2 := N.zero, y1 := N.zero, y2 := N.zero }) ∧ b.ch0.pha.length = d.phN ∧ b.ch1 = b.ch0 ∧
    (∀ l ∈ [b.lfo.pha, b.lfo.fla, b.lfo.cho], l = { phase := N.zero, val := N.zero }) ∧
    b.widx = { fla := 0, cho := 0, dly := 0 } ∧ b.hw = 0 ∧ b.irSel = false ∧ b.irLen = 1 ∧ b.irVer = 0 ∧
    b.job = none ∧ b.env = { ph := .idle, k := 0, n := 1, start := N.zero, amp := N.zero } ∧ b.badcmd = false ∧
    ∀ m ∈ [b.ch0.dlFla, b.ch0.dlCho, b.ch0.dlDly, b.ch0.hist, b.bank0.left, b.bank0.right, b.bank1.left, b.bank1.right],
      ∀ i, m.read N.zero i = N.zero

/-- R328 (c), R321: a device of any number system; of the checks that fail, the first in the table's order gives the cause. The range of the in-loop
lowpass counts as a constraint of check 4 (the model's reading of R8, log 19). -/
def Obligations.FirstFailingCheckGivesCause : Prop :=
  ∀ (α : Type) (d : Device α),
    let N := d.num
    let badFs := N.lt N.zero d.fs = false
    let badNch := ¬ (d.nch = 1 ∨ d.nch = 2)
    let badPhN := d.phN < 1
    let lt (x y : α) : Prop := N.lt x y = true
    let le (x y : α) : Prop := N.le x y = true
    let zero := N.zero
    let badBounds := ¬ (lt zero d.fMin ∧ le d.fMin d.fMax ∧ lt d.fMax (N.div d.fs N.two) ∧
      lt zero d.qMin ∧ le d.qMin d.qMax ∧ le d.gMin zero ∧ le zero d.gMax ∧
      le zero d.rateMax ∧ lt d.rateMax d.fs ∧ le zero d.phDepthMax ∧ le zero d.fbMax ∧ lt d.fbMax N.one ∧
      lt zero d.phBase ∧ lt zero d.phQ ∧ lt zero d.flBase ∧ le zero d.flDepth ∧ lt zero d.choBase ∧
      le zero d.choDepth ∧ lt zero d.dlyTmax ∧ le d.fMin d.dlyLpF ∧ le d.dlyLpF d.fMax ∧
      le d.qMin d.dlyLpQ ∧ le d.dlyLpQ d.qMax ∧ lt zero d.revDecay ∧ lt zero d.envTMin ∧
      le d.envTMin d.envTMax ∧ N.isNaN d.tau = false)
    let bad (cap : Nat) (x : α) : Prop := cap < 2 ∨ (cap : Int) < -N.floor (N.neg (N.mul x d.fs))
    let fla := bad d.flCap (N.add d.flBase d.flDepth)
    let cho := bad d.choCap (N.add d.choBase d.choDepth)
    let dly := bad d.dlyCap d.dlyTmax
    let ir := d.irCap < 1 ∨ (d.irCap : Int) < N.floor (N.mul d.fs (N.ofDec (31 / 10)))
    let ok4 := ¬ badFs ∧ ¬ badNch ∧ ¬ badPhN ∧ ¬ badBounds
    (checkDevice d = some .badFs ↔ badFs) ∧
    (checkDevice d = some .badNch ↔ ¬ badFs ∧ badNch) ∧
    (checkDevice d = some .badPhN ↔ ¬ badFs ∧ ¬ badNch ∧ badPhN) ∧
    (checkDevice d = some .badBounds ↔ ¬ badFs ∧ ¬ badNch ∧ ¬ badPhN ∧ badBounds) ∧
    (checkDevice d = some .capFla ↔ ok4 ∧ fla) ∧
    (checkDevice d = some .capCho ↔ ok4 ∧ ¬ fla ∧ cho) ∧
    (checkDevice d = some .capDly ↔ ok4 ∧ ¬ fla ∧ ¬ cho ∧ dly) ∧
    (checkDevice d = some .capIr ↔ ok4 ∧ ¬ fla ∧ ¬ cho ∧ ¬ dly ∧ ir) ∧
    (checkDevice d = none ↔ ok4 ∧ ¬ fla ∧ ¬ cho ∧ ¬ dly ∧ ¬ ir)

/-- Five choices of the model, at points the spec leaves without a rule: a `SETP` instruction that carries a NaN
pattern acts as the rejected word it stands for (log 20); an IRGEN turn with no job in flight is no step (log 12); a value
outside [−1, 1] among the draws an IRGEN is given is passed over (log 13); a machine with one channel leaves the second
lane, which the spec does not give it, as it is, and puts out 0 on it (log 15); in `NUM_F32` a default that is a NaN is what
its entry resets to (log 27). -/
def Obligations.OpenPointsAsLogged : Prop :=
  (∀ (i : Instr) (s : State), i.wf = false → (∀ draws, i ≠ .irgen draws) → exec i s = .next { s with badcmd := true }) ∧
  (∀ (s : State) (draws : List Scalar), s.job = none → exec (.irgen draws) s = .next s) ∧
  (∀ (s : State) (draws : List Scalar),
    exec (.irgen draws) s = exec (.irgen (draws.filter fun u => s.sys.le (s.sys.neg s.sys.one) u && s.sys.le u s.sys.one)) s) ∧
  (∀ (f : Frame Scalar) (s : State), s.device.nch ≠ 2 →
    ∃ t, exec (.tick f) s = .next t ∧ t.ch1 = s.ch1 ∧ t.out.c1 = s.sys.zero) ∧
  ∀ (fns : FnTable Val) (d : Device Val), d.num = numF32 fns →
    (∀ row ∈ smoothedResets d, IsNaN row.2.1 → (Block.reset d).par.s row.1 = { tgt := row.2.1, cur := row.2.1 }) ∧
    ∀ row ∈ heldResets d, IsNaN row.2.1 → (Block.reset d).par.h row.1 = row.2.1

/-! ## Decoding and stepping -/

/-- R95 to R97: a step takes the head of `inbox`: a word that decodes runs its instruction, a word that does not sets
`BADCMD` and nothing else, the other entries run theirs; with an empty `inbox` no agent steps (log 11); and
`withFetchWord` puts a word where the next step takes it. And the machine is the block of any number system at the plain
carrier (R10, log 26): a step changes the block as the device's own step does, and shows what that puts out. -/
def Obligations.StepRunsDecodedInstruction : Prop :=
  ∀ (s : State) (rest : List Event),
    (∀ w i, s.inbox = .word w :: rest → decode w = .ok i →
      i.wf = true ∧ step s = exec i { s with inbox := rest }) ∧
    (∀ w r, s.inbox = .word w :: rest → decode w = .error r →
      step s = .next { s with inbox := rest, badcmd := true }) ∧
    (∀ f, s.inbox = .tick f :: rest → step s = exec (.tick f) { s with inbox := rest }) ∧
    (∀ d, s.inbox = .irgen d :: rest → step s = exec (.irgen d) { s with inbox := rest }) ∧
    (∀ a, s.inbox = .read a :: rest → step s = exec (.read a) { s with inbox := rest }) ∧
    (s.inbox = .reset :: rest → step s = exec .reset { s with inbox := rest }) ∧
    (s.inbox = [] → step s = .next s) ∧
    (∀ w i, decodeTableWord 64 w = some i → step (s.withFetchWord 64 w) = exec i s) ∧
    ∀ e, s.inbox = e :: rest →
      match deviceStep s.device (actOf s e) s.toBlock with
      | .error c => step s = .fault (.configurationError c)
      | .ok (b, o) => ∃ t, step s = .next t ∧ t.toBlock = b ∧ t.cfg = s.cfg ∧ t.inbox = rest ∧
          (∀ f v, o = .frame f v → t.out = f ∧ t.envOut = v) ∧ ∀ w, o = .data w → t.readData = w

/-- Words written out from R90's fields and R100's table, and the instructions they stand for (a sanity check). -/
def Obligations.SampleWordsDecode : Prop :=
  decode 0x1000000042A00000 = .ok (.setpHpfFrequency 0x42A00000) ∧
  decode 0x15600000_40000000 = .ok (.setpPhaMix 0x40000000) ∧
  decode 0x16500000_3FC00000 = .ok (.setpFlaFeedback 0x3FC00000) ∧
  decode 0x17300000_3FC00000 = .ok (.setpChoRate 0x3FC00000) ∧
  decode 0x18700000_3E99999A = .ok (.setpDlyTime 0x3E99999A) ∧
  decode 0x19700000_3F000000 = .ok (.setpRevTime 0x3F000000) ∧
  decode 0x1A800000_3DCCCCCD = .ok (.setpEnvAttack 0x3DCCCCCD) ∧
  decode 0x2500000000000001 = .ok (.setaPha true) ∧
  decode 0x3A00000000000000 = .ok .trig ∧ decode 0x4A00000000000000 = .ok .rel ∧
  decode 0x16400000_3B000000 = .error .noSuchPair ∧ decode 0x2500000000000002 = .error .setaVal

/-- R95, R97, R101: a word is rejected exactly when one of the listed conditions holds, and every other word is one
instruction; a rejected word, when its turn comes, writes `BADCMD <- 1` and nothing else. -/
def Obligations.RejectedExactlyWhenListed : Prop :=
  ∀ w : Word, (Rejectable w ↔ ∃ r, decode w = .error r) ∧ (¬ Rejectable w ↔ ∃ i, decode w = .ok i ∧ i.wf = true) ∧
    ∀ (s : State) (rest : List Event), s.inbox = .word w :: rest → Rejectable w →
      step s = .next { s with inbox := rest, badcmd := true }

/-- R100: a word is a `SETP` command exactly when `w AND 0xFFFF_FFFF_0000_0000` is the command's match and the operand
is no NaN; a `SETA` command by the mask `0xFFFF_FFFF_FFFF_FFFE`, its flag being bit 0; `NOP`, `TRIG`, `REL` by the mask
of ones. -/
def Obligations.MatchAndMaskSelectCommand : Prop :=
  ∀ w : Word,
    (∀ row ∈ setpTable, (w &&& 0xFFFFFFFF00000000 = row.1 ++ 0#32 ∧ ¬ IsNaN (w.extractLsb' 0 32)) ↔
      decode w = .ok (row.2 (w.extractLsb' 0 32))) ∧
    (∀ row ∈ setaTable, w &&& 0xFFFFFFFFFFFFFFFE = row.1 ++ 0#32 ↔ decode w = .ok (row.2 (w.getLsbD 0))) ∧
    (w = 0 ↔ decode w = .ok .nop) ∧ (w = 0x3A00000000000000 ↔ decode w = .ok .trig) ∧
    (w = 0x4A00000000000000 ↔ decode w = .ok .rel)

/-- Decoding the word of any well-formed instruction gives the instruction back, with every operand at every value;
only the four operations the opcode table gives no encoding have no word. -/
def Obligations.DecodeEncodeRoundTrip : Prop :=
  ∀ i : Instr, i.wf = true →
    (∃ w, encode i = some w ∧ decode w = .ok i) ∨
    (encode i = none ∧ ((∃ f, i = .tick f) ∨ (∃ a, i = .read a) ∨ (∃ d, i = .irgen d) ∨ i = .reset))

/-- And the other direction: a word that decodes is the word of its instruction, so no two words are one command and no
bit of a word is dropped. -/
def Obligations.EncodeDecodeRoundTrip : Prop :=
  ∀ (w : Word) (i : Instr), decode w = .ok i → encode i = some w ∧ i.wf = true

/-! ## The whole machine -/

/-- Every step keeps the ranges of the registers and the canonical form of the memories (10_state.md R25, R27 to R29;
20_memory.md R61, R70): every step of the machine, and every step of a device over any carrier; and every step of the machine
keeps its numbers in the carrier of its number system, the binary32 patterns in `NUM_F32` (00_scope.md R11, log 4). -/
def Obligations.StepKeepsInvariant : Prop :=
  (∀ s t : State, s.Inv → step s = .next t → t.Inv) ∧
  (∀ (α : Type) [DecidableEq α] (d : Device α) (a : Act α) (b t : Block α) (o : Output α),
    b.Inv d → deviceStep d a b = .ok (t, o) → t.Inv d) ∧
  ∀ s t : State, s.InCarrier → step s = .next t → t.InCarrier

/-- R40, R99: the state after reset has it, for every configuration that passes construction; and, in `NUM_REAL`, the
parameters lie in their domains and the envelope in [0, 1]; on plain data, and in every exact number system. And every number
of a reset machine lies in its carrier. -/
def Obligations.InvariantsAtReset : Prop :=
  (∀ cfg : Cfg, checkCfg cfg = none → (State.ofCfg cfg).Inv ∧
    (cfg.num.kind = .real → (State.ofCfg cfg).ParamsLegal ∧ (State.ofCfg cfg).EnvUnit)) ∧
  (∀ (α : Type) [DecidableEq α] (d : Device α) (r : α → ℝ), checkDevice d = none → (Block.reset d).Inv d ∧
    (Exact d.num r → (Block.reset d).ParamsLegal d ∧ (Block.reset d).EnvUnit d.num)) ∧
  ∀ cfg : Cfg, (State.ofCfg cfg).InCarrier

/-- R99: every target, current value and held value stays in its domain, over every step of a constructed machine in
`NUM_REAL`; over every step of a constructed device in an exact number system, while smoothing is off or `0 <= KS <= 1`; and
over the reals that condition always holds. -/
def Obligations.ParametersStayLegal : Prop :=
  (∀ s t : State, s.cfg.num.kind = .real → checkCfg s.cfg = none → s.ParamsLegal → step s = .next t →
    t.ParamsLegal ∧ t.cfg = s.cfg) ∧
  (∀ (α : Type) [DecidableEq α] (d : Device α) (r : α → ℝ) (a : Act α) (b t : Block α) (o : Output α),
    Exact d.num r → checkDevice d = none → SmoothingMonotone d r → b.ParamsLegal d → deviceStep d a b = .ok (t, o) →
    t.ParamsLegal d) ∧
  ∀ d : Device ℝ, d.num = numReal → 0 < d.fs → SmoothingMonotone d fun x => x

/-- R296: `0 <= E.amp <= 1` always, in `NUM_REAL`: every step of the machine, and of a device in an exact number system,
keeps it, from every state whose sustain level is legal, and leaves the sustain level legal. -/
def Obligations.EnvelopeStaysInUnitInterval : Prop :=
  (∀ s t : State, s.cfg.num.kind = .real → s.Inv → s.EnvUnit → step s = .next t → t.EnvUnit) ∧
  ∀ (α : Type) [DecidableEq α] (d : Device α) (r : α → ℝ) (a : Act α) (b t : Block α) (o : Output α),
    Exact d.num r → b.Inv d → b.EnvUnit d.num → deviceStep d a b = .ok (t, o) → t.EnvUnit d.num

/-- R125: a command word never writes a current value, a wet gain or a dry gain, whatever the word is. -/
def Obligations.CommandsNeverWriteCurrent : Prop :=
  ∀ (s t : State) (w : Word) (rest : List Event), s.inbox = .word w :: rest → step s = .next t →
    (∀ p, (t.par.s p).cur = (s.par.s p).cur) ∧
    (∀ st, (t.mix.of st).wet = (s.mix.of st).wet ∧ (t.mix.of st).dry = (s.mix.of st).dry) ∧
    t.coef = s.coef ∧ t.lfo = s.lfo ∧ t.ch0 = s.ch0 ∧ t.ch1 = s.ch1 ∧ t.widx = s.widx ∧ t.hw = s.hw

/-- R120, R125, R22: only a command word, and reset, writes a target, a held entry or an active flag; and no command
word names the two fixed depths, so over every step but reset they keep their target. -/
def Obligations.OnlyCommandsWriteTargets : Prop :=
  ∀ (s t : State), step s = .next t → (∀ rest, s.inbox ≠ .reset :: rest) →
    ((∀ w rest, s.inbox ≠ .word w :: rest) →
      (∀ p, (t.par.s p).tgt = (s.par.s p).tgt) ∧ (∀ p, t.par.h p = s.par.h p) ∧
      ∀ st, (t.mix.of st).active = (s.mix.of st).active) ∧
    (t.par.s .flaDepth).tgt = (s.par.s .flaDepth).tgt ∧ (t.par.s .choDepth).tgt = (s.par.s .choDepth).tgt

/-- R31 (b), R325: over every step but reset `BADCMD` rises exactly when the word taken is one that R97 rejects, and
never falls; reset clears it; a READ of `STATUS` has it as bit 0. -/
def Obligations.BadcmdIsSticky : Prop :=
  ∀ (s t : State) (e : Event) (rest : List Event), s.inbox = e :: rest → step s = .next t →
    (e ≠ .reset → (t.badcmd = true ↔ s.badcmd = true ∨ ∃ w, e = .word w ∧ Rejectable w)) ∧
    (e = .reset → t.badcmd = false) ∧ (e = .read 0x0F0 → t.readData.getLsbD 0 = s.badcmd)

/-- R65: the bank that is live is never written, over every step but reset; and the handle moves only with a
publication, which advances the version and clears the job. -/
def Obligations.LiveBankNeverWritten : Prop :=
  ∀ (s t : State), step s = .next t → (∀ rest, s.inbox ≠ .reset :: rest) →
    (if s.irSel then t.bank1 = s.bank1 else t.bank0 = s.bank0) ∧
    (t.irSel ≠ s.irSel → s.job ≠ none ∧ t.job = none ∧ t.irVer = s.irVer + 1) ∧
    (t.irSel = s.irSel → t.irLen = s.irLen ∧ t.irVer = s.irVer)

/-- R320, R8: a machine that was constructed never stops: every step answers a next state, and the configuration is
the same. -/
def Obligations.ConstructedMachineNeverStops : Prop :=
  ∀ s : State, checkCfg s.cfg = none → ∃ t, step s = .next t ∧ t.cfg = s.cfg

/-- R274: under weak fairness a job in flight is at some later time no longer in flight. -/
def Obligations.FairJobIsCompleted : Prop :=
  ∀ (s : State) (sched : Nat → Event), checkCfg s.cfg = none → WeaklyFair sched s →
    ∀ n t, trace sched s n = some t → t.job ≠ none → ∃ m u, n ≤ m ∧ trace sched s m = some u ∧ u.job = none

/-! ## Laws of the signal path -/

/-- R128: while all ten stages are bypassed and settled, in `NUM_REAL`, no step that is not a `SETA` ends it, and a
TICK puts out its input; on the machine, and on a device in an exact number system, under the reading of its numbers. -/
def Obligations.BypassLawHolds : Prop :=
  (∀ (s t : State) (e : Event) (rest : List Event), s.cfg.num.kind = .real → s.Bypassed → s.inbox = e :: rest →
    (∀ w, e = .word w → w.extractLsb' 60 4 ≠ 2) → step s = .next t →
    t.cfg.num.kind = .real ∧ t.Bypassed ∧
    ∀ f, e = .tick f → (IsReal f.c0 → t.out.c0 = f.c0) ∧ (s.device.nch = 2 → IsReal f.c1 → t.out.c1 = f.c1)) ∧
  ∀ (α : Type) [DecidableEq α] (d : Device α) (r : α → ℝ) (a : Act α) (b t : Block α) (o : Output α),
    Exact d.num r → b.Bypassed r → (∀ w, a = .word w → w.extractLsb' 60 4 ≠ 2) → deviceStep d a b = .ok (t, o) →
    t.Bypassed r ∧ ∀ f, a = .tick f → ∃ y v, o = .frame y v ∧ r y.c0 = r f.c0 ∧ (d.nch = 2 → r y.c1 = r f.c1)

/-- R41: after reset every block of finite input comes out as it went in, on one channel or two; on the machine in
`NUM_REAL`, and on a device in an exact number system, under the reading of its numbers. -/
def Obligations.DryBypassAfterReset : Prop :=
  (∀ (cfg : Cfg) (fs : List (Frame Scalar)), cfg.num.kind = .real → (∀ f ∈ fs, IsReal f.c0) →
    let out := (processBlock fs (State.ofCfg cfg)).1
    out.map Frame.c0 = fs.map Frame.c0 ∧ (cfg.nch = 2 → (∀ f ∈ fs, IsReal f.c1) → out = fs)) ∧
  ∀ (α : Type) [DecidableEq α] (d : Device α) (r : α → ℝ) (fs : List (Frame α)), Exact d.num r →
    let out := (blockRun d fs (Block.reset d)).1
    out.map (fun y => r y.c0) = fs.map (fun y => r y.c0) ∧
    (d.nch = 2 → out.map (fun y => r y.c1) = fs.map fun y => r y.c1)

/-- R199, R194: a line read at a constant integer offset of `k` samples and written with the input gives the input back `k`
ticks later, the stored Samples themselves, and 0 before, from any write index; in every number system that is exact on the
integers up to the capacity. -/
def Obligations.DelayLineRoundTrip : Prop :=
  ∀ (α : Type) [DecidableEq α] (N : NumSys α) (fs off : α) (cap k w : Nat) (xs : List α),
    IntegersExact N cap → N.mul off fs = N.ofInt k → 1 ≤ k → k ≤ cap → w < cap →
    lineRun N fs cap off xs w [] = (List.replicate k N.zero ++ xs).take xs.length

/-- R192 to R194: a read at `k + φ` samples, `0 < φ < 1`, within the line, is the Sample written `k` ticks ago weighted
by `1 − φ` plus the one written `k + 1` ticks ago weighted by `φ`; below 1 it is the latest Sample, above the capacity
the oldest; in every exact number system. -/
def Obligations.DelayReadInterpolates : Prop :=
  ∀ (α : Type) (N : NumSys α) (r : α → ℝ) (cap w : Nat) (m : Memory α) (fs off : α), Exact N r → 0 < cap → w < cap →
    let d := r off * r fs
    let ago (k : Nat) : α := m.read N.zero (((w : Int) - (k : Int)) % (cap : Int)).toNat
    (d ≤ 1 → dlRead N fs cap w m off = ago 1) ∧
    ((cap : ℝ) ≤ d → dlRead N fs cap w m off = ago cap) ∧
    (∀ k : Nat, 1 ≤ k → k ≤ cap → d = k → dlRead N fs cap w m off = ago k) ∧
    ∀ k : Nat, 1 ≤ k → k < cap → (k : ℝ) < d → d < (k : ℝ) + 1 →
      r (dlRead N fs cap w m off) = r (ago (k + 1)) * (d - (k : ℝ)) + r (ago k) * (1 - (d - (k : ℝ)))

/-- R268: the wet path of the reverb over a run is the convolution `y[n] = Σ ir[k] × x[n − k]`, with `x` zero before
the run, in every exact number system. -/
def Obligations.ReverbConvolves : Prop :=
  ∀ (α : Type) [DecidableEq α] (N : NumSys α) (r : α → ℝ) (cap len hw : Nat) (ir : Nat → α) (xs : List α) (n : Nat),
    Exact N r → len ≤ cap → hw < cap → n < xs.length →
    ∃ y, (reverbRun N cap len ir xs hw [])[n]? = some y ∧
      r y = ∑ k ∈ Finset.range len, r (ir k) * (if k ≤ n then r (xs[n - k]?.getD N.zero) else 0)

/-- R277, R272: two generations with one duration have one length, whatever the draws; over the reals the envelope falls
strictly, for every positive exponent, and a buffer made of draws in [−1, 1] lies in [−1, 1]. -/
def Obligations.ImpulseLengthAndDecay : Prop :=
  (∀ (α : Type) (N : NumSys α) (fs e dur : α) (cap : Nat) (u v : Nat → α),
    (gen N fs e cap u dur).1 = (gen N fs e cap v dur).1 ∧
    (gen N fs e cap u dur).2.1.length = (gen N fs e cap u dur).1 ∧
    (gen N fs e cap u dur).2.2.length = (gen N fs e cap v dur).1) ∧
  (∀ (e : ℝ) (l m n : Nat), 0 < e → m < n → n < l → irEnvelope numReal e l n < irEnvelope numReal e l m) ∧
  ∀ (fs e dur : ℝ) (cap : Nat) (u : Nat → ℝ), 0 < e → (∀ n, -1 ≤ u n ∧ u n ≤ 1) →
    ∀ x ∈ (gen numReal fs e cap u dur).2.1 ++ (gen numReal fs e cap u dur).2.2, -1 ≤ x ∧ x ≤ 1

/-! ## Laws of the envelope -/

/-- R294 to R302: a full cycle, in every number system. From any phase, `TRIG` and then `N(attack)` TICKs end at 1
exactly; `N(decay)` more at the sustain level; it is held; `REL` and then `N(release)` TICKs end at 0 exactly, in Idle. -/
def Obligations.EnvelopeFullCycle : Prop :=
  ∀ (s t u : State) (fa fd fh fr : List (Frame Scalar)), exec .trig s = .next t →
    fa.length = phaseTicks s.sys s.device.fs s.par.envAttack → fd.length = phaseTicks s.sys s.device.fs s.par.envDecay →
    fr.length = phaseTicks s.sys s.device.fs s.par.envRelease →
    exec .rel (processBlock fh (processBlock fd (processBlock fa t).2).2).2 = .next u →
    (processBlock fa t).2.env =
      { ph := .decay, k := 0, n := fd.length, start := s.sys.one, amp := s.sys.one } ∧
    (processBlock fh (processBlock fd (processBlock fa t).2).2).2.env =
      { ph := .sustain, k := 0, n := 1, start := s.par.envSustain, amp := s.par.envSustain } ∧
    (processBlock fr u).2.env = { ph := .idle, k := 0, n := 1, start := s.sys.zero, amp := s.sys.zero }

/-! ## Laws of `NUM_REAL` over the reals -/

/-- R122, R123: the laws of the smoother for `TAU > 0`: a settled value stays; the distance to the target shrinks by
`KS`, which lies strictly between 0 and 1; after `n` ticks by `KS^n`, below 1% once `n >= 5 × TAU × FS`; and for
`TAU <= 0` the target is taken at once. -/
def Obligations.SmootherApproachesTarget : Prop :=
  ∀ (fs tau t c : ℝ), 0 < fs →
    (tau ≤ 0 → smooth numReal fs tau t c = t) ∧
    (0 < tau → smooth numReal fs tau t t = t ∧ 0 < numReal.ks fs tau ∧ numReal.ks fs tau < 1 ∧
      smooth numReal fs tau t c - t = numReal.ks fs tau * (c - t) ∧
      ∀ n : Nat, (smooth numReal fs tau t)^[n] c = t + (c - t) * numReal.ks fs tau ^ n ∧
        (5 * tau * fs ≤ n → c ≠ t → |(smooth numReal fs tau t)^[n] c - t| < |c - t| / 100))

/-- R181, R26: the phase stays in `[0, 2π)` and is the advanced phase less whole turns, so the guard never fires; the
value is its sine, in `[−1, 1]`. -/
def Obligations.LfoStaysOnCircle : Prop :=
  ∀ (fs rate : ℝ) (l : Lfo ℝ),
    let l' := lfoTick numReal fs rate l
    0 ≤ l'.phase ∧ l'.phase < 2 * Real.pi ∧ l'.val = Real.sin l'.phase ∧ -1 ≤ l'.val ∧ l'.val ≤ 1 ∧
    ∃ k : Int, l'.phase = l.phase + 2 * Real.pi * rate * (1 / fs) - 2 * Real.pi * k

/-- R154: the divisor `A0` is positive for every type, every frequency whatever, every gain and every `Q > 0`. -/
def Obligations.LeadingCoefficientIsPositive : Prop :=
  ∀ (fs fMin fMax f q g : ℝ), FrequencyBounds fs fMin fMax → 0 < q →
    let cw := Real.cos (omega numReal fs fMin fMax f)
    let sw := Real.sin (omega numReal fs fMin fMax f)
    0 < (rawCoef numReal cw sw (.lowpass q)).a0 ∧ 0 < (rawCoef numReal cw sw (.highpass q)).a0 ∧
    0 < (rawCoef numReal cw sw (.allpass q)).a0 ∧ 0 < (rawCoef numReal cw sw (.peaking q g)).a0 ∧
    0 < (rawCoef numReal cw sw (.lowshelf g)).a0 ∧ 0 < (rawCoef numReal cw sw (.highshelf g)).a0

/-- R159: the magnitude of the transfer function at the cutoff: `Q` for lowpass and highpass, `A²` for peaking, `A` for
both shelves, `A = 10^(g ÷ 40)`. -/
def Obligations.MagnitudeAtCutoff : Prop :=
  ∀ (fs fMin fMax f q g : ℝ), FrequencyBounds fs fMin fMax → 0 < q →
    let co (shape : Shape ℝ) : Coef ℝ := coef numReal fs fMin fMax shape f
    let z := atCutoff fs fMin fMax f
    let a : ℝ := (10 : ℝ) ^ (g / 40)
    ‖transfer (co (.lowpass q)) z‖ = q ∧ ‖transfer (co (.highpass q)) z‖ = q ∧
    ‖transfer (co (.peaking q g)) z‖ = a ^ 2 ∧
    ‖transfer (co (.lowshelf g)) z‖ = a ∧ ‖transfer (co (.highshelf g)) z‖ = a

/-- R159: the allpass has magnitude 1 at every frequency; at frequency 0 and at `FS/2` the lowpass has gain 1 and 0, the
highpass 0 and 1, the peak 1 and 1, the low shelf `A²` and 1, the high shelf 1 and `A²`. -/
def Obligations.GainsAtZeroAndNyquist : Prop :=
  ∀ (fs fMin fMax f q g w : ℝ), FrequencyBounds fs fMin fMax → 0 < q →
    let co (shape : Shape ℝ) : Coef ℝ := coef numReal fs fMin fMax shape f
    let a : ℝ := (10 : ℝ) ^ (g / 40)
    ‖transfer (co (.allpass q)) (Complex.exp (w * Complex.I))‖ = 1 ∧
    transfer (co (.lowpass q)) 1 = 1 ∧ transfer (co (.lowpass q)) (-1) = 0 ∧
    transfer (co (.highpass q)) 1 = 0 ∧ transfer (co (.highpass q)) (-1) = 1 ∧
    transfer (co (.peaking q g)) 1 = 1 ∧ transfer (co (.peaking q g)) (-1) = 1 ∧
    transfer (co (.lowshelf g)) 1 = (a ^ 2 : ℝ) ∧ transfer (co (.lowshelf g)) (-1) = 1 ∧
    transfer (co (.highshelf g)) 1 = 1 ∧ transfer (co (.highshelf g)) (-1) = (a ^ 2 : ℝ)

/-- R159: at 0 dB the peak and the shelves have `(b0, b1, b2) = (1, a1, a2)`, so the filter passes the signal unchanged:
from the zero history of reset, and from every history whose inputs and outputs agree, a run of any input puts out that
input. -/
def Obligations.ZeroGainIsIdentity : Prop :=
  ∀ (fs fMin fMax f q : ℝ), FrequencyBounds fs fMin fMax → 0 < q →
    let co (shape : Shape ℝ) : Coef ℝ := coef numReal fs fMin fMax shape f
    let flat (c : Coef ℝ) : Prop := c.b0 = 1 ∧ c.b1 = c.a1 ∧ c.b2 = c.a2 ∧
      ∀ (u v : ℝ) (xs : List ℝ), biquadRun numReal c { x1 := u, x2 := v, y1 := u, y2 := v } xs = xs
    flat (co (.peaking q 0)) ∧ flat (co (.lowshelf 0)) ∧ flat (co (.highshelf 0))

/-! ## Formulas and formats -/

/-- R152 to R155: the coefficients of the six filter types, written out, in every number system: `w0` from the clamped
frequency, the six raw values, and the five that are kept, each divided by `A0`. -/
def Obligations.CookbookCoefficients : Prop :=
  ∀ (α : Type) (N : NumSys α) (fs fMin fMax f q g : α),
    let fc := if N.lt f fMin = true then fMin else if N.lt fMax f = true then fMax else f
    let w0 := N.div (N.mul N.twoPi fc) fs
    let cw := N.cos w0
    let sw := N.sin w0
    let one := N.ofDec 1
    let two := N.ofDec 2
    let alpha := N.div sw (N.mul two q)
    let A := N.pow (N.ofDec 10) (N.div g (N.ofDec 40))
    let beta := N.mul (N.mul two (N.sqrt A)) (N.mul (N.div sw two) N.sqrt2)
    let p := N.add A one
    let m := N.sub A one
    let kept (b0 b1 b2 a0 a1 a2 : α) : Coef α :=
      { b0 := N.div b0 a0, b1 := N.div b1 a0, b2 := N.div b2 a0, a1 := N.div a1 a0, a2 := N.div a2 a0 }
    coef N fs fMin fMax (.lowpass q) f =
      kept (N.div (N.sub one cw) two) (N.sub one cw) (N.div (N.sub one cw) two)
        (N.add one alpha) (N.neg (N.mul two cw)) (N.sub one alpha) ∧
    coef N fs fMin fMax (.highpass q) f =
      kept (N.div (N.add one cw) two) (N.neg (N.add one cw)) (N.div (N.add one cw) two)
        (N.add one alpha) (N.neg (N.mul two cw)) (N.sub one alpha) ∧
    coef N fs fMin fMax (.allpass q) f =
      kept (N.sub one alpha) (N.neg (N.mul two cw)) (N.add one alpha)
        (N.add one alpha) (N.neg (N.mul two cw)) (N.sub one alpha) ∧
    coef N fs fMin fMax (.peaking q g) f =
      kept (N.add one (N.mul alpha A)) (N.neg (N.mul two cw)) (N.sub one (N.mul alpha A))
        (N.add one (N.div alpha A)) (N.neg (N.mul two cw)) (N.sub one (N.div alpha A)) ∧
    coef N fs fMin fMax (.lowshelf g) f =
      kept (N.mul A (N.add (N.sub p (N.mul m cw)) beta)) (N.mul (N.mul two A) (N.sub m (N.mul p cw)))
        (N.mul A (N.sub (N.sub p (N.mul m cw)) beta))
        (N.add (N.add p (N.mul m cw)) beta) (N.neg (N.mul two (N.add m (N.mul p cw))))
        (N.sub (N.add p (N.mul m cw)) beta) ∧
    coef N fs fMin fMax (.highshelf g) f =
      kept (N.mul A (N.add (N.add p (N.mul m cw)) beta)) (N.neg (N.mul (N.mul two A) (N.add m (N.mul p cw))))
        (N.mul A (N.sub (N.add p (N.mul m cw)) beta))
        (N.add (N.sub p (N.mul m cw)) beta) (N.mul two (N.sub m (N.mul p cw)))
        (N.sub (N.sub p (N.mul m cw)) beta)

/-- R94, R11: the number a finite pattern denotes in `NUM_REAL`, by its sign, biased exponent and fraction, over the reals
and on plain data; what `enc32` gives, on both, for a number no greater in magnitude than the greatest finite pattern: a
finite pattern that no other is nearer than (which of two is log 8's); and the arithmetic of `NUM_F32` on finite patterns: a
sum, difference, product, quotient or root is the nearest pattern, of two the even one, and comparisons and `floor` are those
of the numbers. -/
def Obligations.PatternsDenoteReals : Prop :=
  let finite (p : Val) : Prop := p.extractLsb' 23 8 ≠ 0xFF
  let value (p : Val) : ℝ := numReal.dec32 p
  let nearest (p : Val) (x : ℝ) : Prop := |x| ≤ (2 - 2 ^ (-23 : Int)) * 2 ^ 127 →
    finite p ∧ ∀ q, finite q → |value p - x| ≤ |value q - x|
  let nearestEven (p : Val) (x : ℝ) : Prop := |x| ≤ (2 - 2 ^ (-23 : Int)) * 2 ^ 127 →
    finite p ∧ ∀ q, finite q → |value p - x| < |value q - x| ∨
      |value p - x| = |value q - x| ∧ (value q = value p ∨ p.getLsbD 0 = false)
  (∀ p : Val, finite p →
    let sign : ℝ := if p.getLsbD 31 then -1 else 1
    let e : Int := ((p.extractLsb' 23 8).toNat : Int)
    let f : ℝ := ((p.extractLsb' 0 23).toNat : ℝ)
    value p =
      (if e = 0 then sign * (2 : ℝ) ^ (-126 : Int) * (f / 2 ^ 23) else sign * (2 : ℝ) ^ (e - 127) * (1 + f / 2 ^ 23)) ∧
    ∃ q : Rat, NumSys.real.dec32 p = .fin q ∧ (q : ℝ) = value p) ∧
  (∀ x : ℝ, nearest (numReal.enc32 x) x) ∧ (∀ q : Rat, nearest (NumSys.real.enc32 (.fin q)) q) ∧
  ∀ (fns : FnTable Val) (a b : Val), finite a → finite b →
    let N := numF32 fns
    nearestEven (N.add a b) (value a + value b) ∧ nearestEven (N.sub a b) (value a - value b) ∧
    nearestEven (N.mul a b) (value a * value b) ∧ (value b ≠ 0 → nearestEven (N.div a b) (value a / value b)) ∧
    (0 ≤ value a → nearestEven (N.sqrt a) (Real.sqrt (value a))) ∧
    (N.lt a b = true ↔ value a < value b) ∧ (N.le a b = true ↔ value a ≤ value b) ∧ N.floor a = ⌊value a⌋
end

