-- ==== Sys2Proof/Laws/State.lean ====
section
/-! SUPPORT. The fields of the block under each update of Machine/Ops.lean, those of the machine under a change of its
block, and the register files under each write. -/

namespace Sys2Proof.Machine

variable {α : Type}

/-! ## Register files -/

theorem Params.setTgt_s (r : Params α) (p q : SParam) (v : α) :
    (r.setTgt p v).s q = if q = p then { r.s q with tgt := v } else r.s q := by
  cases p <;> cases q <;> rfl

@[simp] theorem Params.setTgt_s_self (r : Params α) (p : SParam) (v : α) :
    (r.setTgt p v).s p = { r.s p with tgt := v } := by
  simp [Params.setTgt_s]

@[simp] theorem Params.setTgt_cur (r : Params α) (p q : SParam) (v : α) :
    ((r.setTgt p v).s q).cur = (r.s q).cur := by
  rw [Params.setTgt_s]; split <;> rfl

@[simp] theorem Params.setTgt_h (r : Params α) (p : SParam) (q : HParam) (v : α) :
    (r.setTgt p v).h q = r.h q := by
  cases p <;> cases q <;> rfl

@[simp] theorem Params.setHeld_s (r : Params α) (p : HParam) (q : SParam) (v : α) :
    (r.setHeld p v).s q = r.s q := by
  cases p <;> cases q <;> rfl

theorem Params.setHeld_h (r : Params α) (p q : HParam) (v : α) :
    (r.setHeld p v).h q = if q = p then v else r.h q := by
  cases p <;> cases q <;> rfl

@[simp] theorem Params.setHeld_h_self (r : Params α) (p : HParam) (v : α) : (r.setHeld p v).h p = v := by
  simp [Params.setHeld_h]

@[simp] theorem Params.mapSmoothed_s (f : Smoothed α → Smoothed α) (r : Params α) (p : SParam) :
    (r.mapSmoothed f).s p = f (r.s p) := by
  cases p <;> rfl

@[simp] theorem Params.mapSmoothed_h (f : Smoothed α → Smoothed α) (r : Params α) (p : HParam) :
    (r.mapSmoothed f).h p = r.h p := by
  cases p <;> rfl

theorem Mixes.setActive_of (m : Mixes α) (st q : Stage) (a : Bool) :
    (m.setActive st a).of q = if q = st then { m.of q with active := a } else m.of q := by
  cases st <;> cases q <;> rfl

@[simp] theorem Mixes.setActive_wet (m : Mixes α) (st q : Stage) (a : Bool) :
    ((m.setActive st a).of q).wet = (m.of q).wet := by
  rw [Mixes.setActive_of]; split <;> rfl

@[simp] theorem Mixes.setActive_dry (m : Mixes α) (st q : Stage) (a : Bool) :
    ((m.setActive st a).of q).dry = (m.of q).dry := by
  rw [Mixes.setActive_of]; split <;> rfl

@[simp] theorem Mixes.mapStages_of (f : Stage → MixState α → MixState α) (m : Mixes α) (st : Stage) :
    (m.mapStages f).of st = f st (m.of st) := by
  cases st <;> rfl

/-! ## The block -/

namespace Block

variable (b : Block α)

@[simp] theorem setTgt_par (p : SParam) (v : α) : (b.setTgt p v).par = b.par.setTgt p v := rfl
@[simp] theorem setTgt_mix (p : SParam) (v : α) : (b.setTgt p v).mix = b.mix := rfl
@[simp] theorem setTgt_coef (p : SParam) (v : α) : (b.setTgt p v).coef = b.coef := rfl
@[simp] theorem setTgt_lfo (p : SParam) (v : α) : (b.setTgt p v).lfo = b.lfo := rfl
@[simp] theorem setTgt_widx (p : SParam) (v : α) : (b.setTgt p v).widx = b.widx := rfl
@[simp] theorem setTgt_hw (p : SParam) (v : α) : (b.setTgt p v).hw = b.hw := rfl
@[simp] theorem setTgt_irSel (p : SParam) (v : α) : (b.setTgt p v).irSel = b.irSel := rfl
@[simp] theorem setTgt_irLen (p : SParam) (v : α) : (b.setTgt p v).irLen = b.irLen := rfl
@[simp] theorem setTgt_irVer (p : SParam) (v : α) : (b.setTgt p v).irVer = b.irVer := rfl
@[simp] theorem setTgt_job (p : SParam) (v : α) : (b.setTgt p v).job = b.job := rfl
@[simp] theorem setTgt_env (p : SParam) (v : α) : (b.setTgt p v).env = b.env := rfl
@[simp] theorem setTgt_badcmd (p : SParam) (v : α) : (b.setTgt p v).badcmd = b.badcmd := rfl
@[simp] theorem setTgt_ch0 (p : SParam) (v : α) : (b.setTgt p v).ch0 = b.ch0 := rfl
@[simp] theorem setTgt_ch1 (p : SParam) (v : α) : (b.setTgt p v).ch1 = b.ch1 := rfl
@[simp] theorem setTgt_bank0 (p : SParam) (v : α) : (b.setTgt p v).bank0 = b.bank0 := rfl
@[simp] theorem setTgt_bank1 (p : SParam) (v : α) : (b.setTgt p v).bank1 = b.bank1 := rfl

@[simp] theorem setHeld_par (p : HParam) (v : α) : (b.setHeld p v).par = b.par.setHeld p v := rfl
@[simp] theorem setHeld_mix (p : HParam) (v : α) : (b.setHeld p v).mix = b.mix := rfl
@[simp] theorem setHeld_coef (p : HParam) (v : α) : (b.setHeld p v).coef = b.coef := rfl
@[simp] theorem setHeld_lfo (p : HParam) (v : α) : (b.setHeld p v).lfo = b.lfo := rfl
@[simp] theorem setHeld_widx (p : HParam) (v : α) : (b.setHeld p v).widx = b.widx := rfl
@[simp] theorem setHeld_hw (p : HParam) (v : α) : (b.setHeld p v).hw = b.hw := rfl
@[simp] theorem setHeld_irSel (p : HParam) (v : α) : (b.setHeld p v).irSel = b.irSel := rfl
@[simp] theorem setHeld_irLen (p : HParam) (v : α) : (b.setHeld p v).irLen = b.irLen := rfl
@[simp] theorem setHeld_irVer (p : HParam) (v : α) : (b.setHeld p v).irVer = b.irVer := rfl
@[simp] theorem setHeld_job (p : HParam) (v : α) : (b.setHeld p v).job = b.job := rfl
@[simp] theorem setHeld_env (p : HParam) (v : α) : (b.setHeld p v).env = b.env := rfl
@[simp] theorem setHeld_badcmd (p : HParam) (v : α) : (b.setHeld p v).badcmd = b.badcmd := rfl
@[simp] theorem setHeld_ch0 (p : HParam) (v : α) : (b.setHeld p v).ch0 = b.ch0 := rfl
@[simp] theorem setHeld_ch1 (p : HParam) (v : α) : (b.setHeld p v).ch1 = b.ch1 := rfl
@[simp] theorem setHeld_bank0 (p : HParam) (v : α) : (b.setHeld p v).bank0 = b.bank0 := rfl
@[simp] theorem setHeld_bank1 (p : HParam) (v : α) : (b.setHeld p v).bank1 = b.bank1 := rfl

@[simp] theorem setActive_par (st : Stage) (a : Bool) : (b.setActive st a).par = b.par := rfl
@[simp] theorem setActive_mix (st : Stage) (a : Bool) : (b.setActive st a).mix = b.mix.setActive st a := rfl
@[simp] theorem setActive_coef (st : Stage) (a : Bool) : (b.setActive st a).coef = b.coef := rfl
@[simp] theorem setActive_lfo (st : Stage) (a : Bool) : (b.setActive st a).lfo = b.lfo := rfl
@[simp] theorem setActive_widx (st : Stage) (a : Bool) : (b.setActive st a).widx = b.widx := rfl
@[simp] theorem setActive_hw (st : Stage) (a : Bool) : (b.setActive st a).hw = b.hw := rfl
@[simp] theorem setActive_irSel (st : Stage) (a : Bool) : (b.setActive st a).irSel = b.irSel := rfl
@[simp] theorem setActive_irLen (st : Stage) (a : Bool) : (b.setActive st a).irLen = b.irLen := rfl
@[simp] theorem setActive_irVer (st : Stage) (a : Bool) : (b.setActive st a).irVer = b.irVer := rfl
@[simp] theorem setActive_job (st : Stage) (a : Bool) : (b.setActive st a).job = b.job := rfl
@[simp] theorem setActive_env (st : Stage) (a : Bool) : (b.setActive st a).env = b.env := rfl
@[simp] theorem setActive_badcmd (st : Stage) (a : Bool) : (b.setActive st a).badcmd = b.badcmd := rfl
@[simp] theorem setActive_ch0 (st : Stage) (a : Bool) : (b.setActive st a).ch0 = b.ch0 := rfl
@[simp] theorem setActive_ch1 (st : Stage) (a : Bool) : (b.setActive st a).ch1 = b.ch1 := rfl
@[simp] theorem setActive_bank0 (st : Stage) (a : Bool) : (b.setActive st a).bank0 = b.bank0 := rfl
@[simp] theorem setActive_bank1 (st : Stage) (a : Bool) : (b.setActive st a).bank1 = b.bank1 := rfl

@[simp] theorem setJob_par (j : Option α) : (b.setJob j).par = b.par := rfl
@[simp] theorem setJob_mix (j : Option α) : (b.setJob j).mix = b.mix := rfl
@[simp] theorem setJob_coef (j : Option α) : (b.setJob j).coef = b.coef := rfl
@[simp] theorem setJob_lfo (j : Option α) : (b.setJob j).lfo = b.lfo := rfl
@[simp] theorem setJob_widx (j : Option α) : (b.setJob j).widx = b.widx := rfl
@[simp] theorem setJob_hw (j : Option α) : (b.setJob j).hw = b.hw := rfl
@[simp] theorem setJob_irSel (j : Option α) : (b.setJob j).irSel = b.irSel := rfl
@[simp] theorem setJob_irLen (j : Option α) : (b.setJob j).irLen = b.irLen := rfl
@[simp] theorem setJob_irVer (j : Option α) : (b.setJob j).irVer = b.irVer := rfl
@[simp] theorem setJob_job (j : Option α) : (b.setJob j).job = j := rfl
@[simp] theorem setJob_env (j : Option α) : (b.setJob j).env = b.env := rfl
@[simp] theorem setJob_badcmd (j : Option α) : (b.setJob j).badcmd = b.badcmd := rfl
@[simp] theorem setJob_ch0 (j : Option α) : (b.setJob j).ch0 = b.ch0 := rfl
@[simp] theorem setJob_ch1 (j : Option α) : (b.setJob j).ch1 = b.ch1 := rfl
@[simp] theorem setJob_bank0 (j : Option α) : (b.setJob j).bank0 = b.bank0 := rfl
@[simp] theorem setJob_bank1 (j : Option α) : (b.setJob j).bank1 = b.bank1 := rfl

@[simp] theorem setEnv_par (e : Env α) : (b.setEnv e).par = b.par := rfl
@[simp] theorem setEnv_mix (e : Env α) : (b.setEnv e).mix = b.mix := rfl
@[simp] theorem setEnv_coef (e : Env α) : (b.setEnv e).coef = b.coef := rfl
@[simp] theorem setEnv_lfo (e : Env α) : (b.setEnv e).lfo = b.lfo := rfl
@[simp] theorem setEnv_widx (e : Env α) : (b.setEnv e).widx = b.widx := rfl
@[simp] theorem setEnv_hw (e : Env α) : (b.setEnv e).hw = b.hw := rfl
@[simp] theorem setEnv_irSel (e : Env α) : (b.setEnv e).irSel = b.irSel := rfl
@[simp] theorem setEnv_irLen (e : Env α) : (b.setEnv e).irLen = b.irLen := rfl
@[simp] theorem setEnv_irVer (e : Env α) : (b.setEnv e).irVer = b.irVer := rfl
@[simp] theorem setEnv_job (e : Env α) : (b.setEnv e).job = b.job := rfl
@[simp] theorem setEnv_env (e : Env α) : (b.setEnv e).env = e := rfl
@[simp] theorem setEnv_badcmd (e : Env α) : (b.setEnv e).badcmd = b.badcmd := rfl
@[simp] theorem setEnv_ch0 (e : Env α) : (b.setEnv e).ch0 = b.ch0 := rfl
@[simp] theorem setEnv_ch1 (e : Env α) : (b.setEnv e).ch1 = b.ch1 := rfl
@[simp] theorem setEnv_bank0 (e : Env α) : (b.setEnv e).bank0 = b.bank0 := rfl
@[simp] theorem setEnv_bank1 (e : Env α) : (b.setEnv e).bank1 = b.bank1 := rfl

@[simp] theorem reject_par : b.reject.par = b.par := rfl
@[simp] theorem reject_mix : b.reject.mix = b.mix := rfl
@[simp] theorem reject_coef : b.reject.coef = b.coef := rfl
@[simp] theorem reject_lfo : b.reject.lfo = b.lfo := rfl
@[simp] theorem reject_widx : b.reject.widx = b.widx := rfl
@[simp] theorem reject_hw : b.reject.hw = b.hw := rfl
@[simp] theorem reject_irSel : b.reject.irSel = b.irSel := rfl
@[simp] theorem reject_irLen : b.reject.irLen = b.irLen := rfl
@[simp] theorem reject_irVer : b.reject.irVer = b.irVer := rfl
@[simp] theorem reject_job : b.reject.job = b.job := rfl
@[simp] theorem reject_env : b.reject.env = b.env := rfl
@[simp] theorem reject_badcmd : b.reject.badcmd = true := rfl
@[simp] theorem reject_ch0 : b.reject.ch0 = b.ch0 := rfl
@[simp] theorem reject_ch1 : b.reject.ch1 = b.ch1 := rfl
@[simp] theorem reject_bank0 : b.reject.bank0 = b.bank0 := rfl
@[simp] theorem reject_bank1 : b.reject.bank1 = b.bank1 := rfl

@[simp] theorem setShadow_par (k : Bank α) : (b.setShadow k).par = b.par := by
  cases h : b.irSel <;> simp [setShadow, h]
@[simp] theorem setShadow_mix (k : Bank α) : (b.setShadow k).mix = b.mix := by
  cases h : b.irSel <;> simp [setShadow, h]
@[simp] theorem setShadow_coef (k : Bank α) : (b.setShadow k).coef = b.coef := by
  cases h : b.irSel <;> simp [setShadow, h]
@[simp] theorem setShadow_lfo (k : Bank α) : (b.setShadow k).lfo = b.lfo := by
  cases h : b.irSel <;> simp [setShadow, h]
@[simp] theorem setShadow_widx (k : Bank α) : (b.setShadow k).widx = b.widx := by
  cases h : b.irSel <;> simp [setShadow, h]
@[simp] theorem setShadow_hw (k : Bank α) : (b.setShadow k).hw = b.hw := by
  cases h : b.irSel <;> simp [setShadow, h]
@[simp] theorem setShadow_irSel (k : Bank α) : (b.setShadow k).irSel = b.irSel := by
  cases h : b.irSel <;> simp [setShadow, h]
@[simp] theorem setShadow_irLen (k : Bank α) : (b.setShadow k).irLen = b.irLen := by
  cases h : b.irSel <;> simp [setShadow, h]
@[simp] theorem setShadow_irVer (k : Bank α) : (b.setShadow k).irVer = b.irVer := by
  cases h : b.irSel <;> simp [setShadow, h]
@[simp] theorem setShadow_job (k : Bank α) : (b.setShadow k).job = b.job := by
  cases h : b.irSel <;> simp [setShadow, h]
@[simp] theorem setShadow_env (k : Bank α) : (b.setShadow k).env = b.env := by
  cases h : b.irSel <;> simp [setShadow, h]
@[simp] theorem setShadow_badcmd (k : Bank α) : (b.setShadow k).badcmd = b.badcmd := by
  cases h : b.irSel <;> simp [setShadow, h]
@[simp] theorem setShadow_ch0 (k : Bank α) : (b.setShadow k).ch0 = b.ch0 := by
  cases h : b.irSel <;> simp [setShadow, h]
@[simp] theorem setShadow_ch1 (k : Bank α) : (b.setShadow k).ch1 = b.ch1 := by
  cases h : b.irSel <;> simp [setShadow, h]

/-- Writing the shadow bank leaves the live one. -/
@[simp] theorem setShadow_liveBank (k : Bank α) : (b.setShadow k).liveBank = b.liveBank := by
  cases h : b.irSel <;> simp [setShadow, liveBank, h]

@[simp] theorem setShadow_shadowBank (k : Bank α) : (b.setShadow k).shadowBank = k := by
  cases h : b.irSel <;> simp [setShadow, shadowBank, h]

end Block

/-! ## The machine -/

namespace State

variable (s : State) (f : Block Scalar → Block Scalar)

@[simp] theorem onBlock_toBlock : (s.onBlock f).toBlock = f s.toBlock := rfl
@[simp] theorem onBlock_cfg : (s.onBlock f).cfg = s.cfg := rfl
@[simp] theorem onBlock_inbox : (s.onBlock f).inbox = s.inbox := rfl
@[simp] theorem onBlock_rngPos : (s.onBlock f).rngPos = s.rngPos := rfl
@[simp] theorem onBlock_out : (s.onBlock f).out = s.out := rfl
@[simp] theorem onBlock_envOut : (s.onBlock f).envOut = s.envOut := rfl
@[simp] theorem onBlock_readData : (s.onBlock f).readData = s.readData := rfl

@[simp] theorem reject_toBlock : s.reject.toBlock = s.toBlock.reject := rfl
@[simp] theorem reject_cfg : s.reject.cfg = s.cfg := rfl
@[simp] theorem reject_inbox : s.reject.inbox = s.inbox := rfl

end State

/-! ## The shared `SETP` operations: everything they can do -/

theorem setpSmoothed_cases (d : Device α) (p : SParam) (val : Val) (b : Block α) :
    (p.operand d val = none ∧ setpSmoothed d p val b = b.reject) ∨
    ∃ v, p.operand d val = some v ∧ setpSmoothed d p val b = b.setTgt p v := by
  cases h : p.operand d val <;> simp [setpSmoothed, h]

theorem setpHeld_cases (d : Device α) (p : HParam) (val : Val) (b : Block α) :
    (p.operand d val = none ∧ setpHeld d p val b = b.reject) ∨
    ∃ v, p.operand d val = some v ∧ setpHeld d p val b = b.setHeld p v := by
  cases h : p.operand d val <;> simp [setpHeld, h]

theorem setpTime_cases (d : Device α) (val : Val) (b : Block α) :
    (HParam.operand d .revTime val = none ∧ setpTime d val b = b.reject) ∨
    ∃ v, HParam.operand d .revTime val = some v ∧
      setpTime d val b = (b.setHeld .revTime v).setJob (some (reverbDuration d.num v)) := by
  cases h : HParam.operand d .revTime val <;> simp [setpTime, h]

end Sys2Proof.Machine
end

