-- ==== Sys2Proof/Laws/Exec.lean ====
section
/-! SUPPORT. Everything a step can do, once: the inversion lemmas of `command` and `deviceStep` over any carrier, and of
`exec` and `step`. -/

namespace Sys2Proof.Machine

variable {α : Type}

/-- One of the 41 commands: an instruction some word encodes (30_encoding.md R100). -/
def isCommand (i : Instr) : Bool := (encode i).isSome

/-! ## A command on a block -/

/-- What a command can do to a block, by kind. -/
inductive Effect (d : Device α) (i : Instr) (b : Block α) : Block α → Prop where
  | nop (h : i = .nop) : Effect d i b b
  | rejected (h : i.wf = false) : Effect d i b b.reject
  | target (p : SParam) (v : α) (hp : p ≠ .flaDepth ∧ p ≠ .choDepth) (hv : ∃ val, p.operand d val = some v) :
      Effect d i b (b.setTgt p v)
  | held (p : HParam) (v : α) (hp : p ≠ .revTime) (hv : ∃ val, p.operand d val = some v) : Effect d i b (b.setHeld p v)
  | time (val : Val) (v : α) (h : i = .setpRevTime val) (hv : HParam.operand d .revTime val = some v) :
      Effect d i b ((b.setHeld .revTime v).setJob (some (reverbDuration d.num v)))
  | active (st : Stage) (a : Bool) : Effect d i b (b.setActive st a)
  | trig (h : i = .trig) : Effect d i b (trigger d b)
  | rel (h : i = .rel) : Effect d i b (release d b)

theorem operand_none {N : NumSys α} {lo hi : α} {val : Val} {f : α → α}
    (h : (operandValue N lo hi val).map f = none) : isNaNPattern val = true := by
  unfold operandValue at h
  split at h
  · assumption
  · split at h
    · simp at h
    · split at h <;> simp at h

/-- The value a `SETP` stores is a legal one, made of a bound or of the number of the pattern (30_encoding.md R98, R99). -/
theorem operand_some {N : NumSys α} {lo hi v : α} {val : Val} {f : α → α}
    (h : (operandValue N lo hi val).map f = some v) : ∃ w, (w = lo ∨ w = hi ∨ w = N.dec32 val) ∧ v = f w := by
  obtain ⟨w, hw, rfl⟩ := Option.map_eq_some_iff.mp h
  refine ⟨w, ?_, rfl⟩
  unfold operandValue at hw
  split_ifs at hw <;> cases hw <;> simp

section
variable {d : Device α} {i : Instr} {b : Block α}

theorem setpSmoothed_effect (p : SParam) (val : Val) (hp : p ≠ .flaDepth ∧ p ≠ .choDepth)
    (hw : i.wf = !isNaNPattern val) : Effect d i b (setpSmoothed d p val b) := by
  rcases setpSmoothed_cases d p val b with ⟨h, e⟩ | ⟨v, h, e⟩ <;> rw [e]
  · exact .rejected (by simp [hw, operand_none h])
  · exact .target p v hp ⟨val, h⟩

theorem setpHeld_effect (p : HParam) (val : Val) (hp : p ≠ .revTime) (hw : i.wf = !isNaNPattern val) :
    Effect d i b (setpHeld d p val b) := by
  rcases setpHeld_cases d p val b with ⟨h, e⟩ | ⟨v, h, e⟩ <;> rw [e]
  · exact .rejected (by simp [hw, operand_none h])
  · exact .held p v hp ⟨val, h⟩

end

/-- A command has one of the effects above. -/
theorem command_effect (d : Device α) {i : Instr} (b : Block α) (h : isCommand i = true) :
    Effect d i b (command d b i) := by
  cases i with
  | nop => exact .nop rfl
  | setpHpfFrequency v => exact setpSmoothed_effect _ v (by decide) rfl
  | setpHpfQ v => exact setpSmoothed_effect _ v (by decide) rfl
  | setpLpfFrequency v => exact setpSmoothed_effect _ v (by decide) rfl
  | setpLpfQ v => exact setpSmoothed_effect _ v (by decide) rfl
  | setpEqlFrequency v => exact setpSmoothed_effect _ v (by decide) rfl
  | setpEqlGain v => exact setpSmoothed_effect _ v (by decide) rfl
  | setpEqmFrequency v => exact setpSmoothed_effect _ v (by decide) rfl
  | setpEqmQ v => exact setpSmoothed_effect _ v (by decide) rfl
  | setpEqmGain v => exact setpSmoothed_effect _ v (by decide) rfl
  | setpEqhFrequency v => exact setpSmoothed_effect _ v (by decide) rfl
  | setpEqhGain v => exact setpSmoothed_effect _ v (by decide) rfl
  | setpPhaRate v => exact setpSmoothed_effect _ v (by decide) rfl
  | setpPhaDepth v => exact setpSmoothed_effect _ v (by decide) rfl
  | setpPhaMix v => exact setpHeld_effect _ v (by decide) rfl
  | setpFlaRate v => exact setpSmoothed_effect _ v (by decide) rfl
  | setpFlaFeedback v => exact setpSmoothed_effect _ v (by decide) rfl
  | setpFlaMix v => exact setpHeld_effect _ v (by decide) rfl
  | setpChoRate v => exact setpSmoothed_effect _ v (by decide) rfl
  | setpChoMix v => exact setpHeld_effect _ v (by decide) rfl
  | setpDlyTime v => exact setpSmoothed_effect _ v (by decide) rfl
  | setpDlyFeedback v => exact setpSmoothed_effect _ v (by decide) rfl
  | setpDlyMix v => exact setpHeld_effect _ v (by decide) rfl
  | setpRevTime v =>
    show Effect d _ b (setpTime d v b)
    rcases setpTime_cases d v b with ⟨h, e⟩ | ⟨w, h, e⟩ <;> rw [e]
    · exact .rejected (by simp [Instr.wf, operand_none h])
    · exact .time v w rfl h
  | setpRevMix v => exact setpHeld_effect _ v (by decide) rfl
  | setpEnvAttack v => exact setpHeld_effect _ v (by decide) rfl
  | setpEnvDecay v => exact setpHeld_effect _ v (by decide) rfl
  | setpEnvSustain v => exact setpHeld_effect _ v (by decide) rfl
  | setpEnvRelease v => exact setpHeld_effect _ v (by decide) rfl
  | setaHpf a => exact .active _ a
  | setaLpf a => exact .active _ a
  | setaEql a => exact .active _ a
  | setaEqm a => exact .active _ a
  | setaEqh a => exact .active _ a
  | setaPha a => exact .active _ a
  | setaFla a => exact .active _ a
  | setaCho a => exact .active _ a
  | setaDly a => exact .active _ a
  | setaRev a => exact .active _ a
  | trig => exact .trig rfl
  | rel => exact .rel rfl
  | tick f => cases h
  | read a => cases h
  | irgen u => cases h
  | reset => cases h

/-- A decoded instruction is a command. -/
theorem isCommand_of_decode {w : Word} {i : Instr} (h : decode w = .ok i) : isCommand i = true := by
  have hp : ∀ a b v j, setpOf a b v = some j → isCommand j = true := by
    intro a b v j hj
    unfold setpOf at hj
    split at hj <;> cases hj <;> rfl
  have ha : ∀ a b j, setaOf a b = some j → isCommand j = true := by
    intro a b j hj
    unfold setaOf at hj
    split at hj <;> cases hj <;> rfl
  unfold decode decodeSetp decodeSeta decodeEnv at h
  repeat' split at h
  all_goals first
    | (cases h; done)
    | (cases h; first | exact hp _ _ _ _ ‹_› | exact ha _ _ _ ‹_› | rfl)

/-- What a command word does: it is rejected, or its command has its effect. -/
theorem commandWord_cases (d : Device α) (w : Word) (b : Block α) :
    (∃ r, decode w = .error r ∧ commandWord d w b = b.reject) ∨
    ∃ i, decode w = .ok i ∧ commandWord d w b = command d b i ∧ Effect d i b (commandWord d w b) := by
  unfold commandWord
  cases h : decode w with
  | error r => exact .inl ⟨r, rfl, rfl⟩
  | ok i => exact .inr ⟨i, rfl, rfl, command_effect d b (isCommand_of_decode h)⟩

/-! ## A step of a device -/

/-- What an IRGEN step does: nothing, or a publication. -/
theorem irgenStep_cases [DecidableEq α] (d : Device α) (b : Block α) (u : Nat → α) :
    (b.job = none ∧ irgenStep d b u = b) ∨ ∃ dur, b.job = some dur ∧ irgenStep d b u = publish d b dur u := by
  unfold irgenStep
  cases h : b.job <;> simp

/-- What one step of a device can do, by agent. -/
theorem deviceStep_cases [DecidableEq α] {d : Device α} {a : Act α} {b t : Block α} {o : Output α}
    (h : deviceStep d a b = .ok (t, o)) :
    (∃ w, a = .word w ∧ t = commandWord d w b ∧ o = .nothing) ∨
    (∃ f, a = .tick f ∧ t = (tickBlock d b f).1 ∧ o = .frame (tickBlock d b f).2 (tickBlock d b f).1.env.amp) ∨
    (∃ given pos, a = .irgen given pos ∧ t = irgenStep d b (drawAt d given pos) ∧ o = .nothing) ∨
    (∃ addr, a = .read addr ∧ t = b ∧ o = .data (readPort d.num b addr)) ∨
    (a = .reset ∧ checkDevice d = none ∧ t = Block.reset d ∧ o = .nothing) := by
  cases a with
  | word w => cases h; exact .inl ⟨w, rfl, rfl, rfl⟩
  | tick f => cases h; exact .inr (.inl ⟨f, rfl, rfl, rfl⟩)
  | irgen given pos => cases h; exact .inr (.inr (.inl ⟨given, pos, rfl, rfl, rfl⟩))
  | read addr => cases h; exact .inr (.inr (.inr (.inl ⟨addr, rfl, rfl, rfl⟩)))
  | reset =>
    simp only [deviceStep, construct] at h
    cases hc : checkDevice d with
    | none => rw [hc] at h; cases h; exact .inr (.inr (.inr (.inr ⟨rfl, rfl, rfl, rfl⟩)))
    | some c => rw [hc] at h; cases h

/-! ## An instruction on the machine -/

/-- A command changes the block alone, as `command` says. -/
theorem exec_command {i : Instr} (s : State) (h : isCommand i = true) :
    exec i s = .next (s.onBlock fun b => command s.device b i) := by
  cases i <;> first | rfl | cases h

/-- The outcomes of an instruction: what it changes, by kind. -/
inductive Stepped (i : Instr) (s : State) : State → Prop where
  | command (h : isCommand i = true) (b : Block Scalar) (hb : b = command s.device s.toBlock i)
      (e : Effect s.device i s.toBlock b) : Stepped i s { s with toBlock := b }
  | tick (f : Frame Scalar) (h : i = .tick f) : Stepped i s (tick f s)
  | read (a : Addr) (h : i = .read a) : Stepped i s { s with readData := readPort s.sys s.toBlock a }
  | irgen (draws : List Scalar) (h : i = .irgen draws) :
      Stepped i s { s with
        toBlock := irgenStep s.device s.toBlock (drawAt s.device (draws.map s.cfg.num.read) s.rngPos)
        rngPos := s.rngPos + drawsUsed s.device s.toBlock (draws.map s.cfg.num.read) }
  | reset (h : i = .reset) (hc : checkCfg s.cfg = none) :
      Stepped i s { State.ofCfg s.cfg with inbox := s.inbox, rngPos := s.rngPos }

/-- An instruction that answers a next state has one of the outcomes above. -/
theorem exec_cases {i : Instr} {s t : State} (h : exec i s = .next t) : Stepped i s t := by
  by_cases hc : isCommand i = true
  · rw [exec_command s hc] at h
    cases h
    exact .command hc _ rfl (command_effect _ _ hc)
  · cases i with
    | tick f => cases h; exact .tick f rfl
    | read a => cases h; exact .read a rfl
    | irgen u => cases h; exact .irgen u rfl
    | reset =>
      simp only [exec, execReset, construct] at h
      cases hk : checkDevice s.device with
      | none => rw [hk] at h; cases h; exact .reset rfl hk
      | some c => rw [hk] at h; cases h
    | _ => exact absurd rfl hc

/-- Every instruction but RESET answers a next state, in every state. -/
theorem exec_total (i : Instr) (s : State) (h : i ≠ .reset) : ∃ t, exec i s = .next t := by
  cases i <;> first | exact ⟨_, rfl⟩ | exact absurd rfl h

/-- RESET answers a next state exactly when the configuration passes construction. -/
theorem exec_reset (s : State) : exec .reset s = match checkCfg s.cfg with
    | some c => .fault (.configurationError c)
    | none => .next { State.ofCfg s.cfg with inbox := s.inbox, rngPos := s.rngPos } := by
  simp only [exec, execReset, construct, checkCfg, State.device]
  cases checkDevice s.cfg.device <;> rfl

/-! ## Steps -/

theorem runEvent_word_ok {w : Word} {i : Instr} (s : State) (h : decode w = .ok i) :
    runEvent (.word w) s = exec i s := by simp [runEvent, h]

theorem runEvent_word_error {w : Word} {r : Reject} (s : State) (h : decode w = .error r) :
    runEvent (.word w) s = .next s.reject := by simp [runEvent, h]

@[simp] theorem step_nil {s : State} (h : s.inbox = []) : step s = .next s := by simp [step, runNext, h]

@[simp] theorem step_cons {s : State} {e : Event} {rest : List Event} (h : s.inbox = e :: rest) :
    step s = runEvent e { s with inbox := rest } := by simp [step, runNext, h]

/-- What one step can do: nothing, reject a word, or run one instruction with the entry taken. -/
theorem step_cases {s t : State} (h : step s = .next t) :
    (s.inbox = [] ∧ t = s) ∨
    (∃ w r rest, s.inbox = .word w :: rest ∧ decode w = .error r ∧ t = State.reject { s with inbox := rest }) ∨
    ∃ i e rest, s.inbox = e :: rest ∧ runEvent e { s with inbox := rest } = exec i { s with inbox := rest } ∧
      (∀ w, e = .word w → decode w = .ok i) ∧ Stepped i { s with inbox := rest } t := by
  cases hb : s.inbox with
  | nil => rw [step_nil hb] at h; cases h; exact .inl ⟨rfl, rfl⟩
  | cons e rest =>
    rw [step_cons hb] at h
    refine .inr ?_
    cases e with
    | word w =>
      cases hd : decode w with
      | error r => rw [runEvent_word_error _ hd] at h; cases h; exact .inl ⟨w, r, rest, rfl, hd, rfl⟩
      | ok i =>
        exact .inr ⟨i, _, rest, rfl, runEvent_word_ok _ hd, fun _ hw => by cases hw; exact hd,
          exec_cases (runEvent_word_ok _ hd ▸ h)⟩
    | tick f => exact .inr ⟨.tick f, _, rest, rfl, rfl, by simp, exec_cases (i := .tick f) h⟩
    | irgen u => exact .inr ⟨.irgen u, _, rest, rfl, rfl, by simp, exec_cases (i := .irgen u) h⟩
    | read a => exact .inr ⟨.read a, _, rest, rfl, rfl, by simp, exec_cases (i := .read a) h⟩
    | reset => exact .inr ⟨.reset, _, rest, rfl, rfl, by simp, exec_cases (i := .reset) h⟩

end Sys2Proof.Machine
end

