-- ==== Sys2Proof/Laws/Real.lean ====
section
/-! SUPPORT. The exact number systems (00_scope.md R11, R13): the operations of `NUM_REAL` on plain data and over the reals,
what holds in every exact system, and what a device that passes construction is (60_exceptions.md R321). -/

namespace Sys2Proof

@[simp] theorem Scalar.toRat_fin (q : Rat) : (Scalar.fin q).toRat = q := rfl

namespace NumSys

variable (f : RatFns) (a b : Scalar)

@[simp] theorem rational_add : (rational f).add a b = .fin (a.toRat + b.toRat) := rfl
@[simp] theorem rational_sub : (rational f).sub a b = .fin (a.toRat - b.toRat) := rfl
@[simp] theorem rational_mul : (rational f).mul a b = .fin (a.toRat * b.toRat) := rfl
@[simp] theorem rational_neg : (rational f).neg a = .fin (-a.toRat) := rfl
@[simp] theorem rational_exp : (rational f).exp a = .fin (f.exp a.toRat) := rfl
@[simp] theorem rational_floor : (rational f).floor a = a.toRat.floor := rfl
@[simp] theorem rational_ofInt (k : Int) : (rational f).ofInt k = .fin (k : Rat) := rfl
@[simp] theorem rational_ofDec (q : Rat) : (rational f).ofDec q = .fin q := rfl
@[simp] theorem rational_zero : (rational f).zero = .fin 0 := rfl
@[simp] theorem rational_one : (rational f).one = .fin 1 := rfl
@[simp] theorem rational_two : (rational f).two = .fin 2 := rfl
@[simp] theorem rational_isNaN : (rational f).isNaN a = false := rfl
@[simp] theorem rational_lt : (rational f).lt a b = true ↔ a.toRat < b.toRat := decide_eq_true_iff
@[simp] theorem rational_le : (rational f).le a b = true ↔ a.toRat ≤ b.toRat := decide_eq_true_iff

theorem rational_div (h : b.toRat ≠ 0) : (rational f).div a b = .fin (a.toRat / b.toRat) :=
  congrArg Scalar.fin (if_neg h)

end NumSys

namespace Machine

/-! ## Exact systems -/

/-- The rationals are exact, whatever functions they are given. -/
theorem exact_rational (f : RatFns) : Exact (NumSys.rational f) plain where
  add a b := by simp [plain]
  sub a b := by simp [plain]
  mul a b := by simp [plain]
  div a b h := by rw [NumSys.rational_div f a b (by simpa [plain] using h)]; simp [plain]
  neg a := by simp [plain]
  floor a := by
    rw [NumSys.rational_floor, plain, Rat.floor_cast]
    rfl
  ofInt k := by simp [plain]
  ofDec q := by simp [plain]
  isNaN _ := rfl
  lt a b := by simp [plain]
  le a b := by simp [plain]

/-- So are the reals. -/
theorem exact_real : Exact numReal fun x => x where
  add _ _ := rfl
  sub _ _ := rfl
  mul _ _ := rfl
  div _ _ _ := rfl
  neg _ := rfl
  floor _ := rfl
  ofInt _ := rfl
  ofDec _ := rfl
  isNaN _ := rfl
  lt a b := by simp [numReal]
  le a b := by simp [numReal]

section
variable {α : Type} {N : NumSys α} {r : α → ℝ} (h : Exact N r)
include h

theorem Exact.zero : r N.zero = 0 := by simp [NumSys.zero, h.ofDec]
theorem Exact.one : r N.one = 1 := by simp [NumSys.one, h.ofDec]
theorem Exact.two : r N.two = 2 := by simp [NumSys.two, h.ofDec]

theorem Exact.lt_false (a b : α) : N.lt a b = false ↔ r b ≤ r a := by
  rw [← not_lt, ← h.lt]; simp

theorem Exact.le_false (a b : α) : N.le a b = false ↔ r b < r a := by
  rw [← not_le, ← h.le]; simp

theorem Exact.inDomain {lo hi v : α} : InDomain N lo hi v ↔ r lo ≤ r v ∧ r v ≤ r hi := by
  simp [InDomain, h.le]

/-- A clamped value lies in the domain. -/
theorem Exact.clamp_inDomain {lo hi : α} (v : α) (hl : r lo ≤ r hi) : InDomain N lo hi (N.clamp v lo hi) := by
  rw [h.inDomain]
  simp only [NumSys.clamp, h.lt]
  split_ifs <;> constructor <;> linarith

/-- The smoother moves a value between two legal ones (30_encoding.md R99). -/
theorem Exact.smooth_inDomain {fs tau lo hi t c : α}
    (hk : N.le tau N.zero = true ∨ 0 ≤ r (N.ks fs tau) ∧ r (N.ks fs tau) ≤ 1) (ht : InDomain N lo hi t)
    (hc : InDomain N lo hi c) : InDomain N lo hi (smooth N fs tau t c) := by
  unfold smooth
  split
  · exact ht
  · rename_i hn
    obtain ⟨h0, h1⟩ := hk.resolve_left hn
    rw [h.inDomain] at ht hc ⊢
    simp only [h.add, h.mul, h.sub]
    constructor <;> nlinarith [ht.1, ht.2, hc.1, hc.2]

/-- A settled gain stays (40_tick_smoother_mix.md R122). -/
theorem Exact.smooth_self {fs tau t c : α} (hc : r t = r c) : r (smooth N fs tau t c) = r t := by
  unfold smooth
  split
  · rfl
  · simp [h.add, h.mul, h.sub, hc]

/-- The integers are exact in an exact system whose carrier tells its numbers apart. -/
theorem Exact.integers (hr : Function.Injective r) (cap : Nat) : IntegersExact N cap where
  one := hr (by simp [h.one, h.ofInt])
  sub a b _ _ := hr (by simp [h.sub, h.ofInt])
  floor k _ _ := by simp [h.floor, h.ofInt]
  lt a b _ _ := by
    rw [Bool.eq_iff_iff, h.lt]; simp [h.ofInt]
  subSelf k _ _ := by simp [h.le, h.sub, h.zero]

end

/-! ## What construction leaves -/

section
variable {α : Type} {d : Device α}

theorem capTooSmall_iff (N : NumSys α) (cap : Nat) (x fs : α) :
    capTooSmall N cap x fs = true ↔ cap < 2 ∨ (cap : Int) < N.ceil (N.mul x fs) := by
  unfold capTooSmall; rw [Bool.or_eq_true, decide_eq_true_iff, decide_eq_true_iff]

/-- Every capacity of a constructed device has a location. -/
theorem capsPositive_of_checkDevice (h : checkDevice d = none) : CapsPositive d.toSettings := by
  unfold checkDevice at h
  simp only [capTooSmall_iff] at h
  split_ifs at h
  exact ⟨by omega, by omega, by omega, by omega⟩

theorem boundsOk_of_checkDevice (h : checkDevice d = none) : boundsOk d = true := by
  unfold checkDevice at h
  simp only [] at h
  split_ifs at h with h1 h2 h3 h4
  simpa using h4

/-- The sample rate of a constructed device is positive. -/
theorem fsPos_of_checkDevice (h : checkDevice d = none) : d.num.lt d.num.zero d.fs = true := by
  unfold checkDevice at h
  simp only [] at h
  split_ifs at h with h1
  simpa using h1

/-- The domain of every entry of a device constructed in an exact system is not empty. -/
theorem domain_le {r : α → ℝ} (hx : Exact d.num r) (h : checkDevice d = none) :
    (∀ p : SParam, r (p.lo d) ≤ r (p.hi d)) ∧ ∀ p : HParam, r (p.lo d) ≤ r (p.hi d) := by
  have hb := boundsOk_of_checkDevice h
  unfold boundsOk at hb
  simp only [Bool.and_eq_true, and_assoc, hx.lt, hx.le, hx.zero, hx.one] at hb
  obtain ⟨-, hf, -, -, hq, hg0, hg1, hr, -, hp, hfb, -, -, -, -, -, -, -, ht, -, -, -, -, -, -, he, -⟩ := hb
  constructor <;> intro p <;> cases p <;> simp only [SParam.lo, SParam.hi, HParam.lo, HParam.hi, hx.zero, hx.one, le_refl] <;>
    linarith

end

/-! ## How a number on plain data enters -/

/-- Read twice is read once. -/
@[simp] theorem read_read (n : NumSel) (x : Scalar) : n.read (n.read x) = n.read x := by
  unfold NumSel.read; cases n.kind <;> rfl

/-- A machine of kind `real` takes a rational as it is. -/
theorem read_of_isReal {n : NumSel} (h : n.kind = .real) {x : Scalar} (hx : IsReal x) : n.read x = x := by
  obtain ⟨q, rfl⟩ := hx
  unfold NumSel.read; rw [h]; rfl

/-- Whether a number is a draw is asked of the value it is read as. -/
@[simp] theorem isDraw_read (n : NumSel) (x : Scalar) : n.sys.isDraw (n.read x) = n.sys.isDraw x := by
  unfold NumSel.read NumSel.sys; cases n.kind <;> rfl

/-! ## The machine in `NUM_REAL` -/

section
variable {cfg : Cfg}

/-- A machine of kind `real` computes in `NUM_REAL`. -/
theorem sys_real (h : cfg.num.kind = .real) : cfg.sys = NumSys.real := by
  show cfg.num.sys = _
  unfold NumSel.sys; rw [h]

theorem exact_of_kind (h : cfg.num.kind = .real) : Exact cfg.sys plain := by
  rw [sys_real h]; exact exact_rational _

/-- The free values of the exponential at a negative number lie in [0, 1]. -/
theorem realExp_unit {a : Rat} (h : a < 0) : 0 ≤ RatFns.real.exp a ∧ RatFns.real.exp a ≤ 1 := by
  have h1 : 0 < 1 - a := by linarith
  have h2 : 1 / (1 - a) ≤ 1 := by rw [div_le_one h1]; linarith
  have h3 : 0 ≤ 1 / (1 - a) := by positivity
  simp only [RatFns.real, RatFns.within, if_neg h.ne, if_neg h.not_gt]
  split
  · rename_i hk
    simp only [Bool.and_eq_true, Bool.or_eq_true, decide_eq_true_eq] at hk
    obtain ⟨⟨h4, -⟩, h5⟩ := hk
    exact ⟨h4.le, by rcases h5 with h5 | h5 <;> linarith⟩
  · exact ⟨h3, h2⟩

/-- The smoothing factor of the rationals lies in [0, 1], whatever the free exponential is. -/
theorem real_ks_unit {fs tau : Scalar} (hfs : 0 < fs.toRat) (ht : 0 < tau.toRat) :
    0 ≤ plain (NumSys.real.ks fs tau) ∧ plain (NumSys.real.ks fs tau) ≤ 1 := by
  have ha : (0 - 1 / fs.toRat) / tau.toRat < 0 :=
    div_neg_of_neg_of_pos (by have : 0 < 1 / fs.toRat := by positivity
                              linarith) ht
  have hk : NumSys.real.ks fs tau = .fin (RatFns.real.exp ((0 - 1 / fs.toRat) / tau.toRat)) := by
    unfold NumSys.ks NumSys.dt
    rw [NumSys.real, NumSys.rational_div _ _ _ hfs.ne', NumSys.rational_sub, NumSys.rational_div _ _ _ ht.ne']
    rfl
  obtain ⟨h0, h1⟩ := realExp_unit ha
  rw [hk]
  simp only [plain, Scalar.toRat_fin]
  exact ⟨by exact_mod_cast h0, by exact_mod_cast h1⟩

/-- Smoothing is monotone on a constructed machine in `NUM_REAL`. -/
theorem smoothingMonotone_of_kind (h : cfg.num.kind = .real) (hc : checkCfg cfg = none) :
    SmoothingMonotone cfg.device plain := by
  have hn : cfg.device.num = NumSys.real := sys_real h
  have hfs := fsPos_of_checkDevice hc
  unfold SmoothingMonotone
  rw [hn] at hfs ⊢
  refine or_iff_not_imp_left.mpr fun ht => real_ks_unit ?_ ?_
  · simpa [NumSys.real] using hfs
  · simpa [NumSys.real] using ht

end

end Machine

end Sys2Proof
end

