-- ==== Sys2Proof/Laws/Memory.lean ====
section
/-! SUPPORT. The laws of a memory: read after write, and that every operation keeps the canonical form (20_memory.md
R60, R61). -/

namespace Sys2Proof.Memory

variable {α : Type} [DecidableEq α] (zero : α)

omit [DecidableEq α] in
@[simp] theorem read_nil (i : Nat) : read zero ([] : Memory α) i = zero := rfl

theorem wfFrom_mono {cap lo lo' : Nat} (h : lo' ≤ lo) {m : Memory α} (hm : wfFrom zero cap lo m = true) :
    wfFrom zero cap lo' m = true := by
  cases m with
  | nil => rfl
  | cons e rest =>
    obtain ⟨j, x⟩ := e
    simp only [wfFrom, Bool.and_eq_true, decide_eq_true_eq] at hm ⊢
    exact ⟨⟨⟨h.trans hm.1.1.1, hm.1.1.2⟩, hm.1.2⟩, hm.2⟩

/-- Below the first listed index a memory reads as `zero`. -/
theorem read_of_lt {cap lo i : Nat} {m : Memory α} (hm : wfFrom zero cap lo m = true) (h : i < lo) :
    read zero m i = zero := by
  induction m generalizing lo with
  | nil => rfl
  | cons e rest ih =>
    obtain ⟨j, x⟩ := e
    simp only [wfFrom, Bool.and_eq_true, decide_eq_true_eq] at hm
    rw [read, if_neg (by omega)]
    exact ih hm.2 (by omega)

theorem read_writeFrom {cap lo : Nat} {m : Memory α} (hm : wfFrom zero cap lo m = true) (i j : Nat) (v : α) :
    read zero (write zero m i v) j = if j = i then v else read zero m j := by
  induction m generalizing lo with
  | nil => by_cases hv : v = zero <;> by_cases hj : j = i <;> simp [write, read, hv, hj]
  | cons e rest ih =>
    obtain ⟨k, x⟩ := e
    simp only [wfFrom, Bool.and_eq_true, decide_eq_true_eq] at hm
    have hlow : ∀ a, a ≤ k → read zero rest a = zero := fun a ha => read_of_lt zero hm.2 (by omega)
    unfold write
    by_cases h1 : i < k
    · by_cases hv : v = zero
      · by_cases hj : j = i
        · subst hj; simp [h1, hv, read, Nat.ne_of_lt h1, hlow j h1.le]
        · simp [h1, hv, hj]
      · by_cases hj : j = i <;> simp [h1, hv, read, hj]
    · by_cases h2 : i = k
      · subst h2
        by_cases hv : v = zero
        · by_cases hj : j = i
          · subst hj; simp [hv, hlow]
          · simp [hv, read, hj]
        · by_cases hj : j = i <;> simp [hv, read, hj]
      · simp only [if_neg h1, if_neg h2, read, ih hm.2]
        by_cases hj : j = k
        · subst hj; simp [Ne.symm h2]
        · simp [hj]

/-- A read after a write to a memory in canonical form: the value written there, the old value elsewhere. -/
theorem read_write {cap : Nat} {m : Memory α} (hm : wf zero cap m = true) (i j : Nat) (v : α) :
    read zero (write zero m i v) j = if j = i then v else read zero m j :=
  read_writeFrom zero hm i j v

theorem wfFrom_write {cap lo i : Nat} {m : Memory α} (hm : wfFrom zero cap lo m = true) (hlo : lo ≤ i)
    (hi : i < cap) (v : α) : wfFrom zero cap lo (write zero m i v) = true := by
  induction m generalizing lo with
  | nil => by_cases hv : v = zero <;> simp [write, wfFrom, hv, hlo, hi]
  | cons e rest ih =>
    obtain ⟨k, x⟩ := e
    have hm' := hm
    simp only [wfFrom, Bool.and_eq_true, decide_eq_true_eq] at hm
    obtain ⟨⟨⟨h1, h2⟩, h3⟩, h4⟩ := hm
    unfold write
    by_cases hik : i < k
    · by_cases hv : v = zero
      · simpa [hik, hv] using hm'
      · simp only [hik, hv, if_true, if_false, wfFrom, Bool.and_eq_true, decide_eq_true_eq]
        exact ⟨⟨⟨hlo, hi⟩, hv⟩, ⟨⟨by omega, h2⟩, h3⟩, h4⟩
    · by_cases he : i = k
      · subst he
        by_cases hv : v = zero
        · simpa [hv] using wfFrom_mono zero (by omega) h4
        · simp only [lt_irrefl, hv, if_false, if_true, wfFrom, Bool.and_eq_true, decide_eq_true_eq]
          exact ⟨⟨⟨hlo, hi⟩, hv⟩, h4⟩
      · simp only [if_neg hik, if_neg he, wfFrom, Bool.and_eq_true, decide_eq_true_eq]
        exact ⟨⟨⟨h1, h2⟩, h3⟩, ih h4 (by omega)⟩

/-- A write inside the capacity keeps the canonical form. -/
theorem wf_write {cap i : Nat} {m : Memory α} (hm : wf zero cap m = true) (hi : i < cap) (v : α) :
    wf zero cap (write zero m i v) = true :=
  wfFrom_write zero hm (Nat.zero_le i) hi v

/-- So does a run of writes inside it. -/
theorem wf_writeAll {cap i : Nat} {m : Memory α} (hm : wf zero cap m = true) (vs : List α)
    (h : i + vs.length ≤ cap) : wf zero cap (writeAll zero m i vs) = true := by
  induction vs generalizing m i with
  | nil => exact hm
  | cons v vs ih =>
    simp only [List.length_cons] at h
    exact ih (wf_write zero hm (by omega) v) (by omega)

/-- A read after a run of writes from `i` on. -/
theorem read_writeAll {cap i : Nat} {m : Memory α} (hm : wf zero cap m = true) (vs : List α)
    (h : i + vs.length ≤ cap) (j : Nat) :
    read zero (writeAll zero m i vs) j =
      if i ≤ j then (vs[j - i]?).getD (read zero m j) else read zero m j := by
  induction vs generalizing m i with
  | nil => simp [writeAll]
  | cons v vs ih =>
    simp only [List.length_cons] at h
    rw [writeAll, ih (wf_write zero hm (by omega) v) (by omega), read_write zero hm]
    rcases Nat.lt_trichotomy j i with hj | rfl | hj
    · simp [show ¬ i + 1 ≤ j by omega, show ¬ i ≤ j by omega, Nat.ne_of_lt hj]
    · simp
    · obtain ⟨d, rfl⟩ : ∃ d, j = i + 1 + d := ⟨j - (i + 1), by omega⟩
      simp [show i ≤ i + 1 + d by omega, show i + 1 + d - i = d + 1 by omega,
        show ¬ i + 1 + d = i by omega]

/-- Memories in canonical form that read alike at every index are equal. -/
theorem eq_of_readFrom {cap lo : Nat} {m m' : Memory α} (hm : wfFrom zero cap lo m = true)
    (hm' : wfFrom zero cap lo m' = true) (h : ∀ i, read zero m i = read zero m' i) : m = m' := by
  induction m generalizing lo m' with
  | nil =>
    cases m' with
    | nil => rfl
    | cons e rest =>
      obtain ⟨j, x⟩ := e
      simp only [wfFrom, Bool.and_eq_true, decide_eq_true_eq] at hm'
      have := h j
      simp [read] at this
      exact absurd this.symm hm'.1.2
  | cons e rest ih =>
    obtain ⟨j, x⟩ := e
    simp only [wfFrom, Bool.and_eq_true, decide_eq_true_eq] at hm
    cases m' with
    | nil =>
      have := h j
      simp [read] at this
      exact absurd this hm.1.2
    | cons e' rest' =>
      obtain ⟨j', x'⟩ := e'
      simp only [wfFrom, Bool.and_eq_true, decide_eq_true_eq] at hm'
      have hjj : j = j' := by
        rcases Nat.lt_trichotomy j j' with hlt | heq | hlt
        · have := h j
          rw [read, if_pos rfl, read, if_neg (by omega), read_of_lt zero hm'.2 (by omega)] at this
          exact absurd this hm.1.2
        · exact heq
        · have := h j'
          rw [read, if_neg (by omega), read_of_lt zero hm.2 (by omega), read, if_pos rfl] at this
          exact absurd this.symm hm'.1.2
      subst hjj
      have hx : x = x' := by simpa [read] using h j
      subst hx
      refine congrArg _ (ih hm.2 hm'.2 fun i => ?_)
      by_cases hi : i = j
      · rw [read_of_lt zero hm.2 (by omega), read_of_lt zero hm'.2 (by omega)]
      · simpa [read, hi] using h i

end Sys2Proof.Memory
end

