-- ==== Sys2Proof/Laws/Tick.lean ====
section
/-! SUPPORT. What each step of TICK writes and leaves (40_tick_smoother_mix.md R120), and what a stage of the chain
does to its channel, over any carrier. -/

namespace Sys2Proof.Machine

variable {α : Type}

/-! ## The steps, field by field -/

section
variable (d : Device α) (b : Block α)

@[simp] theorem smoothAll_coef : (smoothAll d b).coef = b.coef := rfl
@[simp] theorem smoothAll_lfo : (smoothAll d b).lfo = b.lfo := rfl
@[simp] theorem smoothAll_widx : (smoothAll d b).widx = b.widx := rfl
@[simp] theorem smoothAll_hw : (smoothAll d b).hw = b.hw := rfl
@[simp] theorem smoothAll_irSel : (smoothAll d b).irSel = b.irSel := rfl
@[simp] theorem smoothAll_irLen : (smoothAll d b).irLen = b.irLen := rfl
@[simp] theorem smoothAll_irVer : (smoothAll d b).irVer = b.irVer := rfl
@[simp] theorem smoothAll_job : (smoothAll d b).job = b.job := rfl
@[simp] theorem smoothAll_env : (smoothAll d b).env = b.env := rfl
@[simp] theorem smoothAll_badcmd : (smoothAll d b).badcmd = b.badcmd := rfl
@[simp] theorem smoothAll_ch0 : (smoothAll d b).ch0 = b.ch0 := rfl
@[simp] theorem smoothAll_ch1 : (smoothAll d b).ch1 = b.ch1 := rfl
@[simp] theorem smoothAll_bank0 : (smoothAll d b).bank0 = b.bank0 := rfl
@[simp] theorem smoothAll_bank1 : (smoothAll d b).bank1 = b.bank1 := rfl

@[simp] theorem lfoAll_par : (lfoAll d b).par = b.par := rfl
@[simp] theorem lfoAll_mix : (lfoAll d b).mix = b.mix := rfl
@[simp] theorem lfoAll_coef : (lfoAll d b).coef = b.coef := rfl
@[simp] theorem lfoAll_widx : (lfoAll d b).widx = b.widx := rfl
@[simp] theorem lfoAll_hw : (lfoAll d b).hw = b.hw := rfl
@[simp] theorem lfoAll_irSel : (lfoAll d b).irSel = b.irSel := rfl
@[simp] theorem lfoAll_irLen : (lfoAll d b).irLen = b.irLen := rfl
@[simp] theorem lfoAll_irVer : (lfoAll d b).irVer = b.irVer := rfl
@[simp] theorem lfoAll_job : (lfoAll d b).job = b.job := rfl
@[simp] theorem lfoAll_env : (lfoAll d b).env = b.env := rfl
@[simp] theorem lfoAll_badcmd : (lfoAll d b).badcmd = b.badcmd := rfl
@[simp] theorem lfoAll_ch0 : (lfoAll d b).ch0 = b.ch0 := rfl
@[simp] theorem lfoAll_ch1 : (lfoAll d b).ch1 = b.ch1 := rfl
@[simp] theorem lfoAll_bank0 : (lfoAll d b).bank0 = b.bank0 := rfl
@[simp] theorem lfoAll_bank1 : (lfoAll d b).bank1 = b.bank1 := rfl

@[simp] theorem coefAll_par : (coefAll d b).par = b.par := rfl
@[simp] theorem coefAll_mix : (coefAll d b).mix = b.mix := rfl
@[simp] theorem coefAll_lfo : (coefAll d b).lfo = b.lfo := rfl
@[simp] theorem coefAll_widx : (coefAll d b).widx = b.widx := rfl
@[simp] theorem coefAll_hw : (coefAll d b).hw = b.hw := rfl
@[simp] theorem coefAll_irSel : (coefAll d b).irSel = b.irSel := rfl
@[simp] theorem coefAll_irLen : (coefAll d b).irLen = b.irLen := rfl
@[simp] theorem coefAll_irVer : (coefAll d b).irVer = b.irVer := rfl
@[simp] theorem coefAll_job : (coefAll d b).job = b.job := rfl
@[simp] theorem coefAll_env : (coefAll d b).env = b.env := rfl
@[simp] theorem coefAll_badcmd : (coefAll d b).badcmd = b.badcmd := rfl
@[simp] theorem coefAll_ch0 : (coefAll d b).ch0 = b.ch0 := rfl
@[simp] theorem coefAll_ch1 : (coefAll d b).ch1 = b.ch1 := rfl
@[simp] theorem coefAll_bank0 : (coefAll d b).bank0 = b.bank0 := rfl
@[simp] theorem coefAll_bank1 : (coefAll d b).bank1 = b.bank1 := rfl

@[simp] theorem advanceAll_par : (advanceAll d b).par = b.par := rfl
@[simp] theorem advanceAll_mix : (advanceAll d b).mix = b.mix := rfl
@[simp] theorem advanceAll_coef : (advanceAll d b).coef = b.coef := rfl
@[simp] theorem advanceAll_lfo : (advanceAll d b).lfo = b.lfo := rfl
@[simp] theorem advanceAll_irSel : (advanceAll d b).irSel = b.irSel := rfl
@[simp] theorem advanceAll_irLen : (advanceAll d b).irLen = b.irLen := rfl
@[simp] theorem advanceAll_irVer : (advanceAll d b).irVer = b.irVer := rfl
@[simp] theorem advanceAll_job : (advanceAll d b).job = b.job := rfl
@[simp] theorem advanceAll_env : (advanceAll d b).env = b.env := rfl
@[simp] theorem advanceAll_badcmd : (advanceAll d b).badcmd = b.badcmd := rfl
@[simp] theorem advanceAll_ch0 : (advanceAll d b).ch0 = b.ch0 := rfl
@[simp] theorem advanceAll_ch1 : (advanceAll d b).ch1 = b.ch1 := rfl
@[simp] theorem advanceAll_bank0 : (advanceAll d b).bank0 = b.bank0 := rfl
@[simp] theorem advanceAll_bank1 : (advanceAll d b).bank1 = b.bank1 := rfl

@[simp] theorem envStep_par : (envStep d b).par = b.par := rfl
@[simp] theorem envStep_mix : (envStep d b).mix = b.mix := rfl
@[simp] theorem envStep_coef : (envStep d b).coef = b.coef := rfl
@[simp] theorem envStep_lfo : (envStep d b).lfo = b.lfo := rfl
@[simp] theorem envStep_widx : (envStep d b).widx = b.widx := rfl
@[simp] theorem envStep_hw : (envStep d b).hw = b.hw := rfl
@[simp] theorem envStep_irSel : (envStep d b).irSel = b.irSel := rfl
@[simp] theorem envStep_irLen : (envStep d b).irLen = b.irLen := rfl
@[simp] theorem envStep_irVer : (envStep d b).irVer = b.irVer := rfl
@[simp] theorem envStep_job : (envStep d b).job = b.job := rfl
@[simp] theorem envStep_badcmd : (envStep d b).badcmd = b.badcmd := rfl
@[simp] theorem envStep_ch0 : (envStep d b).ch0 = b.ch0 := rfl
@[simp] theorem envStep_ch1 : (envStep d b).ch1 = b.ch1 := rfl
@[simp] theorem envStep_bank0 : (envStep d b).bank0 = b.bank0 := rfl
@[simp] theorem envStep_bank1 : (envStep d b).bank1 = b.bank1 := rfl

@[simp] theorem beforeChain_widx : (beforeChain d b).widx = b.widx := rfl
@[simp] theorem beforeChain_hw : (beforeChain d b).hw = b.hw := rfl
@[simp] theorem beforeChain_irSel : (beforeChain d b).irSel = b.irSel := rfl
@[simp] theorem beforeChain_irLen : (beforeChain d b).irLen = b.irLen := rfl
@[simp] theorem beforeChain_irVer : (beforeChain d b).irVer = b.irVer := rfl
@[simp] theorem beforeChain_job : (beforeChain d b).job = b.job := rfl
@[simp] theorem beforeChain_env : (beforeChain d b).env = b.env := rfl
@[simp] theorem beforeChain_badcmd : (beforeChain d b).badcmd = b.badcmd := rfl
@[simp] theorem beforeChain_ch0 : (beforeChain d b).ch0 = b.ch0 := rfl
@[simp] theorem beforeChain_ch1 : (beforeChain d b).ch1 = b.ch1 := rfl
@[simp] theorem beforeChain_bank0 : (beforeChain d b).bank0 = b.bank0 := rfl
@[simp] theorem beforeChain_bank1 : (beforeChain d b).bank1 = b.bank1 := rfl

theorem beforeChain_par : (beforeChain d b).par = b.par.mapSmoothed (Smoothed.step d) := rfl

theorem beforeChain_mix : (beforeChain d b).mix = b.mix.mapStages (MixState.step d b.par) := rfl

/-! ## TICK as a whole -/

variable [DecidableEq α] (f : Frame α)

@[simp] theorem runChannels_par : (runChannels d b f).1.par = b.par := rfl
@[simp] theorem runChannels_mix : (runChannels d b f).1.mix = b.mix := rfl
@[simp] theorem runChannels_coef : (runChannels d b f).1.coef = b.coef := rfl
@[simp] theorem runChannels_lfo : (runChannels d b f).1.lfo = b.lfo := rfl
@[simp] theorem runChannels_widx : (runChannels d b f).1.widx = b.widx := rfl
@[simp] theorem runChannels_hw : (runChannels d b f).1.hw = b.hw := rfl
@[simp] theorem runChannels_irSel : (runChannels d b f).1.irSel = b.irSel := rfl
@[simp] theorem runChannels_irLen : (runChannels d b f).1.irLen = b.irLen := rfl
@[simp] theorem runChannels_irVer : (runChannels d b f).1.irVer = b.irVer := rfl
@[simp] theorem runChannels_job : (runChannels d b f).1.job = b.job := rfl
@[simp] theorem runChannels_env : (runChannels d b f).1.env = b.env := rfl
@[simp] theorem runChannels_badcmd : (runChannels d b f).1.badcmd = b.badcmd := rfl
@[simp] theorem runChannels_bank0 : (runChannels d b f).1.bank0 = b.bank0 := rfl
@[simp] theorem runChannels_bank1 : (runChannels d b f).1.bank1 = b.bank1 := rfl

@[simp] theorem tickBlock_irSel : (tickBlock d b f).1.irSel = b.irSel := rfl
@[simp] theorem tickBlock_irLen : (tickBlock d b f).1.irLen = b.irLen := rfl
@[simp] theorem tickBlock_irVer : (tickBlock d b f).1.irVer = b.irVer := rfl
@[simp] theorem tickBlock_job : (tickBlock d b f).1.job = b.job := rfl
@[simp] theorem tickBlock_badcmd : (tickBlock d b f).1.badcmd = b.badcmd := rfl
@[simp] theorem tickBlock_bank0 : (tickBlock d b f).1.bank0 = b.bank0 := rfl
@[simp] theorem tickBlock_bank1 : (tickBlock d b f).1.bank1 = b.bank1 := rfl

theorem tickBlock_par : (tickBlock d b f).1.par = b.par.mapSmoothed (Smoothed.step d) := rfl

theorem tickBlock_mix : (tickBlock d b f).1.mix = b.mix.mapStages (MixState.step d b.par) := rfl

theorem tickBlock_lfo : (tickBlock d b f).1.lfo = (lfoAll d (smoothAll d b)).lfo := rfl

theorem tickBlock_coef : (tickBlock d b f).1.coef = (beforeChain d b).coef := rfl

theorem tickBlock_env :
    (tickBlock d b f).1.env = envTick d.num d.fs b.par.envDecay b.par.envSustain b.env := rfl

theorem tickBlock_widx : (tickBlock d b f).1.widx =
    { fla := advance d.flCap b.widx.fla, cho := advance d.choCap b.widx.cho, dly := advance d.dlyCap b.widx.dly } := rfl

theorem tickBlock_hw : (tickBlock d b f).1.hw = advance d.irCap b.hw := rfl

theorem tickBlock_ch0 : (tickBlock d b f).1.ch0 = (runChain d (beforeChain d b) 0 b.ch0 f.c0).1 := rfl

theorem tickBlock_c0 : (tickBlock d b f).2.c0 = (runChain d (beforeChain d b) 0 b.ch0 f.c0).2 := rfl

theorem tickBlock_ch1 : (tickBlock d b f).1.ch1 =
    if d.nch = 2 then (runChain d (beforeChain d b) 1 b.ch1 f.c1).1 else b.ch1 := by
  by_cases h : d.nch = 2
  · rw [if_pos h]
    exact congrArg Prod.fst (if_pos h)
  · rw [if_neg h]
    exact congrArg Prod.fst (if_neg h)

theorem tickBlock_c1 : (tickBlock d b f).2.c1 =
    if d.nch = 2 then (runChain d (beforeChain d b) 1 b.ch1 f.c1).2 else d.num.zero := by
  by_cases h : d.nch = 2
  · rw [if_pos h]
    exact congrArg Prod.snd (if_pos h)
  · rw [if_neg h]
    exact congrArg Prod.snd (if_neg h)

end

section
variable (s : State) (f : Frame Scalar)

@[simp] theorem tick_toBlock : (tick f s).toBlock = (tickBlock s.device s.toBlock (f.map s.cfg.num.read)).1 := rfl
@[simp] theorem tick_cfg : (tick f s).cfg = s.cfg := rfl
@[simp] theorem tick_inbox : (tick f s).inbox = s.inbox := rfl
@[simp] theorem tick_rngPos : (tick f s).rngPos = s.rngPos := rfl
@[simp] theorem tick_readData : (tick f s).readData = s.readData := rfl
@[simp] theorem tick_out : (tick f s).out = (tickBlock s.device s.toBlock (f.map s.cfg.num.read)).2 := rfl
@[simp] theorem tick_envOut : (tick f s).envOut = (tickBlock s.device s.toBlock (f.map s.cfg.num.read)).1.env.amp := rfl

end

/-! ## The chain -/

theorem biquadChain_length (N : NumSys α) (c : Coef α) (hs : List (Hist α)) (x : α) :
    (biquadChain N c hs x).1.length = hs.length := by
  induction hs generalizing x with
  | nil => rfl
  | cons h hs ih => simp [biquadChain, ih]

theorem advance_lt {cap w : Nat} (h : 0 < cap) : advance cap w < cap := Nat.mod_lt _ h

section
variable [DecidableEq α] (d : Device α) {b : Block α}

/-- A stage's wet path keeps the shape of its channel. -/
theorem wetPath_wf (hb : b.Inv d) (c : Nat) (st : Stage) {ch : Channel α} (h : ChannelWf d ch) (x : α) :
    ChannelWf d (wetPath d b c st ch x).1 := by
  obtain ⟨h1, h2, h3, h4, h5⟩ := h
  cases st with
  | hpf => exact ⟨h1, h2, h3, h4, h5⟩
  | lpf => exact ⟨h1, h2, h3, h4, h5⟩
  | eql => exact ⟨h1, h2, h3, h4, h5⟩
  | eqm => exact ⟨h1, h2, h3, h4, h5⟩
  | eqh => exact ⟨h1, h2, h3, h4, h5⟩
  | pha => exact ⟨(biquadChain_length _ _ _ _).trans h1, h2, h3, h4, h5⟩
  | fla => exact ⟨h1, Memory.wf_write _ h2 hb.wFla _, h3, h4, h5⟩
  | cho => exact ⟨h1, h2, Memory.wf_write _ h3 hb.wCho _, h4, h5⟩
  | dly => exact ⟨h1, h2, h3, Memory.wf_write _ h4 hb.wDly _, h5⟩
  | rev => exact ⟨h1, h2, h3, h4, Memory.wf_write _ h5 hb.hw _⟩

/-- So does a run of stages. -/
theorem foldl_stageStep_wf (hb : b.Inv d) (c : Nat) (sts : List Stage) {acc : Channel α × α}
    (h : ChannelWf d acc.1) : ChannelWf d (sts.foldl (stageStep d b c) acc).1 := by
  induction sts generalizing acc with
  | nil => exact h
  | cons st sts ih => exact ih (wetPath_wf d hb c st h acc.2)

theorem runChain_wf (hb : b.Inv d) (c : Nat) {ch : Channel α} (h : ChannelWf d ch) (x : α) :
    ChannelWf d (runChain d b c ch x).1 :=
  foldl_stageStep_wf d hb c chainOrder h

/-- Steps 1 to 4 of TICK touch nothing the structural invariant speaks of. -/
theorem beforeChain_inv (h : b.Inv d) : (beforeChain d b).Inv d :=
  ⟨h.caps, h.wFla, h.wCho, h.wDly, h.hw, h.irLenPos, h.irLenCap, h.envK, h.ch0, h.ch1, h.bank0, h.bank1⟩

end

/-! ## The envelope -/

section
variable (N : NumSys α)

theorem phaseTicks_pos (fs d : α) : 1 ≤ phaseTicks N fs d := by
  unfold phaseTicks; omega

/-- The ticks elapsed stay below the length of the phase. -/
theorem envTick_k_lt (fs decay sustain : α) {e : Env α} (h : e.k < e.n) :
    (envTick N fs decay sustain e).k < (envTick N fs decay sustain e).n := by
  unfold envTick
  cases e.ph with
  | idle => exact h
  | attack =>
    simp only [envAttack]; split
    · exact phaseTicks_pos N fs decay
    · simp only; omega
  | decay => simp only [envDecay]; split <;> simp only <;> omega
  | sustain => exact h
  | release => simp only [envRelease]; split <;> simp only <;> omega

end

end Sys2Proof.Machine
end

