-- ==== Sys2Proof/Laws/Carrier.lean ====
section
/-! SUPPORT. The numbers of a state stay in the carrier (00_scope.md R10, R11): whatever set of numbers holds every result of
the operations of NUM, the numbers of the configuration and the input, holds every number a step leaves. -/

namespace Sys2Proof.Machine

variable {α : Type}

/-- Every result of the operations lies in `P`. -/
structure Closed (N : NumSys α) (P : α → Prop) : Prop where
  add : ∀ a b, P (N.add a b)
  sub : ∀ a b, P (N.sub a b)
  mul : ∀ a b, P (N.mul a b)
  div : ∀ a b, P (N.div a b)
  sin : ∀ a, P (N.sin a)
  ofDec : ∀ q, P (N.ofDec q)
  dec32 : ∀ p, P (N.dec32 p)

/-- So do the bounds and the defaults of a device's parameters. -/
structure DeviceClosed (d : Device α) (P : α → Prop) : Prop extends Closed d.num P where
  slo : ∀ p : SParam, P (p.lo d)
  shi : ∀ p : SParam, P (p.hi d)
  sdflt : ∀ p : SParam, P (p.dflt d)
  hlo : ∀ p : HParam, P (p.lo d)
  hhi : ∀ p : HParam, P (p.hi d)
  hdflt : ∀ p : HParam, P (p.dflt d)

/-- A memory of such numbers reads as one, and a write of one leaves it so. -/
theorem Memory.All.read {P : α → Prop} {zero : α} (hz : P zero) {m : Memory α} (h : Memory.All P m) (i : Nat) :
    P (m.read zero i) := by
  induction m with
  | nil => exact hz
  | cons e rest ih =>
    obtain ⟨j, x⟩ := e
    unfold Memory.read
    split
    · exact h (j, x) (by simp)
    · exact ih fun e he => h e (by simp [he])

theorem Memory.All.write [DecidableEq α] {P : α → Prop} {zero v : α} {m : Memory α} (h : Memory.All P m) (hv : P v)
    (i : Nat) : Memory.All P (m.write zero i v) := by
  induction m with
  | nil =>
    unfold Memory.write
    split
    · exact h
    · intro e he; simp only [List.mem_singleton] at he; subst he; exact hv
  | cons e rest ih =>
    obtain ⟨j, x⟩ := e
    have hr : Memory.All P rest := fun e he => h e (by simp [he])
    have hx : P x := h (j, x) (by simp)
    unfold Memory.write
    split_ifs
    · exact h
    · intro e he
      rcases List.mem_cons.mp he with rfl | he
      · exact hv
      · exact h e he
    · exact hr
    · intro e he
      rcases List.mem_cons.mp he with rfl | he
      · exact hv
      · exact hr e he
    · intro e he
      rcases List.mem_cons.mp he with rfl | he
      · exact hx
      · exact ih hr e he

theorem Memory.All.writeAll [DecidableEq α] {P : α → Prop} {zero : α} (vs : List α) {m : Memory α} (h : Memory.All P m)
    (hv : ∀ v ∈ vs, P v) (i : Nat) : Memory.All P (m.writeAll zero i vs) := by
  induction vs generalizing m i with
  | nil => exact h
  | cons v vs ih => exact ih (h.write (hv v (by simp)) i) (fun u hu => hv u (by simp [hu])) (i + 1)

section
variable {N : NumSys α} {P : α → Prop} (hN : Closed N P)
include hN

/-- The literals `0` and `1`. -/
theorem Closed.zero : P N.zero := hN.ofDec 0
theorem Closed.one : P N.one := hN.ofDec 1

omit hN in
theorem Closed.clamp {v lo hi : α} (hv : P v) (hl : P lo) (hh : P hi) : P (N.clamp v lo hi) := by
  unfold NumSys.clamp; split_ifs <;> assumption

theorem Closed.smooth {fs tau t c : α} (ht : P t) : P (smooth N fs tau t c) := by
  unfold Machine.smooth; split
  · exact ht
  · exact hN.add _ _

theorem Closed.coef (fs fMin fMax f : α) (shape : Shape α) : (coef N fs fMin fMax shape f).All P :=
  ⟨hN.div _ _, hN.div _ _, hN.div _ _, hN.div _ _, hN.div _ _⟩

theorem Closed.lfoTick (fs rate : α) (l : Lfo α) : P (lfoTick N fs rate l).phase ∧ P (lfoTick N fs rate l).val := by
  refine ⟨?_, hN.sin _⟩
  simp only [Machine.lfoTick, guardPhase]
  split
  · exact hN.zero
  · exact hN.sub _ _

theorem Closed.gainTargets {par : Params α} (hp : ∀ p, P (par.h p)) (st : Stage) (m : MixState α) :
    P (gainTargets N par st m).1 ∧ P (gainTargets N par st m).2 := by
  have hf : ∀ a, P (filterTargets N a).1 ∧ P (filterTargets N a).2 := fun a => by
    cases a <;> exact ⟨hN.ofDec _, hN.ofDec _⟩
  have he : ∀ a mix, P mix → P (effectTargets N a mix).1 ∧ P (effectTargets N a mix).2 := fun a mix h => by
    cases a
    · exact ⟨hN.ofDec _, hN.ofDec _⟩
    · exact ⟨h, hN.sub _ _⟩
  cases st with
  | pha => exact he _ _ (hp .phaMix)
  | fla => exact he _ _ (hp .flaMix)
  | cho => exact he _ _ (hp .choMix)
  | dly => exact he _ _ (hp .dlyMix)
  | rev => exact he _ _ (hp .revMix)
  | _ => exact hf _

theorem Closed.biquad {c : Coef α} {h : Hist α} {x : α} (hh : h.All P) (hx : P x) :
    (biquad N c h x).1.All P ∧ P (biquad N c h x).2 :=
  ⟨⟨hx, hh.1, hN.sub _ _, hh.2.2.1⟩, hN.sub _ _⟩

theorem Closed.biquadChain {c : Coef α} {hs : List (Hist α)} {x : α} (hh : ∀ h ∈ hs, h.All P) (hx : P x) :
    (∀ h ∈ (biquadChain N c hs x).1, h.All P) ∧ P (biquadChain N c hs x).2 := by
  induction hs generalizing x with
  | nil => exact ⟨by simp [Machine.biquadChain], hx⟩
  | cons h hs ih =>
    have h1 := hN.biquad (c := c) (hh h (by simp)) hx
    have h2 := ih (fun g hg => hh g (by simp [hg])) h1.2
    exact ⟨List.forall_mem_cons.mpr ⟨h1.1, h2.1⟩, h2.2⟩

theorem Closed.dlRead {m : Memory α} (hm : Memory.All P m) (fs : α) (cap w : Nat) (off : α) :
    P (dlRead N fs cap w m off) := by
  simp only [Machine.dlRead, readAt]
  split
  · exact hm.read hN.zero _
  · exact hN.add _ _

theorem Closed.convolve (len : Nat) (ir hist : Nat → α) : P (convolve N len ir hist) := by
  cases len with
  | zero => exact hN.zero
  | succ n => rw [Machine.convolve, List.range_succ, List.foldl_append]; exact hN.add _ _

theorem Closed.envTick {fs decay sustain : α} (hs : P sustain) {e : Env α} (h : P e.start ∧ P e.amp) :
    P (envTick N fs decay sustain e).start ∧ P (envTick N fs decay sustain e).amp := by
  unfold Machine.envTick
  split
  · exact ⟨h.1, hN.zero⟩
  · unfold Machine.envAttack; split
    · exact ⟨hN.one, hN.one⟩
    · exact ⟨h.1, hN.add _ _⟩
  · unfold Machine.envDecay; split
    · exact ⟨hs, hs⟩
    · exact ⟨h.1, hN.add _ _⟩
  · exact ⟨h.1, hs⟩
  · unfold Machine.envRelease; split
    · exact ⟨hN.zero, hN.zero⟩
    · exact ⟨h.1, hN.add _ _⟩

theorem Closed.gen (fs e dur : α) (cap : Nat) (u : Nat → α) :
    (∀ v ∈ (gen N fs e cap u dur).2.1, P v) ∧ ∀ v ∈ (gen N fs e cap u dur).2.2, P v := by
  have hc : ∀ (l : Nat) (w : Nat → α), ∀ v ∈ irChannel N e l w, P v := fun l w v hv => by
    obtain ⟨n, -, rfl⟩ := List.mem_map.mp hv; exact hN.mul _ _
  unfold Machine.gen
  split
  · exact ⟨by simpa using hN.zero, by simpa using hN.zero⟩
  · exact ⟨hc _ _, hc _ _⟩

end

section
variable [DecidableEq α] {d : Device α} {P : α → Prop} (hd : DeviceClosed d P) {b : Block α}
include hd

omit [DecidableEq α] in
theorem DeviceClosed.smoothedOperand {p : SParam} {val : Val} {v : α} (h : p.operand d val = some v) : P v := by
  obtain ⟨w, hw, rfl⟩ := operand_some h
  refine Closed.clamp ?_ (hd.slo p) (hd.shi p)
  rcases hw with rfl | rfl | rfl
  · exact hd.slo p
  · exact hd.shi p
  · exact hd.dec32 val

omit [DecidableEq α] in
theorem DeviceClosed.heldOperand {p : HParam} {val : Val} {v : α} (h : p.operand d val = some v) : P v := by
  obtain ⟨w, hw, rfl⟩ := operand_some h
  refine Closed.clamp ?_ (hd.hlo p) (hd.hhi p)
  rcases hw with rfl | rfl | rfl
  · exact hd.hlo p
  · exact hd.hhi p
  · exact hd.dec32 val

theorem DeviceClosed.wetPath (c : Nat) (st : Stage) {ch : Channel α} {x : α} (h : ch.All P) (hx : P x) :
    (wetPath d b c st ch x).1.All P ∧ P (wetPath d b c st ch x).2 := by
  have hN := hd.toClosed
  have hm := h.mems
  have hh := h.hist
  simp only [List.cons_append, List.nil_append, List.forall_mem_cons, List.not_mem_nil, false_imp_iff, implies_true,
    and_true] at hm hh
  obtain ⟨m1, m2, m3, m4⟩ := hm
  obtain ⟨h1, h2, h3, h4, h5, h6, h7⟩ := hh
  have mk : ∀ {ch' : Channel α}, ch'.hpf.All P → ch'.lpf.All P → ch'.eql.All P → ch'.eqm.All P → ch'.eqh.All P →
      ch'.dlyLp.All P → (∀ g ∈ ch'.pha, Hist.All P g) → Memory.All P ch'.dlFla → Memory.All P ch'.dlCho →
      Memory.All P ch'.dlDly → Memory.All P ch'.hist → ch'.All P := fun a1 a2 a3 a4 a5 a6 a7 b1 b2 b3 b4 =>
    ⟨by simp only [List.cons_append, List.nil_append, List.forall_mem_cons]; exact ⟨a1, a2, a3, a4, a5, a6, a7⟩,
     by simp only [List.forall_mem_cons]; exact ⟨b1, b2, b3, b4, by simp⟩⟩
  cases st with
  | hpf => have r := hN.biquad (c := b.coef.hpf) h1 hx; exact ⟨mk r.1 h2 h3 h4 h5 h6 h7 m1 m2 m3 m4, r.2⟩
  | lpf => have r := hN.biquad (c := b.coef.lpf) h2 hx; exact ⟨mk h1 r.1 h3 h4 h5 h6 h7 m1 m2 m3 m4, r.2⟩
  | eql => have r := hN.biquad (c := b.coef.eql) h3 hx; exact ⟨mk h1 h2 r.1 h4 h5 h6 h7 m1 m2 m3 m4, r.2⟩
  | eqm => have r := hN.biquad (c := b.coef.eqm) h4 hx; exact ⟨mk h1 h2 h3 r.1 h5 h6 h7 m1 m2 m3 m4, r.2⟩
  | eqh => have r := hN.biquad (c := b.coef.eqh) h5 hx; exact ⟨mk h1 h2 h3 h4 r.1 h6 h7 m1 m2 m3 m4, r.2⟩
  | pha => have r := hN.biquadChain (c := b.coef.pha) h7 hx; exact ⟨mk h1 h2 h3 h4 h5 h6 r.1 m1 m2 m3 m4, r.2⟩
  | fla => exact ⟨mk h1 h2 h3 h4 h5 h6 h7 (m1.write (hN.add _ _) _) m2 m3 m4, hN.dlRead m1 _ _ _ _⟩
  | cho => exact ⟨mk h1 h2 h3 h4 h5 h6 h7 m1 (m2.write hx _) m3 m4, hN.dlRead m2 _ _ _ _⟩
  | dly =>
    have y := hN.dlRead m3 d.fs d.dlyCap b.widx.dly (delayOffset b)
    have r := hN.biquad (c := b.coef.dlyLp) h6 y
    exact ⟨mk h1 h2 h3 h4 h5 r.1 h7 m1 m2 (m3.write (hN.add _ _) _) m4, y⟩
  | rev => exact ⟨mk h1 h2 h3 h4 h5 h6 h7 m1 m2 m3 (m4.write hx _), hN.convolve _ _ _⟩

theorem DeviceClosed.runChain (c : Nat) {ch : Channel α} {x : α} (h : ch.All P) (hx : P x) :
    (runChain d b c ch x).1.All P ∧ P (runChain d b c ch x).2 := by
  have key : ∀ (sts : List Stage) (acc : Channel α × α), acc.1.All P ∧ P acc.2 →
      (sts.foldl (stageStep d b c) acc).1.All P ∧ P (sts.foldl (stageStep d b c) acc).2 := by
    intro sts
    induction sts with
    | nil => exact fun _ h => h
    | cons st sts ih => exact fun acc h => ih _ ⟨(hd.wetPath c st h.1 h.2).1, hd.add _ _⟩
  exact key chainOrder (ch, x) ⟨h, hx⟩

theorem DeviceClosed.tick (h : b.All P) {f : Frame α} (hf : P f.c0 ∧ P f.c1) :
    (tickBlock d b f).1.All P ∧ P (tickBlock d b f).2.c0 ∧ P (tickBlock d b f).2.c1 := by
  have hN := hd.toClosed
  have r0 := hd.runChain (b := beforeChain d b) 0 h.ch0 hf.1
  have r1 := hd.runChain (b := beforeChain d b) 1 h.ch1 hf.2
  refine ⟨⟨?_, ?_, ?_, ?_, ?_, h.job, ?_, ?_, ?_, h.banks⟩, ?_, ?_⟩
  · intro p; rw [tickBlock_par, Params.mapSmoothed_s]; exact ⟨(h.smoothed p).1, hN.smooth (h.smoothed p).1⟩
  · intro p; rw [tickBlock_par, Params.mapSmoothed_h]; exact h.held p
  · intro st
    rw [tickBlock_mix, Mixes.mapStages_of]
    have g := hN.gainTargets h.held st (b.mix.of st)
    exact ⟨hN.smooth g.1, hN.smooth g.2⟩
  · intro c hc
    simp only [List.mem_cons, List.not_mem_nil, or_false] at hc
    rcases hc with rfl | rfl | rfl | rfl | rfl | rfl | rfl <;> exact hN.coef _ _ _ _ _
  · intro l hl
    simp only [List.mem_cons, List.not_mem_nil, or_false] at hl
    rcases hl with rfl | rfl | rfl <;> exact hN.lfoTick _ _ _
  · rw [tickBlock_env]; exact hN.envTick (h.held .envSustain) h.env
  · rw [tickBlock_ch0]; exact r0.1
  · rw [tickBlock_ch1]; split
    · exact r1.1
    · exact h.ch1
  · rw [tickBlock_c0]; exact r0.2
  · rw [tickBlock_c1]; split
    · exact r1.2
    · exact hN.zero

omit [DecidableEq α] in
/-- A command leaves such a block. -/
theorem DeviceClosed.effect (h : b.All P) {i : Instr} {t : Block α} (e : Effect d i b t) : t.All P := by
  obtain ⟨h1, h2, h3, h4, h5, h6, h7, h8, h9, h10⟩ := h
  have held : ∀ p v, (∃ val, HParam.operand d p val = some v) → ∀ q, P ((b.par.setHeld p v).h q) := by
    rintro p v ⟨val, hv⟩ q
    rw [Params.setHeld_h]
    split
    · exact hd.heldOperand hv
    · exact h2 q
  cases e with
  | nop => exact ⟨h1, h2, h3, h4, h5, h6, h7, h8, h9, h10⟩
  | rejected => exact ⟨h1, h2, h3, h4, h5, h6, h7, h8, h9, h10⟩
  | target p v hp hv =>
    obtain ⟨val, hv⟩ := hv
    refine ⟨fun q => ?_, fun q => ?_, h3, h4, h5, h6, h7, h8, h9, h10⟩
    · rw [Block.setTgt_par, Params.setTgt_cur, Params.setTgt_s]
      refine ⟨?_, (h1 q).2⟩
      split
      · exact hd.smoothedOperand hv
      · exact (h1 q).1
    · rw [Block.setTgt_par, Params.setTgt_h]; exact h2 q
  | held p v hp hv =>
    exact ⟨fun q => by rw [Block.setHeld_par, Params.setHeld_s]; exact h1 q, held p v hv, h3, h4, h5, h6, h7, h8, h9, h10⟩
  | time val v hi hv =>
    refine ⟨fun q => ?_, held .revTime v ⟨val, hv⟩, h3, h4, h5, ?_, h7, h8, h9, h10⟩
    · rw [Block.setJob_par, Block.setHeld_par, Params.setHeld_s]; exact h1 q
    · intro dur hdur
      rw [Block.setJob_job, Option.mem_some_iff] at hdur
      subst hdur; exact hd.add _ _
  | active st a =>
    exact ⟨h1, h2, fun q => by rw [Block.setActive_mix, Mixes.setActive_wet, Mixes.setActive_dry]; exact h3 q,
      h4, h5, h6, h7, h8, h9, h10⟩
  | trig => exact ⟨h1, h2, h3, h4, h5, h6, ⟨h7.2, h7.2⟩, h8, h9, h10⟩
  | rel =>
    refine ⟨h1, h2, h3, h4, h5, h6, ?_, h8, h9, h10⟩
    show P (envRel d.num d.fs b.par.envRelease b.env).start ∧ P (envRel d.num d.fs b.par.envRelease b.env).amp
    unfold envRel
    split
    · exact ⟨h7.2, h7.2⟩
    · exact ⟨h7.2, h7.2⟩
    · exact ⟨h7.2, h7.2⟩
    · exact h7
    · exact h7

/-- So does a publication. -/
theorem DeviceClosed.publish (h : b.All P) (dur : α) (u : Nat → α) : (publish d b dur u).All P := by
  obtain ⟨h1, h2, h3, h4, h5, h6, h7, h8, h9, h10⟩ := h
  simp only [List.forall_mem_cons, List.not_mem_nil, false_imp_iff, implies_true, and_true] at h10
  obtain ⟨b1, b2, b3, b4⟩ := h10
  have g := hd.toClosed.gen d.fs d.revDecay dur d.irCap u
  cases hs : b.irSel <;> simp only [Machine.publish, Block.shadowBank, Block.setShadow, hs, Bool.false_eq_true, if_false,
    if_true] <;> refine ⟨h1, h2, h3, h4, h5, by simp, h7, h8, h9, ?_⟩ <;>
    simp only [List.forall_mem_cons, List.not_mem_nil, false_imp_iff, implies_true, and_true]
  · exact ⟨b1, b2, b3.writeAll _ g.1 0, b4.writeAll _ g.2 0⟩
  · exact ⟨b1.writeAll _ g.1 0, b2.writeAll _ g.2 0, b3, b4⟩

omit [DecidableEq α] in
/-- Reset leaves one. -/
theorem DeviceClosed.reset : (Block.reset d).All P := by
  have hN := hd.toClosed
  have z := hN.zero
  have hh : (resetHist d).All P := ⟨z, z, z, z⟩
  have hch : (resetChannel d).All P := by
    refine ⟨fun g hg => ?_, fun m hm => ?_⟩
    · simp only [resetChannel, List.cons_append, List.nil_append, List.mem_cons, List.mem_replicate] at hg
      rcases hg with rfl | rfl | rfl | rfl | rfl | rfl | ⟨-, rfl⟩ <;> exact hh
    · simp only [resetChannel, List.mem_cons, List.not_mem_nil, or_false, or_self] at hm
      subst hm; simp [Memory.All]
  refine ⟨fun p => ?_, fun p => ?_, fun st => ?_, fun c hc => ?_, fun l hl => ?_, ?_, ⟨z, z⟩, hch, hch, fun m hm => ?_⟩
  · have : P (resetSmoothed d p).tgt := Closed.clamp (hd.sdflt p) (hd.slo p) (hd.shi p)
    cases p <;> exact ⟨this, this⟩
  · have : P (resetHeld d p) := Closed.clamp (hd.hdflt p) (hd.hlo p) (hd.hhi p)
    cases p <;> first | exact this | exact z
  · cases st <;> exact ⟨z, hN.one⟩
  · simp only [Block.reset, List.mem_cons, List.not_mem_nil, or_false] at hc
    rcases hc with rfl | rfl | rfl | rfl | rfl | rfl | rfl <;> exact hN.coef _ _ _ _ _
  · simp only [Block.reset, List.mem_cons, List.not_mem_nil, or_false] at hl
    rcases hl with rfl | rfl | rfl <;> exact ⟨z, z⟩
  · simp [Block.reset]
  · simp only [Block.reset, resetBank, List.mem_cons, List.not_mem_nil, or_false, or_self] at hm
    subst hm; simp [Memory.All]

end

/-! ## The machine -/

/-- The results of the machine's number system are values of its carrier. -/
theorem closed_sys (n : NumSel) : Closed n.sys fun x => n.read x = x := by
  unfold NumSel.sys NumSel.read
  cases n.kind <;> exact ⟨fun _ _ => rfl, fun _ _ => rfl, fun _ _ => rfl, fun _ _ => rfl, fun _ => rfl, fun _ => rfl,
    fun _ => rfl⟩

/-- So is every number of its device. -/
theorem closed_device (cfg : Cfg) : DeviceClosed cfg.device fun x => cfg.num.read x = x where
  toClosed := closed_sys cfg.num
  slo p := by cases p <;> first | exact read_read _ _ | exact (closed_sys cfg.num).zero
  shi p := by cases p <;> exact read_read _ _
  sdflt p := by cases p <;> exact read_read _ _
  hlo p := by cases p <;> first | exact read_read _ _ | exact (closed_sys cfg.num).zero
  hhi p := by cases p <;> first | exact read_read _ _ | exact (closed_sys cfg.num).one
  hdflt p := by cases p <;> first | exact read_read _ _ | exact (closed_sys cfg.num).zero

end Sys2Proof.Machine
end

