-- ==== Sys2Proof/Laws/Decode.lean ====
section
/-! SUPPORT. The fields of an assembled word, and the word of given fields (30_encoding.md R90). -/

namespace Sys2Proof

variable (op stage param : BitVec 4) (val : Val)

/-- Bit `k` of an assembled word. -/
theorem mkWord_getLsbD (k : Nat) : (mkWord op stage param val).getLsbD k =
    if k < 32 then val.getLsbD k else if k < 52 then false else if k < 56 then param.getLsbD (k - 52)
    else if k < 60 then stage.getLsbD (k - 56) else op.getLsbD (k - 60) := by
  simp only [mkWord, BitVec.getLsbD_append]
  by_cases h1 : k < 32
  · simp [h1]
  by_cases h2 : k < 52
  · simp [h1, h2, show k - 32 < 20 by omega]
  by_cases h3 : k < 56
  · simp [h1, h2, h3, show ¬ k - 32 < 20 by omega, show k - 32 - 20 = k - 52 by omega,
      show k - 52 < 4 by omega]
  by_cases h4 : k < 60
  · simp [h1, h2, h3, h4, show ¬ k - 32 < 20 by omega, show ¬ k - 32 - 20 < 4 by omega,
      show k - 32 - 20 - 4 = k - 56 by omega, show k - 56 < 4 by omega]
  · simp [h1, h2, h3, h4, show ¬ k - 32 < 20 by omega, show ¬ k - 32 - 20 < 4 by omega,
      show ¬ k - 32 - 20 - 4 < 4 by omega, show k - 32 - 20 - 4 - 4 = k - 60 by omega]

@[simp] theorem mkWord_op : Word.op (mkWord op stage param val) = op := by
  apply BitVec.eq_of_getLsbD_eq
  intro i hi
  simp [Word.op, mkWord_getLsbD, hi, show ¬ 60 + i < 32 by omega,
    show ¬ 60 + i < 52 by omega, show ¬ 60 + i < 56 by omega, show ¬ 60 + i < 60 by omega]

@[simp] theorem mkWord_stage : Word.stage (mkWord op stage param val) = stage := by
  apply BitVec.eq_of_getLsbD_eq
  intro i hi
  simp [Word.stage, mkWord_getLsbD, hi, show ¬ 56 + i < 32 by omega,
    show ¬ 56 + i < 52 by omega, show ¬ 56 + i < 56 by omega, show 56 + i < 60 by omega]

@[simp] theorem mkWord_param : Word.param (mkWord op stage param val) = param := by
  apply BitVec.eq_of_getLsbD_eq
  intro i hi
  simp [Word.param, mkWord_getLsbD, hi, show ¬ 52 + i < 32 by omega,
    show ¬ 52 + i < 52 by omega, show 52 + i < 56 by omega]

@[simp] theorem mkWord_rsv : Word.rsv (mkWord op stage param val) = 0 := by
  apply BitVec.eq_of_getLsbD_eq
  intro i hi
  simp [Word.rsv, mkWord_getLsbD, BitVec.getLsbD_extractLsb', show ¬ 32 + i < 32 by omega,
    show 32 + i < 52 by omega]

@[simp] theorem mkWord_val : Word.val (mkWord op stage param val) = val := by
  apply BitVec.eq_of_getLsbD_eq
  intro i hi
  simp [Word.val, mkWord_getLsbD, hi]

/-- A word with `rsv` zero is assembled from its fields. -/
theorem mkWord_fields (w : Word) (h : w.rsv = 0) : mkWord w.op w.stage w.param w.val = w := by
  apply BitVec.eq_of_getLsbD_eq
  intro i hi
  rw [mkWord_getLsbD]
  by_cases h1 : i < 32
  · simp [h1, Word.val]
  by_cases h2 : i < 52
  · have := congrArg (fun v => BitVec.getLsbD v (i - 32)) h
    simp only [Word.rsv, BitVec.getLsbD_extractLsb', show i - 32 < 20 by omega, decide_true, Bool.true_and,
      show 32 + (i - 32) = i by omega] at this
    simp [h1, h2, this]
  by_cases h3 : i < 56
  · simp [h1, h2, h3, Word.param, show i - 52 < 4 by omega,
      show 52 + (i - 52) = i by omega]
  by_cases h4 : i < 60
  · simp [h1, h2, h3, h4, Word.stage, show i - 56 < 4 by omega,
      show 56 + (i - 56) = i by omega]
  · simp [h1, h2, h3, h4, Word.op, show i - 60 < 4 by omega,
      show 60 + (i - 60) = i by omega]

/-! ## Words of one operation -/

/-- The word of a settable pair and an operand that is no NaN decodes to its command. -/
theorem decode_setp {st pr : BitVec 4} {val : Val} {i : Instr} (h : setpOf st.toNat pr.toNat val = some i)
    (hn : isNaNPattern val = false) : decode (mkWord 1 st pr val) = .ok i := by
  simp [decode, decodeSetp, h, hn]

/-- The word of a chain stage and a flag decodes to its `SETA`. -/
theorem decode_seta {st : BitVec 4} {a : Bool} {i : Instr} (h : setaOf st.toNat a = some i) :
    decode (mkWord 2 st 0 (if a then 1 else 0)) = .ok i := by
  have h1 : (if a then 1 else 0 : Val).extractLsb' 1 31 = 0 := by cases a <;> rfl
  have h2 : (if a then 1 else 0 : Val).getLsbD 0 = a := by cases a <;> rfl
  simp only [decode, decodeSeta, mkWord_rsv, mkWord_op, mkWord_param, mkWord_val, mkWord_stage, h1, h2, h]
  rfl

/-- An upper half and an operand side by side are an assembled word. -/
theorem append_eq_mkWord {top : BitVec 32} (val : Val) {op st pr : BitVec 4} (h : top = op ++ st ++ pr ++ 0#20) :
    (top ++ val : Word) = mkWord op st pr val := by subst h; rfl

/-- A decoded instruction is a command: never one of the four operations with no encoding. -/
theorem decode_command {w : Word} {i : Instr} (h : decode w = .ok i) :
    i ≠ .reset ∧ (∀ f, i ≠ .tick f) ∧ (∀ a, i ≠ .read a) ∧ ∀ d, i ≠ .irgen d := by
  have hp : ∀ a b v j, setpOf a b v = some j →
      j ≠ .reset ∧ (∀ f, j ≠ .tick f) ∧ (∀ a, j ≠ .read a) ∧ ∀ d, j ≠ .irgen d := by
    intro a b v j hj
    unfold setpOf at hj
    split at hj <;> cases hj <;> simp
  have ha : ∀ a b j, setaOf a b = some j →
      j ≠ .reset ∧ (∀ f, j ≠ .tick f) ∧ (∀ a, j ≠ .read a) ∧ ∀ d, j ≠ .irgen d := by
    intro a b j hj
    unfold setaOf at hj
    split at hj <;> cases hj <;> simp
  unfold decode decodeSetp decodeSeta decodeEnv at h
  repeat' split at h
  all_goals first
    | (cases h; done)
    | (cases h; first | exact hp _ _ _ _ ‹_› | exact ha _ _ _ ‹_› | simp)

/-- A decoded instruction is well-formed. -/
theorem decode_wf {w : Word} {i : Instr} (h : decode w = .ok i) : i.wf = true := by
  have hp : ∀ a b v j, setpOf a b v = some j → j.wf = !isNaNPattern v := by
    intro a b v j hj
    unfold setpOf at hj
    split at hj <;> cases hj <;> rfl
  have ha : ∀ a b j, setaOf a b = some j → j.wf = true := by
    intro a b j hj
    unfold setaOf at hj
    split at hj <;> cases hj <;> rfl
  unfold decode decodeSetp decodeSeta decodeEnv at h
  repeat' split at h
  all_goals first
    | (cases h; done)
    | (cases h; first | (rw [hp _ _ _ _ ‹_›]; simpa using ‹¬ isNaNPattern _ = true›) | exact ha _ _ _ ‹_› | rfl)

end Sys2Proof
end

