-- ==== Sys2Proof/Laws/NumReal.lean ====
section
/-! SUPPORT. The operations of `NUM_REAL` over the reals (00_scope.md R11), one rewrite each, so that no later proof
unfolds `numReal`. -/

namespace Sys2Proof

open Machine

@[simp] theorem numReal_zero : numReal.zero = 0 := by simp [numReal, NumSys.zero]
@[simp] theorem numReal_one : numReal.one = 1 := by simp [numReal, NumSys.one]
@[simp] theorem numReal_two : numReal.two = 2 := by simp [numReal, NumSys.two]
@[simp] theorem numReal_add (a b : ℝ) : numReal.add a b = a + b := rfl
@[simp] theorem numReal_sub (a b : ℝ) : numReal.sub a b = a - b := rfl
@[simp] theorem numReal_mul (a b : ℝ) : numReal.mul a b = a * b := rfl
@[simp] theorem numReal_div (a b : ℝ) : numReal.div a b = a / b := rfl
@[simp] theorem numReal_neg (a : ℝ) : numReal.neg a = -a := rfl
@[simp] theorem numReal_exp (a : ℝ) : numReal.exp a = Real.exp a := rfl
@[simp] theorem numReal_sin (a : ℝ) : numReal.sin a = Real.sin a := rfl
@[simp] theorem numReal_cos (a : ℝ) : numReal.cos a = Real.cos a := rfl
@[simp] theorem numReal_sqrt (a : ℝ) : numReal.sqrt a = Real.sqrt a := rfl
@[simp] theorem numReal_pow (a b : ℝ) : numReal.pow a b = a ^ b := rfl
@[simp] theorem numReal_floor (a : ℝ) : numReal.floor a = ⌊a⌋ := rfl
@[simp] theorem numReal_ofInt (k : Int) : numReal.ofInt k = (k : ℝ) := rfl
@[simp] theorem numReal_ofDec (q : Rat) : numReal.ofDec q = (q : ℝ) := rfl
@[simp] theorem numReal_twoPi : numReal.twoPi = 2 * Real.pi := rfl
@[simp] theorem numReal_sqrt2 : numReal.sqrt2 = Real.sqrt 2 := rfl
@[simp] theorem numReal_lt (a b : ℝ) : numReal.lt a b = true ↔ a < b := by simp [numReal]
@[simp] theorem numReal_le (a b : ℝ) : numReal.le a b = true ↔ a ≤ b := by simp [numReal]

/-- The smoothing factor (R9). -/
theorem numReal_ks (fs tau : ℝ) : numReal.ks fs tau = Real.exp (-(1 / fs) / tau) := by simp [NumSys.ks, NumSys.dt]

/-- The smoother while it is on (40_tick_smoother_mix.md R122). -/
theorem smooth_of_pos {fs tau : ℝ} (h : 0 < tau) (t c : ℝ) :
    smooth numReal fs tau t c = t + (c - t) * numReal.ks fs tau := by simp [smooth, not_le.mpr h]

end Sys2Proof
end

