-- ==== Sys2Proof/Laws/Operands.lean ====
section
/-! SUPPORT. The operand of a `SETP` (30_encoding.md R98). -/

namespace Sys2Proof.Machine

variable {α : Type} {N : NumSys α} {lo hi v : α} {val : Val}

/-- The operand R98 describes is the one the model computes. -/
theorem IsOperand.value (h : IsOperand N lo hi val v) : operandValue N lo hi val = some v := by
  cases h with
  | posInf h => subst h; rfl
  | negInf h => subst h; rfl
  | finite h =>
    have h1 : isNaNPattern val = false := by
      have : ¬ val.extractLsb' 23 8 = 255#8 := h
      simp [isNaNPattern, this]
    have h2 : val ≠ posInfPattern := by rintro rfl; exact h rfl
    have h3 : val ≠ negInfPattern := by rintro rfl; exact h rfl
    simp [operandValue, h1, h2, h3]

/-- A pattern that has an operand is no NaN. -/
theorem IsOperand.notNaN (h : IsOperand N lo hi val v) : isNaNPattern val = false := by
  have := h.value
  unfold operandValue at this
  split at this
  · cases this
  · exact Bool.eq_false_iff.mpr ‹_›

theorem isNaN_iff (val : Val) : IsNaN val ↔ isNaNPattern val = true := by
  simp [IsNaN, isNaNPattern]

end Sys2Proof.Machine
end

