-- ==== Sys2Proof/Machine/Asm.lean ====
section
/-! DEFINITION. The assembler's textual form and the pseudo-instructions (30_encoding.md R103, R104). -/

namespace Sys2Proof.Asm

/-- The eleven stage names with their numbers (00_scope.md R16). -/
inductive StageName where
  | hpf | lpf | eql | eqm | eqh | pha | fla | cho | dly | rev | env
deriving DecidableEq, Repr

def StageName.num : StageName → BitVec 4
  | .hpf => 0
  | .lpf => 1
  | .eql => 2
  | .eqm => 3
  | .eqh => 4
  | .pha => 5
  | .fla => 6
  | .cho => 7
  | .dly => 8
  | .rev => 9
  | .env => 10

/-- The twelve parameter names with their numbers (R16). -/
inductive ParamName where
  | frequency | q | gain | rate | depth | feedback | mix | time | attack | decay | sustain | release
deriving DecidableEq, Repr

def ParamName.num : ParamName → BitVec 4
  | .frequency => 0
  | .q => 1
  | .gain => 2
  | .rate => 3
  | .depth => 4
  | .feedback => 5
  | .mix => 6
  | .time => 7
  | .attack => 8
  | .decay => 9
  | .sustain => 10
  | .release => 11

/-- One line of a program (R103): a command, or a directive for a step of another agent. -/
inductive Line where
  | setp (stage : StageName) (param : ParamName) (v : Rat)
  | seta (stage : StageName) (a : Bool)
  | trig
  | rel
  | nop
  | tick (c0 : Rat) (c1 : Rat)
  | irgen (draws : List Rat)
  | read (a : Addr)
deriving DecidableEq, Repr

/-- What a line asks of the machine: the command word, or the step of the directive. A decimal operand of a command
becomes the nearest binary32 (R103). -/
def Line.event (N : NumSys Scalar) : Line → Event
  | .setp st p v => .word (mkWord 1 st.num p.num (nearestPattern v))
  | .seta st a => .word (mkWord 2 st.num 0 (if a then 1 else 0))
  | .trig => .word (mkWord 3 10 0 0)
  | .rel => .word (mkWord 4 10 0 0)
  | .nop => .word 0
  | .tick a b => .tick { c0 := N.ofDec a, c1 := N.ofDec b }
  | .irgen us => .irgen (us.map N.ofDec)
  | .read a => .read a

/-! ## Text (R103, log 22) -/

/-- The text before a comment. -/
def uncomment : List Char → List Char
  | [] => []
  | c :: cs => if c = ';' then [] else c :: uncomment cs

/-- The words of a line; spaces, tabs and commas separate them. `cur` is the word being read, reversed. -/
def wordsFrom (cur : List Char) : List Char → List (List Char)
  | [] => if cur.isEmpty then [] else [cur.reverse]
  | c :: cs =>
    if c = ' ' ∨ c = ',' ∨ c = '\t' then
      (if cur.isEmpty then wordsFrom [] cs else cur.reverse :: wordsFrom [] cs)
    else wordsFrom (c :: cur) cs

/-- The value of a digit in a base. -/
def digit (base : Nat) (c : Char) : Option Nat :=
  let n := c.toNat
  let d := if 48 ≤ n ∧ n ≤ 57 then some (n - 48) else if 65 ≤ n ∧ n ≤ 70 then some (n - 55)
    else if 97 ≤ n ∧ n ≤ 102 then some (n - 87) else none
  match d with
  | some k => if k < base then some k else none
  | none => none

/-- A natural number from digits, at least one. -/
def natOf (base : Nat) : List Char → Option Nat
  | [] => none
  | cs => cs.foldl (fun acc c => match acc, digit base c with
      | some a, some d => some (a * base + d)
      | _, _ => none) (some 0)

/-- The part of a word before a dot and the part after it. -/
def splitDot : List Char → List Char × Option (List Char)
  | [] => ([], none)
  | c :: cs => if c = '.' then ([], some cs) else (c :: (splitDot cs).1, (splitDot cs).2)

/-- An unsigned decimal literal. -/
def unsignedDecimal (cs : List Char) : Option Rat :=
  match splitDot cs with
  | (whole, none) => (natOf 10 whole).map fun n => (n : Rat)
  | (whole, some frac) =>
    match natOf 10 whole, natOf 10 frac with
    | some n, some f => some ((n : Rat) + (f : Rat) / ((10 ^ frac.length : Nat) : Rat))
    | _, _ => none

/-- A decimal literal with an optional minus sign. DESIGN CHOICE (log 22): a literal is a number, so `-0.0` is 0 and its
pattern is `0x0000_0000`; R103 and R94 leave open which of the two zero patterns it has. -/
def decimal : List Char → Option Rat
  | '-' :: cs => (unsignedDecimal cs).map fun q => -q
  | cs => unsignedDecimal cs

/-- A 9-bit address, hexadecimal after `0x`, else decimal. -/
def address (cs : List Char) : Option Addr :=
  let n := match cs with
    | '0' :: 'x' :: hs => natOf 16 hs
    | _ => natOf 10 cs
  match n with
  | some k => if k < 512 then some (BitVec.ofNat 9 k) else none
  | none => none

def stageNames : List (List Char × StageName) :=
  [("hpf".toList, .hpf), ("lpf".toList, .lpf), ("eql".toList, .eql), ("eqm".toList, .eqm), ("eqh".toList, .eqh),
   ("pha".toList, .pha), ("fla".toList, .fla), ("cho".toList, .cho), ("dly".toList, .dly), ("rev".toList, .rev),
   ("env".toList, .env)]

def paramNames : List (List Char × ParamName) :=
  [("frequency".toList, .frequency), ("q".toList, .q), ("gain".toList, .gain), ("rate".toList, .rate),
   ("depth".toList, .depth), ("feedback".toList, .feedback), ("mix".toList, .mix), ("time".toList, .time),
   ("attack".toList, .attack), ("decay".toList, .decay), ("sustain".toList, .sustain), ("release".toList, .release)]

/-- Every word a decimal, or none. -/
def decimals : List (List Char) → Option (List Rat)
  | [] => some []
  | w :: ws =>
    match decimal w, decimals ws with
    | some q, some qs => some (q :: qs)
    | _, _ => none

/-- `setp <stage>.<param>, <decimal>`. -/
def setpLine (target value : List Char) : Option Line :=
  match splitDot target with
  | (st, some p) =>
    match pinned stageNames st, pinned paramNames p, decimal value with
    | some s, some n, some v => some (.setp s n v)
    | _, _, _ => none
  | (_, none) => none

/-- `seta <stage>, <0|1>`. -/
def setaLine (st value : List Char) : Option Line :=
  match pinned stageNames st with
  | some s => if value = ['1'] then some (.seta s true) else if value = ['0'] then some (.seta s false) else none
  | none => none

/-- A line from its words (R103). DESIGN CHOICE (log 22): a line is one command or one directive, with no repetition. The
shorthands by which 95_test_vectors.md repeats a directive (P5 `tick 0,0  x 10`, P3 `tick 1.0  then nine times  tick 0.0`,
P6 `irgen <153600 draws>`) are forms R103 does not define, and none of them is a line. -/
def lineOfWords : List (List Char) → Option Line
  | [m] =>
    if m = "trig".toList then some .trig else if m = "rel".toList then some .rel
    else if m = "nop".toList then some .nop else if m = "irgen".toList then some (.irgen []) else none
  | [m, a] =>
    if m = "tick".toList then (decimal a).map fun x => .tick x 0
    else if m = "irgen".toList then (decimal a).map fun x => .irgen [x]
    else if m = "read".toList then (address a).map .read
    else none
  | [m, a, b] =>
    if m = "setp".toList then setpLine a b
    else if m = "seta".toList then setaLine a b
    else if m = "tick".toList then
      match decimal a, decimal b with
      | some x, some y => some (.tick x y)
      | _, _ => none
    else if m = "irgen".toList then (decimals [a, b]).map .irgen
    else none
  | m :: ws => if m = "irgen".toList then (decimals ws).map .irgen else none
  | [] => none

/-- One line of text: a line of the program, nothing (blank or comment only), or no sentence of the language. -/
inductive Parsed where
  | line (l : Line)
  | blank
  | bad
deriving DecidableEq, Repr

def parse (text : String) : Parsed :=
  match wordsFrom [] (uncomment text.toList) with
  | [] => .blank
  | ws =>
    match lineOfWords ws with
    | some l => .line l
    | none => .bad

/-! ## Pseudo-instructions (R104) -/

/-- The document's own call names, and the spec's `bypass`. -/
inductive Pseudo where
  | setParameter (stage : StageName) (name : ParamName) (v : Rat)
  | setActive (stage : StageName) (b : Bool)
  | setRate (stage : StageName) (v : Rat)
  | setDepth (stage : StageName) (v : Rat)
  | setMix (stage : StageName) (v : Rat)
  | setFeedback (stage : StageName) (v : Rat)
  | setTime (stage : StageName) (v : Rat)
  | trigger
  | release
  | processBlock (input : List (Rat × Rat))
  | bypass (stage : StageName)
deriving DecidableEq, Repr

/-- The expansion of R104's table; none for a stage the table does not list for the call. -/
def Pseudo.expand : Pseudo → Option (List Line)
  | .setParameter st n v => some [.setp st n v]
  | .setActive st b => some [.seta st b]
  | .setRate st v => if st = .pha ∨ st = .fla ∨ st = .cho then some [.setp st .rate v] else none
  | .setDepth st v => if st = .pha then some [.setp st .depth v] else none
  | .setMix st v =>
    if st = .pha ∨ st = .fla ∨ st = .cho ∨ st = .dly ∨ st = .rev then some [.setp st .mix v] else none
  | .setFeedback st v => if st = .fla ∨ st = .dly then some [.setp st .feedback v] else none
  | .setTime st v => if st = .dly ∨ st = .rev then some [.setp st .time v] else none
  | .trigger => some [.trig]
  | .release => some [.rel]
  | .processBlock input => some (input.map fun f => .tick f.1 f.2)
  | .bypass st => some [.seta st false]

end Sys2Proof.Asm
end

