-- ==== Sys2Proof/Tests/Slice0.lean ====
section
/-! SUPPORT. Tests on fixed values, each expected value from the spec (95_test_vectors.md, or the example of the rule
named), and, for every statement with hypotheses, a witness that meets them all. -/

namespace Sys2Proof.Slice0Tests

-- The kernel runs the tests one after another: many at once take more threads than they are worth.
set_option Elab.async false

open Machine

/-! ## Well-formedness (30_encoding.md R97, R98) -/

/-- Every `SETP` refuses a quiet and a signalling NaN pattern of either sign. -/
theorem test_wf_refuses_nan :
    ∀ row ∈ setpTable, (row.2 0x7FC00000).wf = false ∧ (row.2 0x7F800001).wf = false ∧ (row.2 0xFFFFFFFF).wf = false := by
  decide

/-- And takes the infinities and the greatest finite pattern. -/
theorem test_wf_accepts_infinity :
    ∀ row ∈ setpTable, (row.2 0x7F800000).wf = true ∧ (row.2 0xFF800000).wf = true ∧ (row.2 0x7F7FFFFF).wf = true := by
  decide

/-- R272: an `IRGEN` takes draws in [−1, 1] only. -/
theorem test_wf_draws :
    (Instr.irgen [.fin 1, .fin (-1), .bits 0x80000000, .bits 0xBF800000]).wf = true ∧ (Instr.irgen [.fin (3 / 2)]).wf = false ∧
    (Instr.irgen [.bits 0, .bits 0x7FC00000]).wf = false ∧ (Instr.irgen [.bits 0xFF800000]).wf = false ∧
    (Instr.irgen [.bits 0x3F800001]).wf = false := by decide +kernel

theorem test_wf_refuses_hpf_nan : (Instr.setpHpfFrequency 0x7FC00000).wf = false := by decide

/-! ## Decoding: words from the rules' own examples -/

theorem test_decode_nop : decode 0x0000000000000000 = .ok .nop ∧ decode 0x0000000000000001 = .error .nopNotZero := by
  decide

theorem test_decode_hpf_lpf :
    decode 0x1000000042A00000 = .ok (.setpHpfFrequency 0x42A00000) ∧ decode 0x101000003F34FDF4 = .ok (.setpHpfQ 0x3F34FDF4) ∧
    decode 0x11000000463B8000 = .ok (.setpLpfFrequency 0x463B8000) ∧ decode 0x1110000040000000 = .ok (.setpLpfQ 0x40000000) := by
  decide

theorem test_decode_eql_eqh :
    decode 0x12000000437A0000 = .ok (.setpEqlFrequency 0x437A0000) ∧ decode 0x1220000040C00000 = .ok (.setpEqlGain 0x40C00000) ∧
    decode 0x14000000457A0000 = .ok (.setpEqhFrequency 0x457A0000) ∧ decode 0x14200000C2200000 = .ok (.setpEqhGain 0xC2200000) := by
  decide

theorem test_decode_eqm :
    decode 0x13000000447A0000 = .ok (.setpEqmFrequency 0x447A0000) ∧ decode 0x131000003F800000 = .ok (.setpEqmQ 0x3F800000) ∧
    decode 0x13200000C0400000 = .ok (.setpEqmGain 0xC0400000) := by decide

theorem test_decode_pha :
    decode 0x153000003F000000 = .ok (.setpPhaRate 0x3F000000) ∧ decode 0x1540000043FA0000 = .ok (.setpPhaDepth 0x43FA0000) ∧
    decode 0x156000003F400000 = .ok (.setpPhaMix 0x3F400000) := by decide

theorem test_decode_fla :
    decode 0x163000003E800000 = .ok (.setpFlaRate 0x3E800000) ∧ decode 0x165000003F000000 = .ok (.setpFlaFeedback 0x3F000000) ∧
    decode 0x166000003F800000 = .ok (.setpFlaMix 0x3F800000) := by decide

theorem test_decode_cho :
    decode 0x173000003FC00000 = .ok (.setpChoRate 0x3FC00000) ∧ decode 0x176000003F000000 = .ok (.setpChoMix 0x3F000000) := by
  decide

theorem test_decode_dly :
    decode 0x187000003E99999A = .ok (.setpDlyTime 0x3E99999A) ∧ decode 0x185000003ECCCCCD = .ok (.setpDlyFeedback 0x3ECCCCCD) ∧
    decode 0x186000003F800000 = .ok (.setpDlyMix 0x3F800000) := by decide

theorem test_decode_rev :
    decode 0x197000003F000000 = .ok (.setpRevTime 0x3F000000) ∧ decode 0x196000003E800000 = .ok (.setpRevMix 0x3E800000) := by
  decide

theorem test_decode_env :
    decode 0x1A8000003DCCCCCD = .ok (.setpEnvAttack 0x3DCCCCCD) ∧ decode 0x1A9000003DCCCCCD = .ok (.setpEnvDecay 0x3DCCCCCD) ∧
    decode 0x1AA000003F000000 = .ok (.setpEnvSustain 0x3F000000) ∧ decode 0x1AB000003E4CCCCD = .ok (.setpEnvRelease 0x3E4CCCCD) := by
  decide

theorem test_decode_seta_filters :
    decode 0x2000000000000001 = .ok (.setaHpf true) ∧ decode 0x2100000000000000 = .ok (.setaLpf false) ∧
    decode 0x2200000000000001 = .ok (.setaEql true) ∧ decode 0x2300000000000001 = .ok (.setaEqm true) ∧
    decode 0x2400000000000001 = .ok (.setaEqh true) := by decide

theorem test_decode_seta_effects :
    decode 0x2500000000000001 = .ok (.setaPha true) ∧ decode 0x2600000000000001 = .ok (.setaFla true) ∧
    decode 0x2700000000000000 = .ok (.setaCho false) ∧ decode 0x2800000000000001 = .ok (.setaDly true) ∧
    decode 0x2900000000000001 = .ok (.setaRev true) := by decide

theorem test_decode_trig_rel : decode 0x3A00000000000000 = .ok .trig ∧ decode 0x4A00000000000000 = .ok .rel := by decide

/-- The rejected words of V1. -/
theorem test_decode_rejects_setp :
    decode 0x100000007FC00000 = .error .nanValue ∧ decode 0x100000007F800001 = .error .nanValue ∧
    decode 0x1000000142A00000 = .error .rsvNotZero ∧ decode 0x102000003F800000 = .error .noSuchPair ∧
    decode 0x164000003B000000 = .error .noSuchPair ∧ decode 0x175000003F000000 = .error .noSuchPair ∧
    decode 0x1B0000003F800000 = .error .noSuchPair := by decide

theorem test_decode_rejects_others :
    decode 0x2500000000000002 = .error .setaVal ∧ decode 0x2510000000000001 = .error .setaParam ∧
    decode 0x2A00000000000001 = .error .setaStage ∧ decode 0x3900000000000000 = .error .envStage ∧
    decode 0x3A00000000000001 = .error .envVal ∧ decode 0x5000000000000000 = .error .reservedOp ∧
    decode 0xFFFFFFFFFFFFFFFF = .error .rsvNotZero := by decide

theorem test_decodeTableWord : decodeTableWord 64 0x156000003F400000 = some (.setpPhaMix 0x3F400000) := by decide

/-- R103: the text of an instruction and its word; `-3.0` is `0xC040_0000`. -/
theorem test_asm_setp :
    Asm.parse "setp eqm.gain, -3.0 ; three down" = .line (.setp .eqm .gain (-3)) ∧
    (Asm.Line.setp .eqm .gain (-3)).event Cfg.default.sys = .word 0x13200000C0400000 := by decide +kernel

/-- Log 22: the literal `-0.0` has the pattern of +0. -/
theorem test_asm_minus_zero :
    Asm.parse "setp eqm.gain, -0.0" = .line (.setp .eqm .gain 0) ∧
    (Asm.Line.setp .eqm .gain 0).event Cfg.default.sys = .word 0x1320000000000000 := by decide +kernel

/-! ## One command, from reset with CFG-DEFAULT -/

/-- The state after one entry, if the machine goes on. -/
def next? (e : Event) (s : State) : Option State :=
  match runEvent e s with
  | .next t => some t
  | .fault _ => none
  | .refused _ => none

/-- The target a command word leaves in a smoothed entry. -/
def tgtAfter (w : Word) (p : SParam) : Option Scalar := (next? (.word w) State.reset).map fun t => (t.par.s p).tgt

/-- The value it leaves in a held one. -/
def heldAfter (w : Word) (p : HParam) : Option Scalar := (next? (.word w) State.reset).map fun t => t.par.h p

/-- The gain targets of a stage after a command word, from reset with the stage active. -/
def gainsAfter (w : Word) (st : Stage) (on : Word) : Option (Scalar × Scalar) :=
  match next? (.word on) State.reset with
  | none => none
  | some s => (next? (.word w) s).map fun t => (t.wetTgt st, t.dryTgt st)

/-- V1: above, below, at both infinities. -/
theorem test_hpf_frequency :
    tgtAfter 0x1000000046EA6000 .hpfFrequency = some (.fin 23999) ∧ tgtAfter 0x1000000000000000 .hpfFrequency = some (.fin 1) ∧
    tgtAfter 0x100000007F800000 .hpfFrequency = some (.fin 23999) ∧ tgtAfter 0x10000000FF800000 .hpfFrequency = some (.fin 1) := by
  decide +kernel

/-- R161: zero is clamped to `Q_MIN`. -/
theorem test_hpf_q : tgtAfter 0x1010000000000000 .hpfQ = some (.fin (1 / 100)) := by decide +kernel

theorem test_lpf :
    tgtAfter 0x11000000463B8000 .lpfFrequency = some (.fin 12000) ∧ tgtAfter 0x1110000040000000 .lpfQ = some (.fin 2) := by
  decide +kernel

theorem test_eql :
    tgtAfter 0x12000000437A0000 .eqlFrequency = some (.fin 250) ∧ tgtAfter 0x1220000040C00000 .eqlGain = some (.fin 6) := by
  decide +kernel

/-- R168: −3 dB, and 100 dB clamped to `G_MAX`. -/
theorem test_eqm :
    tgtAfter 0x13000000447A0000 .eqmFrequency = some (.fin 1000) ∧ tgtAfter 0x131000003F800000 .eqmQ = some (.fin 1) ∧
    tgtAfter 0x13200000C0400000 .eqmGain = some (.fin (-3)) ∧ tgtAfter 0x1320000042C80000 .eqmGain = some (.fin 40) := by
  decide +kernel

theorem test_eqh :
    tgtAfter 0x14000000457A0000 .eqhFrequency = some (.fin 4000) ∧ tgtAfter 0x14200000C2200000 .eqhGain = some (.fin (-40)) := by
  decide +kernel

theorem test_pha :
    tgtAfter 0x153000003F000000 .phaRate = some (.fin (1 / 2)) ∧ tgtAfter 0x1540000043FA0000 .phaDepth = some (.fin 500) := by
  decide +kernel

/-- R217: `mix` 0.75 gives wet 0.75, dry 0.625; V1: `mix` 2.0 is 1. -/
theorem test_pha_mix :
    gainsAfter 0x156000003F400000 .pha 0x2500000000000001 = some (.fin (3 / 4), .fin (5 / 8)) ∧
    heldAfter 0x1560000040000000 .phaMix = some (.fin 1) := by decide +kernel

/-- V1: 1.5 is clamped to `FB_MAX`, −0.5 to 0. -/
theorem test_fla :
    tgtAfter 0x163000003E800000 .flaRate = some (.fin (1 / 4)) ∧ tgtAfter 0x165000003FC00000 .flaFeedback = some (.fin (95 / 100)) ∧
    tgtAfter 0x16500000BF000000 .flaFeedback = some (.fin 0) := by decide +kernel

theorem test_fla_mix : gainsAfter 0x166000003F800000 .fla 0x2600000000000001 = some (.fin 1, .fin (1 / 2)) := by decide +kernel

theorem test_cho :
    tgtAfter 0x173000003FC00000 .choRate = some (.fin (3 / 2)) ∧
    gainsAfter 0x176000003F000000 .cho 0x2700000000000001 = some (.fin (1 / 2), .fin (3 / 4)) := by decide +kernel

/-- The binary32 nearest to 0.3 is 10066330 ÷ 2^25; 3 s is clamped to `DLY_TMAX`, 2 s. -/
theorem test_dly_time :
    tgtAfter 0x187000003E99999A .dlyTime = some (.fin (10066330 / 33554432)) ∧ tgtAfter 0x1870000040400000 .dlyTime = some (.fin 2) := by
  decide +kernel

theorem test_dly_feedback_mix :
    tgtAfter 0x185000003F000000 .dlyFeedback = some (.fin (1 / 2)) ∧
    gainsAfter 0x186000003F800000 .dly 0x2800000000000001 = some (.fin 1, .fin (1 / 2)) := by decide +kernel

/-- R270: `v = 0.5` asks for 1.6 s; V10 (d): 2.0 is clamped to 1, which asks for 3.1 s. -/
theorem test_rev_time :
    (next? (.word 0x197000003F000000) State.reset).map (fun t => (t.par.revTime, t.job)) = some (.fin (1 / 2), some (.fin (8 / 5))) ∧
    (next? (.word 0x1970000040000000) State.reset).map (fun t => (t.par.revTime, t.job)) = some (.fin 1, some (.fin (31 / 10))) := by
  decide +kernel

theorem test_rev_mix : gainsAfter 0x196000003E800000 .rev 0x2900000000000001 = some (.fin (1 / 4), .fin (7 / 8)) := by decide +kernel

/-- V1: 0 s is clamped to `ENV_T_MIN`; the binary32 nearest to 0.2 is 13421773 ÷ 2^26. -/
theorem test_env_parameters :
    heldAfter 0x1A80000000000000 .envAttack = some (.fin (1 / 1000)) ∧ heldAfter 0x1A90000041A00000 .envDecay = some (.fin 10) ∧
    heldAfter 0x1AA000003E800000 .envSustain = some (.fin (1 / 4)) ∧
    heldAfter 0x1AB000003E4CCCCD .envRelease = some (.fin (13421773 / 67108864)) := by decide +kernel

/-- A NaN, reserved or unknown word: `BADCMD <- 1`, the target unchanged (R97). -/
theorem test_rejected_word :
    (next? (.word 0x100000007FC00000) State.reset).map (fun t => (t.badcmd, (t.par.s .hpfFrequency).tgt)) = some (true, .fin 20) ∧
    (next? (.word 0x5000000000000000) State.reset).map (fun t => t.badcmd) = some true ∧
    (next? (.word 0) State.reset).map (fun t => t.badcmd) = some false := by decide +kernel

/-- R126, V9: a filter stage's gain targets, active and inactive; the current gains wait for a TICK. -/
theorem test_seta_filters :
    ∀ row ∈ [(0x2000000000000001#64, Stage.hpf), (0x2100000000000001#64, Stage.lpf), (0x2200000000000001#64, Stage.eql),
             (0x2300000000000001#64, Stage.eqm), (0x2400000000000001#64, Stage.eqh)],
      (next? (.word row.1) State.reset).map (fun t => (t.wetTgt row.2, t.dryTgt row.2, t.mix.of row.2)) =
        some (.fin 1, .fin 0, { active := true, wet := .fin 0, dry := .fin 1 }) := by decide +kernel

/-- R126: an effect stage at its default mix, 0.5. -/
theorem test_seta_effects :
    ∀ row ∈ [(0x2500000000000001#64, Stage.pha), (0x2600000000000001#64, Stage.fla), (0x2700000000000001#64, Stage.cho),
             (0x2800000000000001#64, Stage.dly), (0x2900000000000001#64, Stage.rev)],
      (next? (.word row.1) State.reset).map (fun t => (t.wetTgt row.2, t.dryTgt row.2, (t.mix.of row.2).active)) =
        some (.fin (1 / 2), .fin (3 / 4), true) := by decide +kernel

/-- `SETA.PHA 0` of an active stage. -/
theorem test_seta_off : gainsAfter 0x2500000000000000 .pha 0x2500000000000001 = some (.fin 0, .fin 1) := by decide +kernel

/-! ## READ (V12, P6) -/

/-- The word a READ puts out. -/
def readOf (s : State) (a : Addr) : Option Val := (next? (.read a) s).map (·.readData)

theorem test_read_parameters :
    readOf State.reset 0x000 = some 0x41A00000 ∧ readOf State.reset 0x001 = some 0x3F34FDF4 ∧
    readOf State.reset 0x010 = some 0x469C4000 ∧ readOf State.reset 0x0A8 = some 0x3DCCCCCD ∧
    readOf State.reset 0x002 = some 0 ∧ readOf State.reset 0x05E = some 0x3F800000 ∧ readOf State.reset 0x0B0 = some 0 := by
  decide +kernel

theorem test_read_globals :
    readOf { State.reset with badcmd := true, job := some (.fin 1) } 0x0F0 = some 3 ∧ readOf State.reset 0x0F1 = some 1 ∧
    readOf { State.reset with irSel := true, irVer := 7 } 0x0F0 = some 4 ∧ readOf { State.reset with irVer := 7 } 0x0F2 = some 7 ∧
    readOf { State.reset with env := { State.reset.env with ph := .release } } 0x0F4 = some 4 ∧
    readOf State.reset 0x0F5 = some 1 ∧ readOf State.reset 0x0F6 = some 0 := by decide +kernel

/-! ## Function level (V2 to V5, V8, V10) -/

/-- Points for an exact number system with a full turn written as 4, so that quarter turns have rational sines and cosines,
and with points for the frequencies the two test configurations reset to. -/
def quarter : FnTable Scalar :=
  { twoPi := some (.fin 4), sqrt2 := some (.fin 1)
    sin := [(.fin 1, .fin 1), (.fin 2, .fin 0), (.fin 3, .fin (-1)), (.fin (5 / 64), .fin 1), (.fin (511 / 256), .fin 1),
            (.fin (125 / 128), .fin 1), (.fin (19 / 10), .fin 1)]
    cos := [(.fin 1, .fin 0), (.fin 2, .fin (-1)), (.fin 3, .fin 0), (.fin (5 / 64), .fin 0), (.fin (511 / 256), .fin 0),
            (.fin (125 / 128), .fin 0), (.fin (19 / 10), .fin 0)]
    exp := [(.fin (-1), .fin (1 / 2))]
    sqrt := [(.fin 2, .fin 2)]
    pow := [((.fin 10, .fin (1 / 80)), .fin 2)] }

def turn4 : NumSys Scalar := NumSys.listed quarter

/-- V2 (a): with `KS = 0.5` (`FS = TAU = 1`). -/
theorem test_smooth :
    smooth turn4 (.fin 1) (.fin 1) (.fin 1) (.fin 0) = .fin (1 / 2) ∧ smooth turn4 (.fin 1) (.fin 1) (.fin 1) (.fin (3 / 4)) = .fin (7 / 8) ∧
    smooth turn4 (.fin 1) (.fin 1) (.fin (-2)) (.fin 2) = .fin 0 ∧ smooth turn4 (.fin 1) (.fin 0) (.fin (-2)) (.fin 2) = .fin (-2) := by
  decide +kernel

/-- `coef` at `FS = 1024`, `f = 256`. -/
def coefOf (shape : Shape Scalar) : List Scalar :=
  let c := coef turn4 (.fin 1024) (.fin 1) (.fin 511) shape (.fin 256)
  [c.b0, c.b1, c.b2, c.a1, c.a2]

/-- V3, the types without a gain. -/
theorem test_coef_plain :
    coefOf (.lowpass (.fin 1)) = [1 / 3, 2 / 3, 1 / 3, 0, 1 / 3].map Scalar.fin ∧
    coefOf (.highpass (.fin (1 / 2))) = [1 / 4, -1 / 2, 1 / 4, 0, 0].map Scalar.fin ∧
    coefOf (.allpass (.fin 1)) = [1 / 3, 0, 1, 0, 1 / 3].map Scalar.fin := by decide +kernel

/-- V3, peaking, with `A = 2`. -/
theorem test_coef_peaking :
    coefOf (.peaking (.fin (1 / 2)) (.fin (1 / 2))) = [2, 0, -2 / 3, 0, 1 / 3].map Scalar.fin ∧
    coefOf (.peaking (.fin 1) (.fin 0)) = [1, 0, 1 / 3, 0, 1 / 3].map Scalar.fin := by decide +kernel

/-- V3, the shelves, with `A = 2`; of `sqrt A` and `SQRT2` only the product counts, which `quarter` has as 2. -/
theorem test_coef_shelves :
    coefOf (.lowshelf (.fin (1 / 2))) = [2, 4 / 5, 2 / 5, -2 / 5, 1 / 5].map Scalar.fin ∧
    coefOf (.highshelf (.fin (1 / 2))) = [2, -4 / 5, 2 / 5, 2 / 5, 1 / 5].map Scalar.fin := by decide +kernel

/-- R155: frequencies outside the bounds. -/
theorem test_coef_clamps :
    coef turn4 (.fin 1024) (.fin 1) (.fin 511) (.lowpass (.fin 1)) (.fin 600) =
      coef turn4 (.fin 1024) (.fin 1) (.fin 511) (.lowpass (.fin 1)) (.fin 511) := by decide +kernel

/-- V4 (c): the second Sample of the recursion `y = x + 0.5 y1`, and the history it leaves. -/
theorem test_biquad :
    biquad turn4 { b0 := .fin 1, b1 := .fin 0, b2 := .fin 0, a1 := .fin (-1 / 2), a2 := .fin 0 }
        { x1 := .fin 1, x2 := .fin 0, y1 := .fin 1, y2 := .fin 0 } (.fin 0) =
      ({ x1 := .fin 0, x2 := .fin 1, y1 := .fin (1 / 2), y2 := .fin 1 }, .fin (1 / 2)) := by decide +kernel

/-- V5 (b): a quarter turn a tick, the last one wrapping to 0. -/
theorem test_lfo :
    lfoTick turn4 (.fin 1024) (.fin 256) { phase := .fin 2, val := .fin 0 } = { phase := .fin 3, val := .fin (-1) } ∧
    lfoTick turn4 (.fin 1024) (.fin 256) { phase := .fin 3, val := .fin (-1) } = { phase := .fin 0, val := .fin 0 } := by decide +kernel

/-- V8, all ten rows. -/
theorem test_delay_read :
    ([1, 2, 3, 4, 9 / 4, 7 / 2, 3 / 2, 3 / 10, 0, 9].map fun d : Rat =>
      dlRead turn4 (.fin 1) 4 1 [(0, .fin 10), (1, .fin 20), (2, .fin 30), (3, .fin 40)] (.fin d)) =
    [10, 40, 30, 20, 75 / 2, 25, 25, 10, 10, 20].map Scalar.fin := by decide +kernel

/-- V8, last line. -/
theorem test_delay_advance : advance 4 3 = 0 ∧ dlWrite turn4 3 [] (.fin 5) = [(3, .fin 5)] := by decide +kernel

/-- A device with the numbers of `turn4`, to take draws with. -/
def deviceB : Device Scalar := (Cfg.defaultOf { kind := .listed, fns := quarter }).device

/-- V10 (a). -/
theorem test_gen :
    gen turn4 (.fin 40) (.fin 2) 125 (drawAt deviceB ([1, -1, 1 / 2, 1, -1, 1, 1, -1].map Scalar.fin) 0) (.fin (1 / 10)) =
      (4, [1, -9 / 16, 1 / 8, 1 / 16].map Scalar.fin, [-1, 9 / 16, 1 / 4, -1 / 16].map Scalar.fin) := by decide +kernel

/-- V10 (c): the silent buffer. -/
theorem test_gen_silent :
    gen turn4 (.fin 40) (.fin 2) 125 (drawAt deviceB [] 0) (.fin 0) = (1, [.fin 0], [.fin 0]) ∧
    gen turn4 (.fin 40) (.fin 2) 125 (drawAt deviceB [] 0) (.fin (-1)) = (1, [.fin 0], [.fin 0]) ∧
    gen turn4 (.fin 40) (.fin 2) 125 (drawAt deviceB [] 0) (.fin (1 / 50)) = (1, [.fin 0], [.fin 0]) := by decide +kernel

/-- V11 (f). -/
theorem test_phaseTicks :
    phaseTicks turn4 (.fin 48000) (.fin (1 / 1000)) = 48 ∧ phaseTicks turn4 (.fin 40) (.fin (1 / 1000)) = 1 ∧
    phaseTicks turn4 (.fin 40) (.fin (4 / 100)) = 2 := by decide +kernel

/-- R94, R98: the greatest subnormal pattern, one, and minus zero; and `NUM_F32`'s rounding, R11: 1 + 2^−24 is a tie and
goes to even, 1. The sign of a negative number that rounds to zero is the model's choice (log 8). -/
theorem test_binary32 :
    patternRat 0x007FFFFF = 8388607 / 8388608 * pow2 (-126) ∧ patternRat 0xBF800000 = -1 ∧
    nearestPattern (1 + 1 / 16777216) = 0x3F800000 ∧ nearestPattern (-pow2 (-160)) = 0x80000000 ∧ nearestPattern (1 + 3 / 16777216) = 0x3F800002 ∧
    (numF32 {}).dec32 0x80000000 = 0x80000000 ∧ (numF32 {}).div 0x3F800000 0x80000000 = 0xFF800000 := by decide +kernel

/-- R11, round to nearest even: 0.1 + 0.2 is 0x3E99999A, 1 ÷ 3 is 0x3EAAAAAB, √2 is 0x3FB504F3, 2^24 + 1 is a tie that goes to
2^24; and, PRESUMED with IEEE 754 (log 4), an overflow gives the infinity, and `1 × −0` is −0. -/
theorem test_f32_arithmetic :
    let N := numF32 {}
    N.add 0x3DCCCCCD 0x3E4CCCCD = 0x3E99999A ∧ N.div 0x3F800000 0x40400000 = 0x3EAAAAAB ∧ N.sqrt 0x40000000 = 0x3FB504F3 ∧
    N.add 0x4B800000 0x3F800000 = 0x4B800000 ∧ N.mul 0x7F7FFFFF 0x40000000 = 0x7F800000 ∧
    N.mul 0x3F800000 0x80000000 = 0x80000000 := by decide +kernel

/-- ∞ − ∞, 0 × ∞ and 0 ÷ 0 are the NaN `n` of the operation, which is a NaN pattern (log 4). -/
theorem test_f32_nan (n a b : Val) (op : F32Op) :
    F32.sum n (.inf false) (.inf true) = n ∧ F32.product n (.zero false) (.inf true) = n ∧
    F32.quotient n (.zero true) (.zero false) = n ∧ isNaNPattern (F32.nan op a b) = true :=
  ⟨rfl, rfl, rfl, by unfold F32.nan; split <;> first | assumption | decide⟩

/-- R11: what enters a machine in `NUM_F32` is binary32: 1 ÷ 3, as an input Sample and as a configured value, is 0x3EAAAAAB;
CFG-DEFAULT passes construction there too. -/
theorem test_f32_machine :
    let cfg := Cfg.defaultOf { kind := .f32 }
    checkCfg cfg = none ∧ ({ cfg with hpfQ0 := .fin (1 / 3) } : Cfg).device.hpfQ0 = .bits 0x3EAAAAAB ∧
    ((next? (.tick { c0 := .fin (1 / 3), c1 := .fin 0 }) (State.ofCfg cfg)).map fun t => t.ch0.hpf.x1) =
      some (.bits 0x3EAAAAAB) := by decide +kernel

/-- R11: exact powers and roots; 0 to the power 0 has no value in the spec. -/
theorem test_power :
    RatFns.power 4 (1 / 2) = some 2 ∧ RatFns.power 8 (-2 / 3) = some (1 / 4) ∧ RatFns.power 10 (1 / 40) = none ∧
    RatFns.power 0 0 = none ∧ RatFns.root 2 (9 / 16) = some (3 / 4) := by decide +kernel

/-- R272: 2 and −1.5, and in `NUM_F32` a NaN and an infinity, are no draws; 0 is one in both named number systems. -/
theorem test_draws_in_range :
    (drawAt deviceB [.fin 2, .fin (1 / 2), .fin (-3 / 2), .fin (-1)] 0 0,
     drawAt deviceB [.fin 2, .fin (1 / 2), .fin (-3 / 2), .fin (-1)] 0 1) = (.fin (1 / 2), .fin (-1)) ∧
    [0x3F800000, 0x80000000, 0xBF800000, 0x7FC00000, 0xFF800000, 0x40000000].filter (numF32 {}).isDraw =
      [0x3F800000, 0x80000000, 0xBF800000] ∧
    NumSys.real.isDraw NumSys.real.zero = true ∧ (numF32 {}).isDraw (numF32 {}).zero = true := by decide +kernel

/-! ## One TICK, with TCFG-A and TCFG-B -/

/-- TCFG-A of 95_test_vectors.md, section 1. -/
def cfgA : Cfg :=
  { Cfg.defaultOf { kind := .listed, fns := quarter } with
    fs := .fin 1024, nch := 1, tau := .fin 0, fMin := .fin 1, fMax := .fin 511, rateMax := .fin 256, phN := 2
    phBase := .fin 256, phQ := .fin (1 / 2), phRate0 := .fin 0, phDepth0 := .fin 0, flBase := .fin (4 / 1024)
    flDepth := .fin (1 / 2048), flRate0 := .fin 0, flCap := 8, choBase := .fin (3 / 1024), choDepth := .fin 0
    choRate0 := .fin 0, choCap := 8, dlyTmax := .fin (8 / 1024), dlyT0 := .fin (2 / 1024), dlyFb0 := .fin (1 / 2)
    dlyCap := 8, dlyLpF := .fin 256, dlyLpQ := .fin (1 / 2), irCap := 3175 }

/-- TCFG-B. -/
def cfgB : Cfg :=
  { Cfg.defaultOf { kind := .listed, fns := quarter } with
    fs := .fin 40, nch := 2, tau := .fin 0, fMin := .fin 1, fMax := .fin 19, rateMax := .fin 10, phN := 1
    phBase := .fin 10, phQ := .fin (1 / 2), phRate0 := .fin 0, phDepth0 := .fin 0, flBase := .fin (1 / 20)
    flDepth := .fin 0, flRate0 := .fin 0, flCap := 4, choBase := .fin (1 / 20), choDepth := .fin 0, choRate0 := .fin 0
    choCap := 4, dlyTmax := .fin (1 / 10), dlyT0 := .fin (1 / 20), dlyFb0 := .fin 0, dlyCap := 4, dlyLpF := .fin 10
    dlyLpQ := .fin (1 / 2), irCap := 125 }

/-- Section 1: the capacities CFG-DEFAULT comes to, and R8: `FS/2 - 1.0`; for another sample rate the formulas follow it. -/
theorem test_default_formulas :
    (Cfg.default.flCap, Cfg.default.choCap, Cfg.default.dlyCap, Cfg.default.irCap, Cfg.default.fMax) =
      (337, 1537, 96001, 148801, .fin 23999) ∧
    let c := Settings.defaultAt NumSys.real (.fin 96000)
    (c.flCap, c.choCap, c.dlyCap, c.irCap, c.fMax) = (673, 3073, 192001, 297601, .fin 47999) := by decide +kernel

/-- All three pass the checks (section 1). -/
theorem test_configurations_pass : checkCfg Cfg.default = none ∧ checkCfg cfgA = none ∧ checkCfg cfgB = none := by
  decide +kernel

def stateA : State := State.ofCfg cfgA
def stateB : State := State.ofCfg cfgB

/-- The state after a TICK with the input Samples `a`, `b`. -/
def tickAfter (a b : Rat) (s : State) : Option State := next? (.tick { c0 := .fin a, c1 := .fin b }) s

/-- P1, first TICK: the output is the input, and every line stores it although all stages are inactive (R129). -/
theorem test_tick_bypass :
    (tickAfter 1 0 stateA).map (fun t => (t.out.c0, t.envOut, t.widx, t.hw)) =
      some (.fin 1, .fin 0, { fla := 1, cho := 1, dly := 1 }, 1) ∧
    (tickAfter 1 0 stateA).map (fun t => (t.ch0.dlFla, t.ch0.dlDly, t.ch0.hist)) =
      some ([(0, .fin 1)], [(0, .fin 1)], [(0, .fin 1)]) := by decide +kernel

/-- A phaser that is active at mix 1, its impulse at the end of the first stage: P2, fifth TICK. -/
theorem test_tick_phaser :
    (tickAfter 0 0 { stateA with
      mix := { stateA.mix with pha := { stateA.mix.pha with active := true } }
      par := { stateA.par with phaMix := .fin 1 }
      ch0 := { stateA.ch0 with pha := [stateA.ch0.hpf, { x1 := .fin 0, x2 := .fin 1, y1 := .fin 0, y2 := .fin 0 }] } }).map
        (fun t => (t.out.c0, t.mix.pha)) =
      some (.fin 1, { active := true, wet := .fin 1, dry := .fin (1 / 2) }) := by decide +kernel

/-- V6, tick 5: half a sample of modulation, interpolation across the wrap, feedback 0.5. -/
theorem test_tick_flanger :
    (tickAfter 40 0 { stateA with
      mix := { stateA.mix with fla := { stateA.mix.fla with active := true } }
      par := { stateA.par with flaMix := .fin 1, flaFeedback := { tgt := .fin (1 / 2), cur := .fin (1 / 2) }
                               flaRate := { tgt := .fin 256, cur := .fin 256 } }
      widx := { stateA.widx with fla := 4 }
      ch0 := { stateA.ch0 with dlFla := [(0, .fin 8), (1, .fin 16), (2, .fin 24), (3, .fin 32)] } }).map
        (fun t => (t.out.c0, t.ch0.dlFla, t.lfo.fla, t.widx.fla)) =
      some (.fin 24, [(0, .fin 8), (1, .fin 16), (2, .fin 24), (3, .fin 32), (4, .fin 42)], { phase := .fin 1, val := .fin 1 }, 5) := by
  decide +kernel

/-- V7, fourth Sample: three samples back, no feedback. -/
theorem test_tick_chorus :
    (tickAfter 4 0 { stateA with
      mix := { stateA.mix with cho := { stateA.mix.cho with active := true } }
      widx := { stateA.widx with cho := 3 }
      ch0 := { stateA.ch0 with dlCho := [(0, .fin 1), (1, .fin 2), (2, .fin 3)] } }).map (fun t => (t.out.c0, t.ch0.dlCho)) =
      some (.fin (7 / 2), [(0, .fin 1), (1, .fin 2), (2, .fin 3), (3, .fin 4)]) := by decide +kernel

/-- P3, tick 7: the loop filter is in the feedback path only. -/
theorem test_tick_delay :
    (tickAfter 0 0 { stateA with
      mix := { stateA.mix with dly := { stateA.mix.dly with active := true } }
      par := { stateA.par with dlyMix := .fin 1 }
      widx := { stateA.widx with dly := 6 }
      ch0 := { stateA.ch0 with
        dlDly := [(0, .fin 1), (2, .fin (1 / 8)), (3, .fin (1 / 4)), (4, .fin (9 / 64)), (5, .fin (1 / 16))]
        dlyLp := { x1 := .fin (1 / 4), x2 := .fin (1 / 8), y1 := .fin (1 / 8), y2 := .fin (9 / 32) } } }).map
        (fun t => (t.out.c0, t.ch0.dlyLp.y1, t.ch0.dlDly.getLast?)) =
      some (.fin (9 / 64), .fin (49 / 256), some (6, .fin (49 / 512))) := by decide +kernel

/-- P4, second TICK: the swapped bank, the history kept, the channels apart. -/
theorem test_tick_reverb :
    (tickAfter 1 1 { stateB with
      mix := { stateB.mix with rev := { stateB.mix.rev with active := true } }
      par := { stateB.par with revMix := .fin 1 }
      irSel := true, irLen := 4, hw := 1
      bank1 := { left := [(0, .fin 1), (1, .fin (-9 / 16)), (2, .fin (1 / 8)), (3, .fin (1 / 16))]
                 right := [(0, .fin (-1)), (1, .fin (9 / 16)), (2, .fin (1 / 4)), (3, .fin (-1 / 16))] }
      ch0 := { stateB.ch0 with hist := [(0, .fin 1)] }
      ch1 := { stateB.ch1 with hist := [(0, .fin 2)] } }).map (fun t => t.out) =
      some { c0 := .fin (15 / 16), c1 := .fin (5 / 8) } := by decide +kernel

/-- P4, the IRGEN step. -/
theorem test_irgen :
    let after := next? (.irgen ([1, -1, 1 / 2, 1, -1, 1, 1, -1].map Scalar.fin)) { stateB with job := some (.fin (1 / 10)) }
    after.map (fun t => (t.irSel, t.irLen, t.irVer, t.job)) = some (true, 4, 1, none) ∧
    after.map (fun t => t.bank1.left) = some [(0, .fin 1), (1, .fin (-9 / 16)), (2, .fin (1 / 8)), (3, .fin (1 / 16))] ∧
    after.map (fun t => t.bank1.right) = some [(0, .fin (-1)), (1, .fin (9 / 16)), (2, .fin (1 / 4)), (3, .fin (-1 / 16))] ∧
    after.map (fun t => t.bank0.left) = some [] := by decide +kernel

/-- P5 and V11 (c): `TRIG` starts at the present amplitude. -/
theorem test_trig :
    (next? (.word 0x3A00000000000000)
        { stateB with env := { ph := .release, k := 3, n := 8, start := .fin (1 / 2), amp := .fin (5 / 16) } }).map (·.env) =
      some { ph := .attack, k := 0, n := 4, start := .fin (5 / 16), amp := .fin (5 / 16) } := by decide +kernel

/-- V11 (b), (e): `REL` in Attack, and in Release. -/
theorem test_rel :
    (next? (.word 0x4A00000000000000)
        { stateB with env := { ph := .attack, k := 2, n := 4, start := .fin 0, amp := .fin (1 / 2) } }).map (·.env) =
      some { ph := .release, k := 0, n := 8, start := .fin (1 / 2), amp := .fin (1 / 2) } ∧
    (next? (.word 0x4A00000000000000)
        { stateB with env := { ph := .release, k := 2, n := 8, start := .fin (1 / 2), amp := .fin (3 / 8) } }).map (·.env) =
      some { ph := .release, k := 2, n := 8, start := .fin (1 / 2), amp := .fin (3 / 8) } := by decide +kernel

/-- P5: the fourth TICK of the attack, and the third of the decay. -/
theorem test_tick_envelope :
    (tickAfter 0 0 { stateB with env := { ph := .attack, k := 3, n := 4, start := .fin 0, amp := .fin (3 / 4) } }).map
        (fun t => (t.envOut, t.env.ph, t.env.n)) = some (.fin 1, .decay, 4) ∧
    (tickAfter 0 0 { stateB with env := { ph := .decay, k := 2, n := 4, start := .fin 1, amp := .fin (3 / 4) } }).map
        (fun t => (t.envOut, t.env.ph, t.env.k)) = some (.fin (5 / 8), .decay, 3) := by decide +kernel

/-! ## RESET and construction (V13) -/

/-- The cause for CFG-DEFAULT changed in one field. -/
theorem test_construction_causes :
    checkCfg { Cfg.default with fs := .fin 0 } = some .badFs ∧ checkCfg { Cfg.default with nch := 3 } = some .badNch ∧
    checkCfg { Cfg.default with phN := 0 } = some .badPhN ∧ checkCfg { Cfg.default with fbMax := .fin 1 } = some .badBounds ∧
    checkCfg { Cfg.default with fMax := .fin 24000 } = some .badBounds ∧ checkCfg { Cfg.default with flCap := 300 } = some .capFla ∧
    checkCfg { Cfg.default with choCap := 1535 } = some .capCho ∧ checkCfg { Cfg.default with dlyCap := 48000 } = some .capDly ∧
    checkCfg { Cfg.default with irCap := 1000 } = some .capIr ∧
    checkCfg { Cfg.default with nch := 3, flCap := 300 } = some .badNch ∧ checkCfg { Cfg.default with tau := .fin 0 } = none := by
  decide +kernel

/-- R350: a reset discards what it finds. -/
theorem test_reset :
    (next? .reset { stateA with badcmd := true, hw := 5, ch0 := { stateA.ch0 with dlFla := [(3, .fin 1)] } }).map
      (fun t => (t.badcmd, t.hw, t.ch0.dlFla)) = some (false, 0, []) := by decide +kernel

/-! ## Witnesses: the hypotheses of each statement can be met -/

/-- Every command of every statement about a `SETP`, in every state: the operand at both infinities, at minus zero and
at the greatest finite pattern. -/
theorem witness_operand (N : NumSys Scalar) (lo hi : Scalar) :
    IsOperand N lo hi 0x7F800000 hi ∧ IsOperand N lo hi 0xFF800000 lo ∧
    IsOperand N lo hi 0x80000000 (N.dec32 0x80000000) ∧ IsOperand N lo hi 0x7F7FFFFF (N.dec32 0x7F7FFFFF) :=
  ⟨.posInf rfl, .negInf rfl, .finite (by decide), .finite (by decide)⟩

theorem witness_NopDoesNothing : (1 : Word).extractLsb' 60 4 = 0 ∧ (1 : Word) ≠ 0 := by decide

theorem witness_TrigAndRelStartPhases (ph : Phase) : ∃ s : State, s.env.ph = ph :=
  ⟨{ State.reset with env := { State.reset.env with ph := ph } }, rfl⟩

theorem witness_TickRunsChain : State.reset.cfg.nch = 2 ∧ stateA.cfg.nch ≠ 2 := by decide

theorem reset_caps : CapsPositive Cfg.default.toSettings := capsPositive_of_checkDevice test_configurations_pass.1

/-- The reset state has the invariant: TickFrame, DelayWetPaths, ReverbWetPath, StepKeepsInvariant. -/
theorem reset_inv : State.reset.Inv where
  caps := reset_caps
  wFla := reset_caps.fla
  wCho := reset_caps.cho
  wDly := reset_caps.dly
  hw := reset_caps.ir
  irLenPos := le_refl 1
  irLenCap := reset_caps.ir
  envK := by decide
  ch0 := ⟨rfl, rfl, rfl, rfl, rfl⟩
  ch1 := ⟨rfl, rfl, rfl, rfl, rfl⟩
  bank0 := ⟨rfl, rfl⟩
  bank1 := ⟨rfl, rfl⟩

/-- One Sample of history and one of the impulse response: `k = 0` of ReverbWetPath. -/
theorem witness_ReverbWetPath :
    State.reset.Inv ∧ ChannelWf State.reset.device State.reset.ch0 ∧ 0 < State.reset.irLen :=
  ⟨reset_inv, reset_inv.ch0, by decide⟩

/-- The fraction of a read at `d` samples with write index 1. -/
def fraction (d : Rat) : Scalar :=
  turn4.sub (turn4.sub (.fin 1) (.fin d)) (turn4.ofInt (turn4.floor (turn4.sub (.fin 1) (.fin d))))

/-- Both clauses of DelayReadFormula: V8's offsets 2 and 2.25. -/
theorem witness_DelayReadFormula :
    (turn4.le (fraction 2) turn4.zero = true ∧ turn4.le turn4.zero (fraction 2) = true) ∧
    ¬ (turn4.le (fraction (9 / 4)) turn4.zero = true ∧ turn4.le turn4.zero (fraction (9 / 4)) = true) := by decide +kernel

/-- Every phase, at its last tick and just before it. -/
theorem witness_TickAdvancesEnvelope (ph : Phase) :
    (∃ s : State, s.env.ph = ph ∧ s.env.n = s.env.k + 1) ∧ ∃ s : State, s.env.ph = ph ∧ s.env.k + 1 < s.env.n ∧ s.env.n = 2 :=
  ⟨⟨{ State.reset with env := { State.reset.env with ph := ph } }, rfl, rfl⟩,
   ⟨{ State.reset with env := { State.reset.env with ph := ph, n := 2 } }, rfl, by show 0 + 1 < 2; decide, rfl⟩⟩

/-- Blocks that agree on one channel and not on the other. -/
theorem witness_ChannelsDoNotInteract :
    let a : Frame Scalar := { c0 := .fin 1, c1 := .fin 2 }
    let b : Frame Scalar := { c0 := .fin 1, c1 := .fin 3 }
    let c : Frame Scalar := { c0 := .fin 4, c1 := .fin 2 }
    [a].map Frame.c0 = [b].map Frame.c0 ∧ [a] ≠ [b] ∧ [a].map Frame.c1 = [c].map Frame.c1 ∧ [a] ≠ [c] := by decide +kernel

/-- A job in flight whose duration sounds (for `FS = 48000`: exactly one Sample, and 0.1 s) or does not (just short of
one Sample, and 0), with either bank live; and 0 is a draw. -/
theorem witness_IrgenPublishes :
    (∀ (k : Bool) (dur : Scalar), ({ State.reset with job := some dur, irSel := k } : State).Inv) ∧
    let s := State.reset
    (s.sys.lt s.sys.zero (.fin (1 / 48000)) = true ∧ s.sys.floor (s.sys.mul s.cfg.fs (.fin (1 / 48000))) = 1) ∧
    (s.sys.lt s.sys.zero (.fin (1 / 10)) = true ∧ s.sys.floor (s.sys.mul s.cfg.fs (.fin (1 / 10))) = 4800) ∧
    s.sys.floor (s.sys.mul s.cfg.fs (.fin (1 / 48001))) = 0 ∧ s.sys.lt s.sys.zero (.fin 0) = false ∧
    (s.sys.le (s.sys.neg s.sys.one) s.sys.zero && s.sys.le s.sys.zero s.sys.one) = true :=
  ⟨fun _ _ => { reset_inv with }, by decide +kernel⟩

/-- A device in `NUM_F32`: CFG-DEFAULT with two defaults that are NaNs, which passes construction (log 27). -/
def f32Device : Device Val :=
  { toSettings := { Settings.defaultAt (numF32 {}) 0x473B8000 with hpfF0 := 0x7FC00000, phMix0 := 0x7FC00000 }
    num := numF32 {}, rng := fun _ => 0 }

theorem witness_OpenPointsAsLogged :
    ((Instr.setpHpfQ 0x7FC00000).wf = false ∧ State.reset.job = none ∧ stateA.cfg.nch ≠ 2) ∧
    f32Device.num = numF32 {} ∧ checkDevice f32Device = none ∧ IsNaN f32Device.hpfF0 ∧ IsNaN f32Device.phMix0 ∧
    smoothedResets f32Device ≠ [] :=
  ⟨by decide, rfl, by decide +kernel, by unfold IsNaN; decide, by unfold IsNaN; decide, by simp [smoothedResets]⟩

/-- Two machines that agree on the envelope and its parameters and on nothing else the second clause leaves free: the stage
flags, the chain of a channel, the write indices, the input. -/
theorem witness_EnvelopeIsIsolated :
    let s := State.reset
    let s' : State := { s with hw := 1, mix := s.mix.setActive .hpf true, ch0 := { s.ch0 with dlFla := [(0, .fin 1)] } }
    s.cfg = s'.cfg ∧ s.env = s'.env ∧ s.envOut = s'.envOut ∧ s.hw ≠ s'.hw ∧ s.mix ≠ s'.mix ∧
    ∀ p ∈ [HParam.envAttack, .envDecay, .envSustain, .envRelease], s.par.h p = s'.par.h p := by
  refine ⟨rfl, rfl, rfl, by decide, by decide +kernel, fun p _ => rfl⟩

/-- Defaults that are no NaN: all but two of this device's. -/
theorem witness_ResetValues :
    (∀ row ∈ smoothedResets f32Device, row.1 ≠ .hpfFrequency → f32Device.num.isNaN row.2.1 = false) ∧
    ∀ row ∈ heldResets f32Device, row.1 ≠ .phaMix → f32Device.num.isNaN row.2.1 = false := by decide +kernel

theorem witness_LaterRequestCancelsEarlier :
    ¬ IsNaN 0x3F800000 ∧ ¬ IsNaN 0 ∧ ∃ t u w, exec (.setpRevTime 0x3F800000) State.reset = .next t ∧
      exec (.setpRevTime 0) t = .next u ∧ exec (.irgen []) u = .next w :=
  ⟨by simp [IsNaN], by simp [IsNaN], _, _, _, rfl, rfl, rfl⟩

/-- Both clauses; the other causes are those of `test_construction_causes`. -/
theorem witness_ResetReconstructs :
    checkCfg State.reset.cfg = none ∧ checkCfg ({ State.reset with cfg := { Cfg.default with nch := 3 } } : State).cfg = some .badNch := by
  decide +kernel

/-- Every clause: an entry of each kind at the head, a word that decodes and one that does not. -/
theorem witness_StepRunsDecodedInstruction (rest : List Event) (e : Event) :
    ({ State.reset with inbox := e :: rest } : State).inbox = e :: rest ∧ State.reset.inbox = [] ∧
    decode 0x3A00000000000000 = .ok .trig ∧ decode 1 = .error .nopNotZero ∧ decodeTableWord 64 0x3A00000000000000 = some .trig :=
  ⟨rfl, rfl, by decide, by decide, by decide⟩

theorem witness_DecodeEncodeRoundTrip : (Instr.setpHpfQ 0xFFFFFFFF).wf = false ∧ (Instr.setpHpfQ 0x7F800000).wf = true := by decide

theorem witness_EncodeDecodeRoundTrip : decode 0x1AB00000FF800000 = .ok (.setpEnvRelease 0xFF800000) := by decide

/-- A machine about to take one entry. -/
def about (e : Event) : State := { State.reset with inbox := [e] }

def frame : Frame Scalar := { c0 := .fin 1, c1 := .fin (-1) }

/-- An exact number system on plain data, and the one over the reals: the premise of every clause on exact numbers. -/
theorem witness_Exact : Exact NumSys.real plain ∧ Exact numReal fun x => x := ⟨exact_rational _, exact_real⟩

/-- A device over the reals: CFG-DEFAULT with `NUM_REAL` as R11 has it. -/
noncomputable def realDevice : Device ℝ :=
  { toSettings := Settings.defaultAt numReal 48000, num := numReal, rng := fun _ => 0 }

/-- It passes construction (R8, R321). -/
theorem realDevice_ok : checkDevice realDevice = none := by
  have lt_iff (a b : ℝ) : numReal.lt a b = decide (a < b) := by rw [Bool.eq_iff_iff]; simp
  have le_iff (a b : ℝ) : numReal.le a b = decide (a ≤ b) := by rw [Bool.eq_iff_iff]; simp
  have h1 : numReal.floor (numReal.mul 48000 (numReal.ofDec (31 / 10))) = 148800 := by
    simp only [numReal_floor, numReal_mul, numReal_ofDec, Int.floor_eq_iff]; norm_num
  have h2 : numReal.ceil (numReal.mul (numReal.add (numReal.ofDec (5 / 1000)) (numReal.ofDec (2 / 1000))) 48000) = 336 := by
    simp only [NumSys.ceil, numReal_neg, numReal_floor, numReal_mul, numReal_add, numReal_ofDec]
    rw [neg_eq_iff_eq_neg, Int.floor_eq_iff]; norm_num
  have h3 : numReal.ceil (numReal.mul (numReal.add (numReal.ofDec (30 / 1000)) (numReal.ofDec (2 / 1000))) 48000) = 1536 := by
    simp only [NumSys.ceil, numReal_neg, numReal_floor, numReal_mul, numReal_add, numReal_ofDec]
    rw [neg_eq_iff_eq_neg, Int.floor_eq_iff]; norm_num
  have h4 : numReal.ceil (numReal.mul (numReal.ofDec 2) 48000) = 96000 := by
    simp only [NumSys.ceil, numReal_neg, numReal_floor, numReal_mul, numReal_ofDec]
    rw [neg_eq_iff_eq_neg, Int.floor_eq_iff]; norm_num
  have hb : boundsOk realDevice = true := by
    simp only [boundsOk, realDevice, Settings.defaultAt, defaultFMax, lt_iff, le_iff, Bool.and_eq_true, decide_eq_true_eq,
      numReal_zero, numReal_one, numReal_two, numReal_ofDec, numReal_sub, numReal_div, Bool.not_eq_true']
    norm_num
    rfl
  simp only [checkDevice, hb, capTooSmall_iff]
  simp only [realDevice, Settings.defaultAt, defaultLineCap, defaultIrCap, h1, h2, h3, h4, lt_iff, numReal_zero]
  norm_num

/-- Its reset state, which every clause on devices can start from. -/
noncomputable def realBlock : Block ℝ := Block.reset realDevice

theorem realBlock_inv : realBlock.Inv realDevice :=
  have h := capsPositive_of_checkDevice realDevice_ok
  { caps := h, wFla := h.fla, wCho := h.cho, wDly := h.dly, hw := h.ir, irLenPos := le_refl 1, irLenCap := h.ir
    envK := Nat.one_pos
    ch0 := ⟨List.length_replicate, rfl, rfl, rfl, rfl⟩
    ch1 := ⟨List.length_replicate, rfl, rfl, rfl, rfl⟩
    bank0 := ⟨rfl, rfl⟩
    bank1 := ⟨rfl, rfl⟩ }

/-- A step of the machine exists from a state with the invariant, and it is a TICK; and so on the reals; and from a state
whose numbers are binary32. -/
theorem witness_StepKeepsInvariant :
    ((about (.tick frame)).Inv ∧ ∃ t, step (about (.tick frame)) = .next t) ∧
    (realBlock.Inv realDevice ∧ ∃ t o, deviceStep realDevice (.tick { c0 := 1, c1 := -1 }) realBlock = .ok (t, o)) ∧
    ∃ t, ({ State.ofCfg (Cfg.defaultOf { kind := .f32 }) with inbox := [.tick frame] } : State).InCarrier ∧
      step { State.ofCfg (Cfg.defaultOf { kind := .f32 }) with inbox := [.tick frame] } = .next t :=
  have z := (closed_device (Cfg.defaultOf { kind := .f32 })).toClosed.zero
  ⟨⟨{ reset_inv with }, _, rfl⟩, ⟨realBlock_inv, _, _, rfl⟩, _,
   ⟨(closed_device (Cfg.defaultOf { kind := .f32 })).reset, ⟨z, z⟩, z⟩, rfl⟩

theorem witness_InvariantsAtReset :
    checkCfg Cfg.default = none ∧ Cfg.default.num.kind = .real ∧ checkDevice realDevice = none ∧
    Exact realDevice.num fun x => x :=
  ⟨test_configurations_pass.1, rfl, realDevice_ok, exact_real⟩

theorem paramsLegal_reset : State.reset.ParamsLegal where
  tgt p := by cases p <;> exact ⟨by decide +kernel, by decide +kernel⟩
  cur p := by cases p <;> exact ⟨by decide +kernel, by decide +kernel⟩
  held p := by cases p <;> exact ⟨by decide +kernel, by decide +kernel⟩

/-- A machine and a device that smooth, with legal parameters, about to take a TICK; and the two sides of the smoothing
condition: off, and over the reals a factor in [0, 1]. -/
theorem witness_ParametersStayLegal :
    (State.reset.cfg.num.kind = .real ∧ checkCfg State.reset.cfg = none ∧ (about (.tick frame)).ParamsLegal ∧
      ∃ t, step (about (.tick frame)) = .next t) ∧
    (SmoothingMonotone stateA.device plain ∧ realDevice.num = numReal ∧ 0 < realDevice.fs) ∧
    Exact State.reset.device.num plain ∧ SmoothingMonotone State.reset.device plain ∧
    State.reset.toBlock.ParamsLegal State.reset.device ∧
    ∃ t o, deviceStep State.reset.device (.tick frame) State.reset.toBlock = .ok (t, o) :=
  ⟨⟨rfl, test_configurations_pass.1, { paramsLegal_reset with }, _, rfl⟩,
   ⟨.inl (by decide +kernel), rfl, by norm_num [realDevice, Settings.defaultAt]⟩,
   exact_of_kind (cfg := Cfg.default) rfl, smoothingMonotone_of_kind rfl test_configurations_pass.1, paramsLegal_reset, _, _, rfl⟩

theorem witness_EnvelopeStaysInUnitInterval :
    State.reset.cfg.num.kind = .real ∧ (about (.tick frame)).Inv ∧ (about (.tick frame)).EnvUnit ∧
    (∃ t, step (about (.tick frame)) = .next t) ∧ realBlock.Inv realDevice ∧ realBlock.EnvUnit realDevice.num :=
  ⟨rfl, { reset_inv with },
   ⟨⟨by decide +kernel, by decide +kernel⟩, ⟨by decide +kernel, by decide +kernel⟩, ⟨by decide +kernel, by decide +kernel⟩⟩,
   ⟨_, rfl⟩, realBlock_inv,
   ⟨by simp [exact_real.inDomain, realDevice, realBlock, Block.reset, resetEnv],
    by simp [exact_real.inDomain, realDevice, realBlock, Block.reset, resetEnv],
    exact_real.clamp_inDomain _ (show numReal.zero ≤ numReal.one by simp)⟩⟩

theorem witness_CommandsNeverWriteCurrent :
    ∃ t, step (about (.word 0x1000000046EA6000)) = .next t ∧ (t.par.s .hpfFrequency).tgt ≠ (State.reset.par.s .hpfFrequency).tgt :=
  ⟨_, rfl, by decide +kernel⟩

/-- The first clause (no word, no reset) and the second (a word). -/
theorem witness_OnlyCommandsWriteTargets :
    (∃ t, step (about (.tick frame)) = .next t) ∧ (∀ rest, (about (.tick frame)).inbox ≠ .reset :: rest) ∧
    (∀ w rest, (about (.tick frame)).inbox ≠ .word w :: rest) ∧
    (∃ t, step (about (.word 1)) = .next t) ∧ ∀ rest, (about (.word 1)).inbox ≠ .reset :: rest :=
  ⟨⟨_, rfl⟩, by simp [about], by simp [about], ⟨_, rfl⟩, by simp [about]⟩

theorem witness_BadcmdIsSticky :
    (∃ t, step (about (.word 1)) = .next t) ∧ (∃ t, step (about (.read 0x0F0)) = .next t) ∧ Rejectable 1 ∧ ¬ Rejectable 0 ∧
    next? .reset State.reset ≠ none :=
  ⟨⟨_, rfl⟩, ⟨_, rfl⟩, .inr (.inr (.inl (by decide))), by simp [Rejectable, IsNaN], by decide +kernel⟩

/-- The same for RejectedExactlyWhenListed: a rejected word at the head. -/
theorem witness_RejectedExactlyWhenListed : (about (.word 1)).inbox = .word 1 :: [] ∧ Rejectable 1 :=
  ⟨rfl, .inr (.inr (.inl (by decide)))⟩

/-- A publication moves the handle; a TICK does not. -/
theorem witness_LiveBankNeverWritten :
    (∃ t, step { about (.irgen []) with job := some (.fin 0) } = .next t ∧ t.irSel ≠ State.reset.irSel) ∧
    ∃ t, step (about (.tick frame)) = .next t ∧ t.irSel = State.reset.irSel :=
  ⟨⟨_, rfl, by decide⟩, ⟨_, rfl, rfl⟩⟩

theorem witness_ConstructedMachineNeverStops : checkCfg State.reset.cfg = none := by decide +kernel

/-- A schedule that gives IRGEN every turn, from a state with a job in flight. -/
theorem witness_FairJobIsCompleted :
    let s : State := { State.reset with job := some (.fin 0) }
    checkCfg s.cfg = none ∧ WeaklyFair (fun _ => .irgen []) s ∧ trace (fun _ => .irgen []) s 0 = some s ∧ s.job ≠ none :=
  ⟨by decide +kernel, fun n _ _ _ => ⟨n, le_refl n, .inl ⟨[], rfl⟩⟩, rfl, by simp⟩

/-- Every reset leaves a device in an exact number system bypassed. -/
theorem bypassed_reset {α : Type} {d : Device α} {r : α → ℝ} (h : Exact d.num r) : (Block.reset d).Bypassed r := by
  intro st; cases st <;> exact ⟨rfl, h.zero, h.one⟩

/-- A machine and a device that are bypassed and about to take a TICK, or a command that is no `SETA`. -/
theorem witness_BypassLawHolds :
    (State.reset.cfg.num.kind = .real ∧ (about (.tick frame)).Bypassed ∧ (about (.word 0x1000000042A00000)).Bypassed ∧
      (0x1000000042A00000 : Word).extractLsb' 60 4 ≠ 2 ∧ (∃ t, step (about (.tick frame)) = .next t) ∧
      IsReal frame.c0 ∧ IsReal frame.c1) ∧
    Exact realDevice.num (fun x => x) ∧ realBlock.Bypassed (fun x => x) ∧
    ∃ t o, deviceStep realDevice (.tick { c0 := 1, c1 := -1 }) realBlock = .ok (t, o) :=
  have h : Exact Cfg.default.sys plain := exact_of_kind rfl
  ⟨⟨rfl, bypassed_reset (d := Cfg.default.device) h, bypassed_reset (d := Cfg.default.device) h, by decide, ⟨_, rfl⟩, ⟨_, rfl⟩,
    ⟨_, rfl⟩⟩, exact_real, bypassed_reset exact_real, _, _, rfl⟩

theorem witness_DryBypassAfterReset :
    (Cfg.default.num.kind = .real ∧ Cfg.default.nch = 2 ∧ ∀ f ∈ [frame], IsReal f.c0 ∧ IsReal f.c1) ∧
    Exact realDevice.num (fun x => x) ∧ realDevice.nch = 2 :=
  ⟨⟨rfl, rfl, fun f hf => by simp at hf; subst hf; exact ⟨⟨_, rfl⟩, ⟨_, rfl⟩⟩⟩, exact_real, rfl⟩

/-- The shortest and the longest offset of a line of capacity 8, at `FS = 1024`: over the reals, and on plain data. -/
theorem witness_DelayLineRoundTrip :
    (IntegersExact numReal 8 ∧ numReal.mul (1 / 1024) 1024 = numReal.ofInt (1 : Nat) ∧
      numReal.mul (8 / 1024) 1024 = numReal.ofInt (8 : Nat)) ∧
    turn4.mul (.fin (1 / 1024)) (.fin 1024) = turn4.ofInt (1 : Nat) ∧ turn4.mul (.fin (8 / 1024)) (.fin 1024) = turn4.ofInt (8 : Nat) :=
  ⟨⟨exact_real.integers Function.injective_id 8, by simp, by simp⟩, by decide +kernel, by decide +kernel⟩

/-- The four clauses at their bounds, for a capacity of 4 at `FS = 1`. -/
theorem witness_DelayReadInterpolates :
    Exact numReal (fun x => x) ∧ (1 : ℝ) * 1 ≤ 1 ∧ ((4 : Nat) : ℝ) ≤ 4 * 1 ∧ (4 : ℝ) * 1 = (4 : Nat) ∧
    ((1 : Nat) : ℝ) < 9 / 8 * 1 ∧ 9 / 8 * 1 < ((1 : Nat) : ℝ) + 1 ∧ ((3 : Nat) : ℝ) < 7 / 2 * 1 ∧ 7 / 2 * 1 < ((3 : Nat) : ℝ) + 1 := by
  refine ⟨exact_real, ?_⟩
  norm_num

theorem witness_ReverbConvolves :
    Exact numReal (fun x => x) ∧ Exact NumSys.real plain ∧ 4 ≤ 4 ∧ 3 < 4 ∧ 0 < [Scalar.fin 1].length :=
  ⟨exact_real, exact_rational _, by decide⟩

/-- A positive exponent, three places of a buffer, and draws at both bounds. -/
theorem witness_ImpulseLengthAndDecay :
    (0 : ℝ) < 2 ∧ 2 < 3 ∧ 3 < 4 ∧ ∀ n : Nat, -1 ≤ ((-1 : ℝ) ^ n) ∧ ((-1 : ℝ) ^ n) ≤ 1 :=
  ⟨by norm_num, by norm_num, by norm_num, fun n => by rcases neg_one_pow_eq_or ℝ n with h | h <;> rw [h] <;> norm_num⟩

/-- A full cycle exists, with one TICK of hold. -/
theorem witness_EnvelopeFullCycle :
    ∃ (t u : State) (fa fd fr : List (Frame Scalar)), exec .trig stateB = .next t ∧
      fa.length = phaseTicks stateB.sys stateB.cfg.fs stateB.par.envAttack ∧
      fd.length = phaseTicks stateB.sys stateB.cfg.fs stateB.par.envDecay ∧
      fr.length = phaseTicks stateB.sys stateB.cfg.fs stateB.par.envRelease ∧
      exec .rel (processBlock [frame] (processBlock fd (processBlock fa t).2).2).2 = .next u :=
  ⟨_, _, List.replicate _ frame, List.replicate _ frame, List.replicate _ frame, rfl, List.length_replicate,
   List.length_replicate, List.length_replicate, rfl⟩

/-- Both clauses, and the tick count of V2 (b). -/
theorem witness_SmootherApproachesTarget :
    (0 : ℝ) < 48000 ∧ (0 : ℝ) ≤ 0 ∧ (0 : ℝ) < 1 / 10 ∧ 5 * (1 / 10 : ℝ) * 48000 ≤ ((24000 : Nat) : ℝ) ∧ (0 : ℝ) ≠ 1 := by norm_num

/-- CFG-DEFAULT's bounds: LeadingCoefficientIsPositive, MagnitudeAtCutoff, GainsAtZeroAndNyquist, ZeroGainIsIdentity. -/
theorem witness_FrequencyBounds : FrequencyBounds 48000 1 23999 ∧ (0 : ℝ) < 707 / 1000 :=
  ⟨⟨by norm_num, by norm_num, by norm_num⟩, by norm_num⟩

/-- A normal, a subnormal and the greatest finite pattern; and the bound on `x`, which both signs of that one meet. -/
theorem witness_PatternsDenoteReals :
    (0xBF800000 : Val).extractLsb' 23 8 ≠ 0xFF ∧ (0x007FFFFF : Val).extractLsb' 23 8 = 0 ∧
    (0x7F7FFFFF : Val).extractLsb' 23 8 ≠ 0xFF ∧ |-((2 - 2 ^ (-23 : Int)) * 2 ^ 127 : ℝ)| ≤ (2 - 2 ^ (-23 : Int)) * 2 ^ 127 :=
  ⟨by decide, by decide, by decide, by rw [abs_neg]; exact le_of_eq (abs_of_pos (by norm_num))⟩

end Sys2Proof.Slice0Tests
end

section
/-! PROOFS. `processBlock` is consecutive TICKs (00_scope.md R6, 40_tick_smoother_mix.md R120). -/

namespace Sys2Proof.Machine

@[simp] theorem processBlock_nil (s : State) : processBlock [] s = ([], s) := rfl

@[simp] theorem processBlock_cons (f : Frame Scalar) (fs : List (Frame Scalar)) (s : State) :
    processBlock (f :: fs) s = ((tick f s).out :: (processBlock fs (tick f s)).1, (processBlock fs (tick f s)).2) := rfl

/-- A block given in two parts is the first part, then the second from where the first ended. -/
theorem processBlock_append (fs gs : List (Frame Scalar)) (s : State) :
    processBlock (fs ++ gs) s =
      ((processBlock fs s).1 ++ (processBlock gs (processBlock fs s).2).1,
        (processBlock gs (processBlock fs s).2).2) := by
  induction fs generalizing s with
  | nil => rfl
  | cons f fs ih => simp only [List.cons_append, processBlock_cons, ih]

/-- One step with a TICK as the next entry, then the rest of the run: TICK neither reads nor writes `inbox`. -/
theorem run_tick_cons (n : Nat) (f : Frame Scalar) (es : List Event) (s : State) :
    core.run (n + 1) { s with inbox := .tick f :: es } = core.run n { tick f s with inbox := es } := rfl

/-- The machine, stepped once for each Frame given as an entry, comes to the state of `processBlock`. -/
theorem run_ticks (fs : List (Frame Scalar)) (rest : List Event) (s : State) :
    core.run fs.length { s with inbox := fs.map Event.tick ++ rest } =
      .next (processBlock fs { s with inbox := rest }).2 := by
  induction fs generalizing s with
  | nil => rfl
  | cons f fs ih =>
    calc core.run (f :: fs).length { s with inbox := (f :: fs).map Event.tick ++ rest }
        = core.run fs.length { tick f s with inbox := fs.map Event.tick ++ rest } := run_tick_cons _ _ _ s
      _ = .next (processBlock fs { tick f s with inbox := rest }).2 := ih (tick f s)

/-- Settles O20: `processBlock` splits at the end of any part of the block, and a run over TICK entries follows it. -/
theorem blockIsConsecutiveTicks : Obligations.BlockIsConsecutiveTicks := by
  refine ⟨processBlock_nil, fun fs f s => ?_, run_ticks⟩
  rw [processBlock_append]
  exact ⟨rfl, rfl⟩

end Sys2Proof.Machine
end

section
/-! PROOFS. The structural invariant: every operation keeps it, and so does every step (10_state.md R25, R27 to R29;
20_memory.md R61, R70). -/

namespace Sys2Proof.Machine

section
variable {α : Type} {N : NumSys α}

/-! ## The impulse response fits its bank -/

/-- A length that synthesis finds lies between 1 and the capacity (48_reverb.md R266). -/
theorem irLength_bounds {fs dur : α} {cap l : Nat} (hc : 0 < cap) (h : irLength N fs cap dur = some l) :
    1 ≤ l ∧ l ≤ cap := by
  simp only [irLength] at h
  split_ifs at h
  cases h
  omega

@[simp] theorem irChannel_length (e : α) (l : Nat) (u : Nat → α) : (irChannel N e l u).length = l := by
  simp [irChannel]

/-- What `gen` answers: two channels of the length beside them, which lies between 1 and the capacity. -/
theorem gen_bounds {cap : Nat} (hc : 0 < cap) (fs e dur : α) (u : Nat → α) :
    1 ≤ (gen N fs e cap u dur).1 ∧ (gen N fs e cap u dur).1 ≤ cap ∧
    (gen N fs e cap u dur).2.1.length = (gen N fs e cap u dur).1 ∧
    (gen N fs e cap u dur).2.2.length = (gen N fs e cap u dur).1 := by
  unfold gen
  cases h : irLength N fs cap dur with
  | none => exact ⟨le_refl 1, hc, rfl, rfl⟩
  | some l =>
    obtain ⟨hpos, hcap⟩ := irLength_bounds hc h
    exact ⟨hpos, hcap, irChannel_length _ _ _, irChannel_length _ _ _⟩

/-! ## The envelope -/

/-- A phase that `REL` starts has a tick to run; a phase it does not end goes on (49_adsr.md R295). -/
theorem envRel_k_lt (fs rel : α) {e : Env α} (h : e.k < e.n) : (envRel N fs rel e).k < (envRel N fs rel e).n := by
  unfold envRel
  cases e.ph with
  | idle | release => exact h
  | attack | decay | sustain => exact phaseTicks_pos _ _ _

end

section
variable {α : Type} [DecidableEq α] {d : Device α} {b : Block α}

/-! ## Operations on the block -/

/-- A triggered phase has a tick to run (49_adsr.md R294). -/
theorem trigger_inv (h : b.Inv d) : (trigger d b).Inv d :=
  { h with envK := phaseTicks_pos _ _ _ }

theorem release_inv (h : b.Inv d) : (release d b).Inv d :=
  { h with envK := envRel_k_lt _ _ h.envK }

/-- A command keeps the invariant: of the registers it speaks of, `TRIG` and `REL` alone write one, the envelope's. -/
theorem effect_inv (h : b.Inv d) {i : Instr} {t : Block α} (e : Effect d i b t) : t.Inv d := by
  cases e with
  | nop => exact h
  | trig => exact trigger_inv h
  | rel => exact release_inv h
  | _ => exact { h with }

theorem commandWord_inv (h : b.Inv d) (w : Word) : (commandWord d w b).Inv d := by
  rcases commandWord_cases d w b with ⟨_, _, e⟩ | ⟨_, _, _, e⟩
  · rw [e]; exact { h with }
  · exact effect_inv h e

/-- TICK keeps the invariant: the chain writes below the capacities, the indices wrap, the envelope's ticks stay below the
length of its phase. -/
theorem tickBlock_inv (h : b.Inv d) (f : Frame α) : (tickBlock d b f).1.Inv d where
  caps := h.caps
  wFla := advance_lt h.caps.fla
  wCho := advance_lt h.caps.cho
  wDly := advance_lt h.caps.dly
  hw := advance_lt h.caps.ir
  irLenPos := h.irLenPos
  irLenCap := h.irLenCap
  envK := envTick_k_lt _ _ _ _ h.envK
  ch0 := runChain_wf d (beforeChain_inv d h) 0 h.ch0 _
  ch1 := by
    rw [tickBlock_ch1]
    split
    · exact runChain_wf d (beforeChain_inv d h) 1 h.ch1 _
    · exact h.ch1
  bank0 := h.bank0
  bank1 := h.bank1

/-- Writes from index 0 of no more Samples than a bank has locations keep its form. -/
theorem BankWf.writeAll {k : Bank α} (h : BankWf d k) {left right : List α} (hl : left.length ≤ d.irCap)
    (hr : right.length ≤ d.irCap) :
    BankWf d { left := k.left.writeAll d.num.zero 0 left, right := k.right.writeAll d.num.zero 0 right } :=
  ⟨Memory.wf_writeAll _ h.left _ (by omega), Memory.wf_writeAll _ h.right _ (by omega)⟩

/-- A publication keeps the invariant: the shadow bank alone is written, and the new length fits it. -/
theorem publish_inv (h : b.Inv d) (dur : α) (u : Nat → α) : (publish d b dur u).Inv d := by
  obtain ⟨hpos, hcap, hl, hr⟩ := gen_bounds (N := d.num) h.caps.ir d.fs d.revDecay dur u
  have bank (k : Bank α) (hk : BankWf d k) := hk.writeAll (hl.trans_le hcap) (hr.trans_le hcap)
  unfold publish Block.setShadow Block.shadowBank
  cases b.irSel with
  | false => exact { h with irLenPos := hpos, irLenCap := hcap, bank1 := bank _ h.bank1 }
  | true => exact { h with irLenPos := hpos, irLenCap := hcap, bank0 := bank _ h.bank0 }

theorem irgenStep_inv (h : b.Inv d) (u : Nat → α) : (irgenStep d b u).Inv d := by
  rcases irgenStep_cases d b u with ⟨_, e⟩ | ⟨dur, _, e⟩ <;> rw [e]
  · exact h
  · exact publish_inv h dur u

/-- The reset state has the invariant where every capacity has a location. -/
theorem Block.reset_inv (h : CapsPositive d.toSettings) : (Block.reset d).Inv d where
  caps := h
  wFla := h.fla
  wCho := h.cho
  wDly := h.dly
  hw := h.ir
  irLenPos := le_refl 1
  irLenCap := h.ir
  envK := Nat.one_pos
  ch0 := ⟨List.length_replicate, rfl, rfl, rfl, rfl⟩
  ch1 := ⟨List.length_replicate, rfl, rfl, rfl, rfl⟩
  bank0 := ⟨rfl, rfl⟩
  bank1 := ⟨rfl, rfl⟩

/-! ## Steps -/

/-- Every step of a device keeps the invariant. -/
theorem deviceStep_inv {a : Act α} {t : Block α} {o : Output α} (h : b.Inv d) (hs : deviceStep d a b = .ok (t, o)) :
    t.Inv d := by
  rcases deviceStep_cases hs with
    ⟨w, _, rfl, _⟩ | ⟨f, _, rfl, _⟩ | ⟨_, _, _, rfl, _⟩ | ⟨_, _, rfl, _⟩ | ⟨_, hc, rfl, _⟩
  · exact commandWord_inv h w
  · exact tickBlock_inv h f
  · exact irgenStep_inv h _
  · exact h
  · exact Block.reset_inv (capsPositive_of_checkDevice hc)

end

/-- Every instruction that answers a next state keeps the invariant. -/
theorem stepped_inv {i : Instr} {s t : State} (h : s.Inv) (e : Stepped i s t) : t.Inv := by
  cases e with
  | command _ b _ e => exact effect_inv h e
  | tick f => exact tickBlock_inv h _
  | read => exact h
  | irgen => exact irgenStep_inv h _
  | reset _ hc => exact Block.reset_inv (capsPositive_of_checkDevice hc)

/-- Every step of the machine keeps the invariant. -/
theorem step_inv {s t : State} (h : s.Inv) (hs : step s = .next t) : t.Inv := by
  rcases step_cases hs with ⟨_, rfl⟩ | ⟨_, _, _, _, _, rfl⟩ | ⟨_, _, rest, _, _, _, e⟩
  · exact h
  · exact { h with }
  · exact stepped_inv (s := { s with inbox := rest }) h e

/-! ## The carrier (00_scope.md R11, log 4) -/

/-- An IRGEN step leaves numbers of the carrier. -/
theorem DeviceClosed.irgenStep {α : Type} [DecidableEq α] {d : Device α} {P : α → Prop} (hd : DeviceClosed d P)
    {b : Block α} (h : b.All P) (u : Nat → α) : (irgenStep d b u).All P := by
  rcases irgenStep_cases d b u with ⟨_, e⟩ | ⟨dur, _, e⟩ <;> rw [e]
  · exact h
  · exact hd.publish h dur u

/-- Every instruction that answers a next state keeps the numbers in the carrier: the input of a TICK is read into it first. -/
theorem stepped_inCarrier {i : Instr} {s t : State} (h : s.InCarrier) (e : Stepped i s t) : t.InCarrier := by
  have hd := closed_device s.cfg
  have hz := hd.toClosed.zero
  cases e with
  | command _ b _ e => exact { h with block := hd.effect h.block e }
  | tick f =>
    obtain ⟨hb, hout⟩ := hd.tick h.block (f := f.map s.cfg.num.read) ⟨read_read _ _, read_read _ _⟩
    exact ⟨hb, hout, hb.env.2⟩
  | read => exact { h with }
  | irgen => exact { h with block := hd.irgenStep h.block _ }
  | reset => exact ⟨hd.reset, ⟨hz, hz⟩, hz⟩

/-- Every step of the machine keeps its numbers in the carrier. -/
theorem step_inCarrier {s t : State} (h : s.InCarrier) (hs : step s = .next t) : t.InCarrier := by
  rcases step_cases hs with ⟨_, rfl⟩ | ⟨_, _, _, _, _, rfl⟩ | ⟨_, _, rest, _, _, _, e⟩
  · exact h
  · exact { h with block := { h.block with } }
  · exact stepped_inCarrier (s := { s with inbox := rest }) { h with } e

/-- Settles O36: the invariant is kept operation by operation, and the carrier because every result of NUM lies in it. -/
theorem stepKeepsInvariant : Obligations.StepKeepsInvariant :=
  ⟨fun _ _ => step_inv, fun _ _ _ _ _ _ _ => deviceStep_inv, fun _ _ => step_inCarrier⟩

end Sys2Proof.Machine
end

section
/-! PROOFS. The READ port (10_state.md R50, R51): the port answers the register map of R51, part by part of the address. -/

namespace Sys2Proof.Machine

/-! ## The tables of the map are the functions the port looks up -/

/-- The rows of R21's table are what `paramAt` finds. -/
theorem mem_paramRows_iff {st r : Nat} {p : ParamRef} : (st, r, p) ∈ paramRows ↔ paramAt st r = some p := by
  constructor
  · have table : ∀ row ∈ paramRows, paramAt row.1 row.2.1 = some row.2.2 := by decide
    exact table (st, r, p)
  · intro h
    unfold paramAt at h
    split at h <;> cases h <;> decide

/-- The rows of R16's table of stages are what `stageAt` finds. -/
theorem mem_stageRows_iff {st : Nat} {g : Stage} : (st, g) ∈ stageRows ↔ stageAt st = some g := by
  constructor
  · have table : ∀ row ∈ stageRows, stageAt row.1 = some row.2 := by decide
    exact table (st, g)
  · intro h
    unfold stageAt at h
    split at h <;> cases h <;> decide

theorem stageAt_eq_none {st : Nat} (h : stageAt st = none) : 10 ≤ st := by
  have named : ∀ n < 10, stageAt n ≠ none := by decide
  by_contra hlt
  exact named st (by omega) h

section
variable (s : State) (sel : Bool) {st r : Nat}

/-! ## The registers of a stage -/

/-- The value of a parameter the port puts out is the one R51 names. -/
theorem value_eq_entryValue (p : ParamRef) : s.par.value sel p = entryValue s sel p := by
  cases p <;> rfl

/-- Registers 0 to 11: the parameters, and 0 where R21 has no row. -/
theorem readsAs_param (hst : st ≤ 14) (hr : r ≤ 11) : ReadsAs s sel st r (stageRegister s.sys s.toBlock sel st r) := by
  rw [stageRegister, if_pos hr]
  cases h : paramAt st r with
  | some p =>
    show ReadsAs s sel st r (s.sys.enc32 (s.par.value sel p))
    rw [value_eq_entryValue]
    exact .param p (mem_paramRows_iff.mpr h)
  | none =>
    rcases Nat.lt_or_ge st 11 with hlow | hhigh
    · exact .noParam (by omega) hr fun p hp => by simp [mem_paramRows_iff, h] at hp
    · exact .unmappedStage ⟨hhigh, hst⟩

/-- Registers 12 to 14: the flag and the gains of a chain stage, and 0 for the stage numbers that name none. -/
theorem readsAs_mix (hst : st ≤ 14) (hr : r = 12 ∨ r = 13 ∨ r = 14) :
    ReadsAs s sel st r (stageRegister s.sys s.toBlock sel st r) := by
  rw [stageRegister, if_neg (by omega), if_neg (by omega)]
  cases h : stageAt st with
  | some g =>
    have row := mem_stageRows_iff.mpr h
    rcases hr with rfl | rfl | rfl
    · exact .active g row rfl
    · exact .wet g row rfl
    · exact .dry g row rfl
  | none =>
    rcases (stageAt_eq_none h).eq_or_lt with rfl | hhigh
    · exact .noMix rfl (by omega)
    · exact .unmappedStage ⟨hhigh, hst⟩

/-- Register 15: the phase of the stage's LFO, and 0 where the stage has none. -/
theorem readsAs_lfo (hst : st ≤ 14) : ReadsAs s sel st 15 (stageRegister s.sys s.toBlock sel st 15) := by
  by_cases h5 : st = 5
  · subst h5; exact .lfoPha rfl rfl
  by_cases h6 : st = 6
  · subst h6; exact .lfoFla rfl rfl
  by_cases h7 : st = 7
  · subst h7; exact .lfoCho rfl rfl
  have hnone : s.lfo.ofStage st = none := by simp [Lfos.ofStage]
  rw [stageRegister, if_neg (by omega), if_pos rfl, hnone]
  rcases Nat.lt_or_ge st 11 with hlow | hhigh
  · exact .noLfo (by omega) rfl
  · exact .unmappedStage ⟨hhigh, hst⟩

theorem readsAs_stage (hst : st ≤ 14) (hr : r ≤ 15) : ReadsAs s sel st r (stageRegister s.sys s.toBlock sel st r) := by
  rcases (by omega : r ≤ 11 ∨ (r = 12 ∨ r = 13 ∨ r = 14) ∨ r = 15) with h | h | rfl
  · exact readsAs_param s sel hst h
  · exact readsAs_mix s sel hst h
  · exact readsAs_lfo s sel hst

/-! ## The global registers -/

/-- The bits of `STATUS`. -/
theorem status_bits {α : Type} (b : Block α) :
    b.status.getLsbD 0 = b.badcmd ∧ b.status.getLsbD 1 = b.job.isSome ∧ b.status.getLsbD 2 = b.irSel ∧
    b.status.extractLsb' 3 29 = 0 := by
  have word : ∀ x y z : Bool, let w : Val := 0#29 ++ BitVec.ofBool x ++ BitVec.ofBool y ++ BitVec.ofBool z
      w.getLsbD 0 = z ∧ w.getLsbD 1 = y ∧ w.getLsbD 2 = x ∧ w.extractLsb' 3 29 = 0 := by decide
  exact word b.irSel b.irBusy b.badcmd

theorem mem_phaseRows (ph : Phase) : (ph, ph.code) ∈ phaseRows := by
  cases ph <;> decide

theorem readsAs_global (r : Nat) : ReadsAs s sel 15 r (globalRegister s.sys s.toBlock r) := by
  match r with
  | 0 =>
    obtain ⟨h0, h1, h2, h3⟩ := status_bits s.toBlock
    exact .status rfl rfl _ h0 h1 h2 h3
  | 1 => exact .irLen rfl rfl
  | 2 => exact .irVer rfl rfl
  | 3 => exact .envAmp rfl rfl
  | 4 => exact .envPh rfl rfl _ (mem_phaseRows _)
  | 5 => exact .cmdVer rfl rfl
  | n + 6 => exact .unmappedGlobal rfl (by omega)

end

/-- The word the port puts out is the one the register map has at the address. -/
theorem readsAs_readPort (s : State) (a : Addr) :
    ReadsAs s (a.getLsbD 8) (a.extractLsb' 4 4).toNat (a.extractLsb' 0 4).toNat (readPort s.sys s.toBlock a) := by
  have hst := (a.extractLsb' 4 4).isLt
  have hr := (a.extractLsb' 0 4).isLt
  simp only [readPort]
  split
  · next h =>
    rw [h]
    exact readsAs_global _ _ _
  · next h => exact readsAs_stage _ _ (by omega) (by omega)

/-- Settles O23, by the part of the map the address names: parameters, gains, LFO phases, global registers. -/
theorem readReturnsRegisterMap : Obligations.ReadReturnsRegisterMap :=
  fun a s => ⟨_, rfl, readsAs_readPort s a⟩

end Sys2Proof.Machine
end

section
/-! PROOFS. The state after reset (10_state.md R40): the value of every element, and the invariants it starts from. -/

namespace Sys2Proof.Machine

section
variable {α : Type} {d : Device α}

/-! ## The values of reset -/

/-- A value is its own nearest in the domain that is that value alone. -/
@[simp] theorem clamp_self (N : NumSys α) (v : α) : N.clamp v v v = v := by
  simp [NumSys.clamp]

/-- Every smoothed entry resets by the one rule. -/
@[simp] theorem Block.reset_smoothed (p : SParam) : (Block.reset d).par.s p = resetSmoothed d p := by
  cases p <;> rfl

/-- So does every held entry but `REV.time`. -/
theorem Block.reset_held {p : HParam} (hp : p ≠ .revTime) : (Block.reset d).par.h p = resetHeld d p := by
  cases p
  case revTime => exact absurd rfl hp
  all_goals rfl

@[simp] theorem Block.reset_mix (st : Stage) : (Block.reset d).mix.of st = resetMix d := by
  cases st <;> rfl

/-- The rows of R21's table have the default and the bounds the entry itself has. -/
theorem mem_smoothedResets {row : SParam × α × α × α} (h : row ∈ smoothedResets d) :
    row.2 = (row.1.dflt d, row.1.lo d, row.1.hi d) := by
  have table : smoothedResets d =
      ((smoothedResets d).map Prod.fst).map fun p => (p, p.dflt d, p.lo d, p.hi d) := rfl
  rw [table] at h
  obtain ⟨p, -, rfl⟩ := List.mem_map.mp h
  rfl

theorem mem_heldResets {row : HParam × α × α × α} (h : row ∈ heldResets d) :
    row.1 ≠ .revTime ∧ row.2 = (row.1.dflt d, row.1.lo d, row.1.hi d) := by
  have table : heldResets d = ((heldResets d).map Prod.fst).map fun p => (p, p.dflt d, p.lo d, p.hi d) := rfl
  rw [table] at h
  obtain ⟨p, hp, rfl⟩ := List.mem_map.mp h
  refine ⟨?_, rfl⟩
  rintro rfl
  simp [heldResets] at hp

/-- A row of a smoothed entry: its default, clamped into its domain, as target and as current value. -/
theorem Block.reset_smoothedRow {row : SParam × α × α × α} (h : row ∈ smoothedResets d) :
    (Block.reset d).par.s row.1 =
      { tgt := d.num.clamp row.2.1 row.2.2.1 row.2.2.2, cur := d.num.clamp row.2.1 row.2.2.1 row.2.2.2 } := by
  rw [mem_smoothedResets h, Block.reset_smoothed]
  rfl

theorem Block.reset_heldRow {row : HParam × α × α × α} (h : row ∈ heldResets d) :
    (Block.reset d).par.h row.1 = d.num.clamp row.2.1 row.2.2.1 row.2.2.2 := by
  obtain ⟨hp, hrow⟩ := mem_heldResets h
  rw [hrow, Block.reset_held hp]
  rfl

/-- A fixed depth resets to itself: its domain has no other value. -/
theorem Block.reset_fixedDepth :
    (Block.reset d).par.s .flaDepth = { tgt := d.flDepth, cur := d.flDepth } ∧
    (Block.reset d).par.s .choDepth = { tgt := d.choDepth, cur := d.choDepth } := by
  constructor <;> simp [resetSmoothed, SParam.legal, SParam.dflt, SParam.lo, SParam.hi]

/-- Every biquad history of a channel resets to zero. -/
theorem resetChannel_hist {h : Hist α} (hh : h ∈ [(resetChannel d).hpf, (resetChannel d).lpf, (resetChannel d).eql,
    (resetChannel d).eqm, (resetChannel d).eqh, (resetChannel d).dlyLp] ++ (resetChannel d).pha) : h = resetHist d := by
  rcases List.mem_append.mp hh with hh | hh
  · exact List.eq_of_mem_replicate (n := 6) hh
  · exact List.eq_of_mem_replicate hh

/-- Settles O27: the parameters by their one rule, the rest as reset writes it. -/
theorem resetValues : Obligations.ResetValues :=
  ⟨fun _ => rfl, fun _ d =>
    ⟨fun _ h _ => Block.reset_smoothedRow h, Block.reset_fixedDepth.1, Block.reset_fixedDepth.2,
     fun _ h _ => Block.reset_heldRow h, rfl, Block.reset_mix, rfl, rfl, rfl, rfl, rfl, rfl, rfl, fun _ => resetChannel_hist, List.length_replicate, rfl,
     by simp [Block.reset, resetLfos, resetLfo], rfl, rfl, rfl, rfl, rfl, rfl, rfl, rfl,
     by simp [Block.reset, resetChannel, resetBank]⟩⟩

/-! ## The invariants after reset -/

/-- Every parameter of a device constructed in an exact system resets into its domain. -/
theorem Block.reset_paramsLegal {r : α → ℝ} (hx : Exact d.num r) (hc : checkDevice d = none) :
    (Block.reset d).ParamsLegal d := by
  obtain ⟨hs, hh⟩ := domain_le hx hc
  have entry (p : SParam) : InDomain d.num (p.lo d) (p.hi d) (p.legal d (p.dflt d)) := hx.clamp_inDomain _ (hs p)
  refine ⟨fun p => ?_, fun p => ?_, fun p => ?_⟩
  · rw [Block.reset_smoothed]
    exact entry p
  · rw [Block.reset_smoothed]
    exact entry p
  · by_cases hp : p = .revTime
    · subst hp
      exact hx.inDomain.mpr ⟨le_refl _, hh .revTime⟩
    · rw [Block.reset_held hp]
      exact hx.clamp_inDomain _ (hh p)

/-- The envelope resets to 0, its sustain level into [0, 1]. -/
theorem Block.reset_envUnit {r : α → ℝ} (hx : Exact d.num r) (hc : checkDevice d = none) :
    (Block.reset d).EnvUnit d.num := by
  have zero : InDomain d.num d.num.zero d.num.one d.num.zero :=
    hx.inDomain.mpr ⟨le_refl _, (domain_le hx hc).2 .envSustain⟩
  exact ⟨zero, zero, (Block.reset_paramsLegal hx hc).held .envSustain⟩

end

/-- Every number of a machine after reset is a value of its carrier. -/
theorem ofCfg_inCarrier (cfg : Cfg) : (State.ofCfg cfg).InCarrier :=
  have hd := closed_device cfg
  have z := hd.toClosed.zero
  ⟨hd.reset, ⟨z, z⟩, z⟩

/-- Settles O37: the machine's clauses are those of its device. -/
theorem invariantsAtReset : Obligations.InvariantsAtReset := by
  have device {α : Type} [DecidableEq α] (d : Device α) (r : α → ℝ) (hc : checkDevice d = none) :
      (Block.reset d).Inv d ∧ (Exact d.num r → (Block.reset d).ParamsLegal d ∧ (Block.reset d).EnvUnit d.num) :=
    ⟨Block.reset_inv (capsPositive_of_checkDevice hc), fun hx =>
      ⟨Block.reset_paramsLegal hx hc, Block.reset_envUnit hx hc⟩⟩
  refine ⟨fun cfg hc => ?_, fun _ _ => device, ofCfg_inCarrier⟩
  obtain ⟨hinv, hexact⟩ := device cfg.device plain hc
  exact ⟨hinv, fun hk => hexact (exact_of_kind hk)⟩

end Sys2Proof.Machine
end

section
/-! PROOFS. The bypass law (40_tick_smoother_mix.md R128): with every stage inactive and settled, TICK puts out its input and
the stages stay so; from reset, a block of any length comes out as it went in (10_state.md R41). -/

namespace Sys2Proof.Machine

section
variable {α : Type} {d : Device α} {b : Block α}

/-! ## The chain passes the input through -/

/-- Reset leaves every stage inactive and settled. -/
theorem Block.reset_bypassed {r : α → ℝ} (hx : Exact d.num r) : (Block.reset d).Bypassed r := fun st => by
  rw [Block.reset_mix]
  exact ⟨rfl, hx.zero, hx.one⟩

/-- An inactive stage, filter or effect, has the gain targets 0 and 1 (R126). -/
theorem gainTargets_of_inactive (N : NumSys α) (par : Params α) (st : Stage) {m : MixState α} (h : m.active = false) :
    gainTargets N par st m = (N.zero, N.one) := by
  cases st <;> simp [gainTargets, filterTargets, effectTargets, h]

/-- The smoother leaves settled gains where they are. -/
theorem beforeChain_bypassed {r : α → ℝ} (hx : Exact d.num r) (h : b.Bypassed r) : (beforeChain d b).Bypassed r := by
  intro st
  obtain ⟨hactive, hwet, hdry⟩ := h st
  rw [beforeChain_mix, Mixes.mapStages_of]
  simp only [MixState.step, gainTargets_of_inactive d.num b.par st hactive, smoothed]
  refine ⟨hactive, ?_, ?_⟩
  · rw [hx.smooth_self (by rw [hx.zero, hwet]), hx.zero]
  · rw [hx.smooth_self (by rw [hx.one, hdry]), hx.one]

variable [DecidableEq α]

/-- With wet 0 and dry 1 a stage puts out the number it is given, whatever its wet path makes of it (R127). -/
theorem stageStep_bypassed {r : α → ℝ} (hx : Exact d.num r) (h : b.Bypassed r) (c : Nat) (acc : Channel α × α)
    (st : Stage) : r (stageStep d b c acc st).2 = r acc.2 := by
  obtain ⟨-, hwet, hdry⟩ := h st
  simp [stageStep, mixOut, hx.add, hx.mul, hwet, hdry]

theorem foldl_stageStep_bypassed {r : α → ℝ} (hx : Exact d.num r) (h : b.Bypassed r) (c : Nat) (sts : List Stage)
    (acc : Channel α × α) : r (sts.foldl (stageStep d b c) acc).2 = r acc.2 := by
  induction sts generalizing acc with
  | nil => rfl
  | cons st sts ih => rw [List.foldl_cons, ih, stageStep_bypassed hx h]

/-- A TICK of a bypassed device leaves it bypassed, and puts out its input (R128). -/
theorem tickBlock_bypassed {r : α → ℝ} (hx : Exact d.num r) (h : b.Bypassed r) (f : Frame α) :
    (tickBlock d b f).1.Bypassed r ∧ r (tickBlock d b f).2.c0 = r f.c0 ∧
    (d.nch = 2 → r (tickBlock d b f).2.c1 = r f.c1) := by
  have hb := beforeChain_bypassed hx h
  refine ⟨hb, ?_, fun hn => ?_⟩
  · rw [tickBlock_c0]
    exact foldl_stageStep_bypassed hx hb 0 chainOrder (b.ch0, f.c0)
  · rw [tickBlock_c1, if_pos hn]
    exact foldl_stageStep_bypassed hx hb 1 chainOrder (b.ch1, f.c1)

/-- A block given to a bypassed device comes out as it went in. -/
theorem blockRun_bypassed {r : α → ℝ} (hx : Exact d.num r) (fs : List (Frame α)) (h : b.Bypassed r) :
    (blockRun d fs b).1.map (fun y => r y.c0) = fs.map (fun y => r y.c0) ∧
    (d.nch = 2 → (blockRun d fs b).1.map (fun y => r y.c1) = fs.map fun y => r y.c1) := by
  induction fs generalizing b with
  | nil => exact ⟨rfl, fun _ => rfl⟩
  | cons f fs ih =>
    obtain ⟨hnext, h0, h1⟩ := tickBlock_bypassed hx h f
    obtain ⟨ih0, ih1⟩ := ih hnext
    simp only [blockRun, List.map_cons, h0, ih0]
    exact ⟨trivial, fun hn => by rw [h1 hn, ih1 hn]⟩

/-- Both lanes a TICK puts out are results of an operation of NUM, or the literal 0: values of the carrier. -/
theorem Closed.tickOutput {P : α → Prop} (hN : Closed d.num P) (b : Block α) (f : Frame α) :
    P (tickBlock d b f).2.c0 ∧ P (tickBlock d b f).2.c1 := by
  refine ⟨hN.add _ _, ?_⟩
  rw [tickBlock_c1]
  split
  · exact hN.add _ _
  · exact hN.zero

end

/-! ## The machine in `NUM_REAL` -/

section
variable {s : State}

theorem plain_read_of_kind {n : NumSel} (h : n.kind = .real) (x : Scalar) : plain (n.read x) = plain x := by
  simp [NumSel.read, h, plain]

/-- A value of the carrier that stands for the number a rational is, is that rational. -/
theorem eq_of_plain_eq {n : NumSel} (h : n.kind = .real) {x y : Scalar} (hx : n.read x = x) (hy : IsReal y)
    (hxy : plain x = plain y) : x = y := by
  have hq : x.toRat = y.toRat := Rat.cast_injective hxy
  calc x = n.read x := hx.symm
    _ = n.read y := by simp [NumSel.read, h, hq]
    _ = y := read_of_isReal h hy

/-- A TICK of a bypassed machine leaves it bypassed, and puts out the Samples it is given (R128). -/
theorem tick_bypassed (hk : s.cfg.num.kind = .real) (h : s.Bypassed) (f : Frame Scalar) :
    (tick f s).Bypassed ∧ (IsReal f.c0 → (tick f s).out.c0 = f.c0) ∧
    (s.device.nch = 2 → IsReal f.c1 → (tick f s).out.c1 = f.c1) := by
  obtain ⟨hnext, h0, h1⟩ := tickBlock_bypassed (d := s.device) (exact_of_kind hk) h (f.map s.cfg.num.read)
  obtain ⟨in0, in1⟩ := Closed.tickOutput (d := s.device) (closed_sys s.cfg.num) s.toBlock (f.map s.cfg.num.read)
  exact ⟨hnext, fun hf => eq_of_plain_eq hk in0 hf (h0.trans (plain_read_of_kind hk _)),
    fun hn hf => eq_of_plain_eq hk in1 hf ((h1 hn).trans (plain_read_of_kind hk _))⟩

/-- A block given to a bypassed machine comes out as it went in. -/
theorem processBlock_bypassed (hk : s.cfg.num.kind = .real) (h : s.Bypassed) {fs : List (Frame Scalar)}
    (hfs : ∀ f ∈ fs, IsReal f.c0) :
    (processBlock fs s).1.map Frame.c0 = fs.map Frame.c0 ∧
    (s.device.nch = 2 → (∀ f ∈ fs, IsReal f.c1) → (processBlock fs s).1 = fs) := by
  induction fs generalizing s with
  | nil => exact ⟨rfl, fun _ _ => rfl⟩
  | cons f fs ih =>
    obtain ⟨hf0, hfs0⟩ := List.forall_mem_cons.mp hfs
    obtain ⟨hnext, h0, h1⟩ := tick_bypassed hk h f
    obtain ⟨ih0, ih1⟩ := ih (s := tick f s) hk hnext hfs0
    rw [processBlock_cons]
    refine ⟨congrArg₂ List.cons (h0 hf0) ih0, fun hn hreal => ?_⟩
    obtain ⟨hf1, hfs1⟩ := List.forall_mem_cons.mp hreal
    have hout : (tick f s).out = f := congrArg₂ Frame.mk (h0 hf0) (h1 hn hf1)
    exact congrArg₂ List.cons hout (ih1 hn hfs1)

end

/-- Settles O47: reset leaves the block bypassed, and a bypassed block passes its input through. -/
theorem dryBypassAfterReset : Obligations.DryBypassAfterReset :=
  ⟨fun _ _ hk hfs => processBlock_bypassed hk (Block.reset_bypassed (exact_of_kind hk)) hfs,
   fun _ _ _ _ fs hx => blockRun_bypassed hx fs (Block.reset_bypassed hx)⟩

end Sys2Proof.Machine
end

section
/-! PROOFS. The impulse memories (20_memory.md R65, 48_reverb.md R273): no step but a publication writes a bank or moves the
handle, and a publication writes the bank that is not live. -/

namespace Sys2Proof.Machine

section
variable {α : Type} {d : Device α} {b t : Block α}

/-- Both banks, and the handle, the length and the version of the live one, are as before. -/
structure SameImpulse (b t : Block α) : Prop where
  sel : t.irSel = b.irSel
  len : t.irLen = b.irLen
  ver : t.irVer = b.irVer
  bank0 : t.bank0 = b.bank0
  bank1 : t.bank1 = b.bank1

theorem SameImpulse.refl (b : Block α) : SameImpulse b b := ⟨rfl, rfl, rfl, rfl, rfl⟩

/-- No command speaks of the impulse memories: `SETP.REV.time` files a job and no more (R270). -/
theorem Effect.sameImpulse {i : Instr} (e : Effect d i b t) : SameImpulse b t := by
  cases e <;> exact ⟨rfl, rfl, rfl, rfl, rfl⟩

variable [DecidableEq α] (d b)

theorem tickBlock_sameImpulse (f : Frame α) : SameImpulse b (tickBlock d b f).1 := ⟨rfl, rfl, rfl, rfl, rfl⟩

/-! ## A publication -/

variable (dur : α) (u : Nat → α)

@[simp] theorem publish_irSel : (publish d b dur u).irSel = !b.irSel := rfl
@[simp] theorem publish_irVer : (publish d b dur u).irVer = b.irVer + 1 := rfl
@[simp] theorem publish_job : (publish d b dur u).job = none := rfl

/-- The bank that was live is unwritten. -/
theorem publish_liveUnwritten :
    if b.irSel then (publish d b dur u).bank1 = b.bank1 else (publish d b dur u).bank0 = b.bank0 := by
  cases h : b.irSel <;> simp [publish, Block.setShadow, h]

end

/-! ## A step that is no reset -/

/-- No word decodes to RESET (30_encoding.md R95). -/
theorem decode_ne_reset {w : Word} {i : Instr} (h : decode w = .ok i) : i ≠ .reset := by
  rintro rfl
  cases isCommand_of_decode h

/-- What an entry other than reset does: its word is rejected, or an instruction other than RESET has its outcome. -/
theorem runEvent_cases {e : Event} {s t : State} (he : e ≠ .reset) (h : runEvent e s = .next t) :
    t = s.reject ∨ ∃ i, i ≠ .reset ∧ Stepped i s t := by
  cases e with
  | word w =>
    cases hd : decode w with
    | error r => rw [runEvent_word_error s hd] at h; cases h; exact .inl rfl
    | ok i => exact .inr ⟨i, decode_ne_reset hd, exec_cases (runEvent_word_ok s hd ▸ h)⟩
  | tick f => exact .inr ⟨.tick f, nofun, exec_cases h⟩
  | irgen us => exact .inr ⟨.irgen us, nofun, exec_cases h⟩
  | read a => exact .inr ⟨.read a, nofun, exec_cases h⟩
  | reset => exact absurd rfl he

/-- An instruction other than RESET leaves the impulse memories, or publishes the job in flight. -/
theorem Stepped.impulse {i : Instr} {s t : State} (hi : i ≠ .reset) (e : Stepped i s t) :
    SameImpulse s.toBlock t.toBlock ∨
    ∃ dur u, s.job = some dur ∧ t.toBlock = publish s.device s.toBlock dur u := by
  cases e with
  | command _ _ _ e => exact .inl e.sameImpulse
  | tick f => exact .inl (tickBlock_sameImpulse _ _ _)
  | read => exact .inl (.refl _)
  | irgen draws =>
    rcases irgenStep_cases s.device s.toBlock (drawAt s.device (draws.map s.cfg.num.read) s.rngPos) with
      ⟨_, hstay⟩ | ⟨dur, hjob, hpub⟩
    · exact .inl (hstay.symm ▸ .refl s.toBlock)
    · exact .inr ⟨dur, _, hjob, hpub⟩
  | reset h => exact absurd h hi

/-- So does every step that takes no reset. -/
theorem step_impulse {s t : State} (hs : step s = .next t) (hr : ∀ rest, s.inbox ≠ .reset :: rest) :
    SameImpulse s.toBlock t.toBlock ∨
    ∃ dur u, s.job = some dur ∧ t.toBlock = publish s.device s.toBlock dur u := by
  cases hb : s.inbox with
  | nil =>
    rw [step_nil hb] at hs
    cases hs
    exact .inl (.refl _)
  | cons e rest =>
    have he : e ≠ .reset := fun h => hr rest (h ▸ hb)
    rw [step_cons hb] at hs
    rcases runEvent_cases he hs with rfl | ⟨i, hi, hstep⟩
    · exact .inl ⟨rfl, rfl, rfl, rfl, rfl⟩
    · exact Stepped.impulse (s := { s with inbox := rest }) hi hstep

/-- Settles O43: a step leaves the impulse memories, or publishes, which flips the handle and writes the shadow bank. -/
theorem liveBankNeverWritten : Obligations.LiveBankNeverWritten := by
  intro s t hs hr
  rcases step_impulse hs hr with same | ⟨dur, u, hjob, hpub⟩
  · refine ⟨?_, fun hmoved => absurd same.sel hmoved, fun _ => ⟨same.len, same.ver⟩⟩
    split
    · exact same.bank1
    · exact same.bank0
  · rw [hpub]
    exact ⟨publish_liveUnwritten _ _ _ _, fun _ => ⟨by simp [hjob], rfl, rfl⟩, fun hsel => by simp at hsel⟩

end Sys2Proof.Machine
end

section
/-! PROOFS. A command and its word are each other's (30_encoding.md R90 to R101): the decoder inverts the encoder on the
well-formed instructions, so R100's table of matches and masks is the decoder; and the words it rejects are those R97 lists. -/

namespace Sys2Proof

/-! ## The word of a command -/

/-- The command of a settable pair has the word of that pair, by R100's table. -/
theorem encode_of_setpOf {st pr : Nat} {val : Val} {i : Instr} (h : setpOf st pr val = some i) :
    encode i = some (mkWord 1 (.ofNat 4 st) (.ofNat 4 pr) val) := by
  unfold setpOf at h
  split at h <;> cases h <;> rfl

/-- The `SETA` of a stage has the word of that stage, its flag as bit 0. -/
theorem encode_of_setaOf {st : Nat} {a : Bool} {i : Instr} (h : setaOf st a = some i) :
    encode i = some (mkWord 2 (.ofNat 4 st) 0 (if a then 1 else 0)) := by
  unfold setaOf at h
  split at h <;> cases h <;> rfl

/-- An operand whose bits 31:1 are zero is its bit 0. -/
theorem val_eq_flag {val : Val} (h : val.extractLsb' 1 31 = 0) : val = if val.getLsbD 0 then 1 else 0 := by
  apply BitVec.eq_of_getLsbD_eq
  intro k hk
  cases k with
  | zero => cases val.getLsbD 0 <;> rfl
  | succ k =>
    have hbit : (val.extractLsb' 1 31).getLsbD k = val.getLsbD (k + 1) := by
      simp [show k < 31 by omega, Nat.add_comm]
    rw [← hbit, h]
    cases val.getLsbD 0 <;> simp

/-- A word with `rsv` zero is its fields. -/
theorem eq_mkWord_of_fields {w : Word} {op st pr : BitVec 4} {val : Val} (hrsv : w.rsv = 0) (hop : w.op.toNat = op.toNat)
    (hst : w.stage = st) (hpr : w.param = pr) (hval : w.val = val) : w = mkWord op st pr val := by
  rw [← BitVec.eq_of_toNat_eq hop, ← hst, ← hpr, ← hval, mkWord_fields w hrsv]

theorem decodeSetp_eq_ok {w : Word} {i : Instr} (h : decodeSetp w = .ok i) :
    setpOf w.stage.toNat w.param.toNat w.val = some i := by
  unfold decodeSetp at h
  split at h
  · cases h
  · split at h <;> cases h
    assumption

theorem decodeSeta_eq_ok {w : Word} {i : Instr} (h : decodeSeta w = .ok i) :
    w.param = 0 ∧ w.val.extractLsb' 1 31 = 0 ∧ setaOf w.stage.toNat (w.val.getLsbD 0) = some i := by
  unfold decodeSeta at h
  split_ifs at h with hpr hval
  split at h <;> cases h
  exact ⟨not_not.mp hpr, not_not.mp hval, ‹_›⟩

theorem decodeEnv_eq_ok {w : Word} {i j : Instr} (h : decodeEnv j w = .ok i) :
    w.stage = 10 ∧ w.param = 0 ∧ w.val = 0 ∧ i = j := by
  unfold decodeEnv at h
  split_ifs at h with hst hpr hval
  cases h
  exact ⟨not_not.mp hst, not_not.mp hpr, not_not.mp hval, rfl⟩

/-- A word that decodes is the word of its instruction, by its operation. -/
theorem encode_of_decode {w : Word} {i : Instr} (h : decode w = .ok i) : encode i = some w := by
  unfold decode at h
  split at h
  · cases h
  next hrsv =>
  rw [not_not] at hrsv
  split at h
  next =>
    split_ifs at h with hw
    cases h
    rw [hw]
    rfl
  next hop =>
    rw [encode_of_setpOf (decodeSetp_eq_ok h), BitVec.ofNat_toNat, BitVec.ofNat_toNat]
    exact congrArg some (eq_mkWord_of_fields (op := 1) hrsv hop (by simp) (by simp) rfl).symm
  next hop =>
    obtain ⟨hpr, hval, hi⟩ := decodeSeta_eq_ok h
    rw [encode_of_setaOf hi, BitVec.ofNat_toNat]
    exact congrArg some (eq_mkWord_of_fields (op := 2) hrsv hop (by simp) hpr (val_eq_flag hval)).symm
  next hop =>
    obtain ⟨hst, hpr, hval, rfl⟩ := decodeEnv_eq_ok h
    exact congrArg some (eq_mkWord_of_fields (op := 3) hrsv hop hst hpr hval).symm
  next hop =>
    obtain ⟨hst, hpr, hval, rfl⟩ := decodeEnv_eq_ok h
    exact congrArg some (eq_mkWord_of_fields (op := 4) hrsv hop hst hpr hval).symm
  next => cases h

/-- A word decodes to an instruction exactly when it is the word of that instruction, which is well-formed. -/
theorem decode_eq_ok_iff {w : Word} {i : Instr} : decode w = .ok i ↔ encode i = some w ∧ i.wf = true := by
  constructor
  · exact fun h => ⟨encode_of_decode h, decode_wf h⟩
  · rintro ⟨h, hwf⟩
    cases i with
    | nop => cases h; rfl
    | trig => cases h; rfl
    | rel => cases h; rfl
    | tick | read | irgen | reset => cases h
    | setaHpf a | setaLpf a | setaEql a | setaEqm a | setaEqh a | setaPha a | setaFla a | setaCho a | setaDly a | setaRev a =>
      cases h
      exact decode_seta rfl
    | setpHpfFrequency val | setpHpfQ val | setpLpfFrequency val | setpLpfQ val | setpEqlFrequency val | setpEqlGain val
    | setpEqmFrequency val | setpEqmQ val | setpEqmGain val | setpEqhFrequency val | setpEqhGain val | setpPhaRate val
    | setpPhaDepth val | setpPhaMix val | setpFlaRate val | setpFlaFeedback val | setpFlaMix val | setpChoRate val
    | setpChoMix val | setpDlyTime val | setpDlyFeedback val | setpDlyMix val | setpRevTime val | setpRevMix val
    | setpEnvAttack val | setpEnvDecay val | setpEnvSustain val | setpEnvRelease val =>
      cases h
      exact decode_setp rfl (by simpa [Instr.wf] using hwf)

/-- Settles O35. -/
theorem encodeDecodeRoundTrip : Obligations.EncodeDecodeRoundTrip := fun _ _ h => decode_eq_ok_iff.mp h

/-- An instruction has no word exactly when it is one of the four operations R100's table gives no encoding. -/
theorem encode_eq_none {i : Instr} (h : encode i = none) :
    (∃ f, i = .tick f) ∨ (∃ a, i = .read a) ∨ (∃ d, i = .irgen d) ∨ i = .reset := by
  cases i with
  | tick f => exact .inl ⟨f, rfl⟩
  | read a => exact .inr (.inl ⟨a, rfl⟩)
  | irgen d => exact .inr (.inr (.inl ⟨d, rfl⟩))
  | reset => exact .inr (.inr (.inr rfl))
  | _ => cases h

/-- Settles O34: an instruction with a word is what its word decodes to. -/
theorem decodeEncodeRoundTrip : Obligations.DecodeEncodeRoundTrip := by
  intro i hwf
  cases h : encode i with
  | some w => exact .inl ⟨w, rfl, decode_eq_ok_iff.mpr ⟨h, hwf⟩⟩
  | none => exact .inr ⟨rfl, encode_eq_none h⟩

/-- Settles O31. -/
theorem sampleWordsDecode : Obligations.SampleWordsDecode := by
  unfold Obligations.SampleWordsDecode
  decide

end Sys2Proof
end

section
/-! PROOFS. The opcode map and the rejected words (30_encoding.md R97, R100, R101): the table of matches and masks is the
decoder, and the words the decoder rejects are those R97 lists. -/

namespace Sys2Proof.Machine

/-! ## The opcode map -/

/-- The upper bits of a word are the match exactly when the word is the match with the word's own lower bits under it. -/
theorem and_upperMask_eq_iff {m n : Nat} {w : BitVec (m + n)} {top : BitVec m} :
    w &&& (BitVec.allOnes m ++ 0#n) = top ++ 0#n ↔ w = top ++ w.extractLsb' 0 n := by
  obtain ⟨hi, lo, rfl⟩ : ∃ (hi : BitVec m) (lo : BitVec n), w = hi ++ lo :=
    ⟨_, _, BitVec.extractLsb'_append_extractLsb'.symm⟩
  rw [BitVec.extractLsb'_append_eq_right, BitVec.and_append, BitVec.and_allOnes, BitVec.and_zero, BitVec.append_left_inj,
    BitVec.append_left_inj]

/-- Every row of the table of `SETP` commands has the word of its command, the operand under the match. -/
theorem setpTable_row {row : BitVec 32 × (Val → Instr)} (h : row ∈ setpTable) (val : Val) :
    encode (row.2 val) = some (row.1 ++ val) ∧ (row.2 val).wf = !isNaNPattern val := by
  simp only [setpTable, List.mem_cons, List.not_mem_nil, or_false] at h
  rcases h with rfl | rfl | rfl | rfl | rfl | rfl | rfl | rfl | rfl | rfl | rfl | rfl | rfl | rfl | rfl | rfl | rfl | rfl |
    rfl | rfl | rfl | rfl | rfl | rfl | rfl | rfl | rfl | rfl <;> exact ⟨rfl, rfl⟩

/-- Every row of the table of `SETA` commands has the word of its command, the flag as bit 0. -/
theorem setaTable_row {row : BitVec 32 × (Bool → Instr)} (h : row ∈ setaTable) (a : Bool) :
    encode (row.2 a) = some ((row.1 ++ 0#31) ++ BitVec.ofBool a) ∧ (row.2 a).wf = true := by
  simp only [setaTable, List.mem_cons, List.not_mem_nil, or_false] at h
  cases a <;> rcases h with rfl | rfl | rfl | rfl | rfl | rfl | rfl | rfl | rfl | rfl <;> exact ⟨rfl, rfl⟩

/-- A word decodes to an instruction that is well-formed exactly when it is that instruction's word. -/
theorem eq_iff_decode {i : Instr} {v : Word} (henc : encode i = some v) (hwf : i.wf = true) (w : Word) :
    w = v ↔ decode w = .ok i := by
  rw [decode_eq_ok_iff, henc, Option.some_inj, and_iff_left hwf, eq_comm]

/-- Settles O33: each row is the word of its command, and a mask of its upper bits compares the word with it. -/
theorem matchAndMaskSelectCommand : Obligations.MatchAndMaskSelectCommand := by
  intro w
  refine ⟨fun row hrow => ?_, fun row hrow => ?_, eq_iff_decode rfl rfl w, eq_iff_decode rfl rfl w, eq_iff_decode rfl rfl w⟩
  · obtain ⟨henc, hwf⟩ := setpTable_row hrow (w.extractLsb' 0 32)
    have hmask : w &&& 0xFFFFFFFF00000000 = row.1 ++ 0#32 ↔ w = row.1 ++ w.extractLsb' 0 32 :=
      and_upperMask_eq_iff (m := 32) (n := 32)
    rw [hmask, decode_eq_ok_iff, henc, hwf, Option.some_inj, eq_comm, isNaN_iff, Bool.not_eq_true, Bool.not_eq_true']
  · obtain ⟨henc, hwf⟩ := setaTable_row hrow (w.getLsbD 0)
    have hmask : w &&& 0xFFFFFFFFFFFFFFFE = row.1 ++ 0#32 ↔ w = (row.1 ++ 0#31) ++ w.extractLsb' 0 1 := by
      have hzero : ((row.1 ++ 0#31) ++ 0#1 : Word) = row.1 ++ 0#32 := by
        rw [BitVec.append_assoc, BitVec.cast_eq]
        rfl
      rw [← hzero]
      exact and_upperMask_eq_iff (m := 63) (n := 1)
    have hflag : w.extractLsb' 0 1 = BitVec.ofBool (w.getLsbD 0) := by
      ext k hk
      obtain rfl : k = 0 := by omega
      simp
    rw [hmask, hflag]
    exact eq_iff_decode henc hwf w

/-! ## What each operation rejects -/

/-- The settable pairs are those the decoder has a command for. -/
theorem settable_iff {st r : Nat} (val : Val) : Settable st r ↔ ∃ i, setpOf st r val = some i := by
  constructor
  · rintro ⟨p, hrow, hfla, hcho⟩
    have h := mem_paramRows_iff.mp hrow
    unfold paramAt at h
    split at h <;> cases h
    -- rows 16 and 20 of R21's table are the two fixed depths
    case h_16 => exact absurd rfl hfla
    case h_20 => exact absurd rfl hcho
    all_goals exact ⟨_, rfl⟩
  · rintro ⟨i, h⟩
    unfold setpOf at h
    split at h <;> cases h <;> exact ⟨_, mem_paramRows_iff.mpr rfl, nofun, nofun⟩

theorem exists_setaOf_iff {st : Nat} (a : Bool) : (∃ i, setaOf st a = some i) ↔ st ≤ 9 := by
  constructor
  · rintro ⟨i, h⟩
    unfold setaOf at h
    split at h <;> cases h <;> decide
  · intro h
    interval_cases st <;> exact ⟨_, rfl⟩

/-- A check in front of a decoder rejects, or the decoder does. -/
theorem error_ite_iff {p : Prop} [Decidable p] {r : Reject} {e : Except Reject Instr} :
    (∃ r', (if p then .error r else e) = .error r') ↔ p ∨ ∃ r', e = .error r' := by
  split <;> simp [*]

theorem decodeSetp_error_iff {w : Word} :
    (∃ r, decodeSetp w = .error r) ↔ ¬ Settable w.stage.toNat w.param.toNat ∨ IsNaN w.val := by
  rw [settable_iff w.val, isNaN_iff, decodeSetp]
  cases setpOf w.stage.toNat w.param.toNat w.val with
  | none => simp
  | some i => simp [error_ite_iff]

theorem decodeSeta_error_iff {w : Word} :
    (∃ r, decodeSeta w = .error r) ↔ 9 < w.stage.toNat ∨ w.param ≠ 0 ∨ w.val.extractLsb' 1 31 ≠ 0 := by
  rw [← not_le, ← exists_setaOf_iff (w.val.getLsbD 0), decodeSeta, error_ite_iff, error_ite_iff]
  cases setaOf w.stage.toNat (w.val.getLsbD 0) <;> simp

theorem decodeEnv_error_iff {w : Word} (i : Instr) :
    (∃ r, decodeEnv i w = .error r) ↔ w.stage ≠ 10 ∨ w.param ≠ 0 ∨ w.val ≠ 0 := by
  rw [decodeEnv, error_ite_iff, error_ite_iff, error_ite_iff]
  simp

/-- The decoder rejects exactly the words R97 lists. -/
theorem rejectable_iff {w : Word} : Rejectable w ↔ ∃ r, decode w = .error r := by
  show w.rsv ≠ 0 ∨ 5 ≤ w.op.toNat ∨ (w.op.toNat = 0 ∧ w ≠ 0) ∨
    (w.op.toNat = 1 ∧ (¬ Settable w.stage.toNat w.param.toNat ∨ IsNaN w.val)) ∨
    (w.op.toNat = 2 ∧ (9 < w.stage.toNat ∨ w.param.toNat ≠ 0 ∨ w.val.extractLsb' 1 31 ≠ 0)) ∨
    ((w.op.toNat = 3 ∨ w.op.toNat = 4) ∧ (w.stage.toNat ≠ 10 ∨ w.param.toNat ≠ 0 ∨ w.val ≠ 0)) ↔ _
  have hst : w.stage.toNat = 10 ↔ w.stage = 10 := BitVec.toNat_inj (y := 10)
  have hpr : w.param.toNat = 0 ↔ w.param = 0 := BitVec.toNat_inj (y := 0)
  rw [decode, error_ite_iff, ← decodeSetp_error_iff, ne_eq w.param.toNat, hpr, ne_eq w.stage.toNat, hst, ← decodeSeta_error_iff]
  refine or_congr_right ?_
  split
  next h =>
    rw [← ite_not, error_ite_iff]
    simp [h]
  next h => simp [h]
  next h => simp [h]
  next h => simp [h, decodeEnv_error_iff]
  next h => simp [h, decodeEnv_error_iff]
  next h0 h1 h2 h3 h4 =>
    have hop : 5 ≤ w.op.toNat := by
      by_contra hlt
      interval_cases w.op.toNat <;> contradiction
    simp [hop]

/-- Settles O32: the decoder's checks are the list, and a step of the machine puts a rejected word to `Block.reject`. -/
theorem rejectedExactlyWhenListed : Obligations.RejectedExactlyWhenListed := by
  intro w
  refine ⟨rejectable_iff, ?_, fun s rest hinbox hw => ?_⟩
  · rw [rejectable_iff]
    cases h : decode w with
    | error r => simp
    | ok i => simp [decode_wf h]
  · obtain ⟨r, h⟩ := rejectable_iff.mp hw
    rw [step_cons hinbox, runEvent_word_error _ h]
    rfl

end Sys2Proof.Machine
end

section
/-! PROOFS. A step of the machine (00_scope.md R5, 30_encoding.md R95 to R97): it runs the instruction its next word decodes
to, and it is a step of the device the machine's configuration builds (R10, log 26). -/

namespace Sys2Proof.Machine

section
variable {α : Type} [DecidableEq α] {d : Device α} {b : Block α}

/-- A reset of a device whose configuration passes construction, and of one whose configuration does not (R321, R350). -/
theorem deviceStep_reset_of_none (h : checkDevice d = none) : deviceStep d .reset b = .ok (Block.reset d, .nothing) := by
  simp [deviceStep, construct, h]

theorem deviceStep_reset_of_some {c : Cause} (h : checkDevice d = some c) : deviceStep d .reset b = .error c := by
  simp [deviceStep, construct, h]

end

section
variable {s : State} {e : Event}

/-- What an entry asks of the device does not depend on what the outside still asks for. -/
theorem actOf_inbox (s : State) (rest : List Event) (e : Event) : actOf { s with inbox := rest } e = actOf s e := by
  cases e <;> rfl

/-- `t` is `s` after an entry that left the block `b` and put out `o`: the ports show the output. -/
structure Shows (s : State) (b : Block Scalar) (o : Output Scalar) (t : State) : Prop where
  block : t.toBlock = b
  cfg : t.cfg = s.cfg
  inbox : t.inbox = s.inbox
  frame : ∀ f v, o = .frame f v → t.out = f ∧ t.envOut = v
  data : ∀ w, o = .data w → t.readData = w

/-- A command word changes the block as the device's own command does, whether it is executed or rejected. -/
theorem runEvent_word (w : Word) (s : State) : runEvent (.word w) s = .next (s.onBlock (commandWord s.device w)) := by
  unfold commandWord
  cases h : decode w with
  | error r => exact runEvent_word_error s h
  | ok i => rw [runEvent_word_ok s h, exec_command s (isCommand_of_decode h)]

/-- Where the device steps, the machine does, and its ports show what the device puts out. -/
theorem runEvent_of_deviceStep {b : Block Scalar} {o : Output Scalar}
    (h : deviceStep s.device (actOf s e) s.toBlock = .ok (b, o)) : ∃ t, runEvent e s = .next t ∧ Shows s b o t := by
  cases e with
  | word w => cases h; exact ⟨_, runEvent_word w s, rfl, rfl, rfl, nofun, nofun⟩
  | tick f => cases h; exact ⟨_, rfl, rfl, rfl, rfl, fun _ _ ho => by cases ho; exact ⟨rfl, rfl⟩, nofun⟩
  | irgen us => cases h; exact ⟨_, rfl, rfl, rfl, rfl, nofun, nofun⟩
  | read a => cases h; exact ⟨_, rfl, rfl, rfl, rfl, nofun, fun _ ho => by cases ho; rfl⟩
  | reset =>
    show ∃ t, exec .reset s = .next t ∧ _
    rw [exec_reset]
    cases hc : checkCfg s.cfg with
    | some c => cases (deviceStep_reset_of_some hc).symm.trans h
    | none => cases (deviceStep_reset_of_none hc).symm.trans h; exact ⟨_, rfl, rfl, rfl, rfl, nofun, nofun⟩

/-- Where construction fails, both stop for the same cause. -/
theorem runEvent_of_deviceStep_error {c : Cause} (h : deviceStep s.device (actOf s e) s.toBlock = .error c) :
    runEvent e s = .fault (.configurationError c) := by
  cases e with
  | reset =>
    show exec .reset s = _
    rw [exec_reset]
    cases hc : checkCfg s.cfg with
    | some c => cases (deviceStep_reset_of_some hc).symm.trans h; rfl
    | none => cases (deviceStep_reset_of_none hc).symm.trans h
  | _ => cases h

end

/-- Settles O30: the entry taken decides the instruction, and each kind of entry is a step of the device. -/
theorem stepRunsDecodedInstruction : Obligations.StepRunsDecodedInstruction := by
  intro s rest
  refine ⟨fun w i hs hd => ⟨decode_wf hd, ?_⟩, fun w r hs hd => ?_, fun f hs => step_cons hs, fun us hs => step_cons hs,
    fun a hs => step_cons hs, fun hs => step_cons hs, step_nil, fun w i hd => ?_, fun e hs => ?_⟩
  · rw [step_cons hs, runEvent_word_ok _ hd]
  · rw [step_cons hs, runEvent_word_error _ hd]
    rfl
  · rw [decodeTableWord] at hd
    split_ifs at hd
    split at hd <;> cases hd
    exact (step_cons rfl).trans (runEvent_word_ok s ‹_›)
  · have hact := actOf_inbox s rest e
    rw [step_cons hs]
    cases hd : deviceStep s.device (actOf s e) s.toBlock with
    | error c => exact runEvent_of_deviceStep_error (s := { s with inbox := rest }) (hact ▸ hd)
    | ok r =>
      obtain ⟨b, o⟩ := r
      obtain ⟨t, ht, hshows⟩ := runEvent_of_deviceStep (s := { s with inbox := rest }) (hact ▸ hd)
      exact ⟨t, ht, hshows.block, hshows.cfg, hshows.inbox, hshows.frame, hshows.data⟩

end Sys2Proof.Machine
end

section
/-! PROOFS. The parameters stay in their domains (30_encoding.md R99): a command clamps what it stores, TICK moves a current
value between two legal ones (40_tick_smoother_mix.md R122), and reset starts from legal ones. -/

namespace Sys2Proof.Machine

section
variable {α : Type} {d : Device α} {r : α → ℝ} {b t : Block α} (hx : Exact d.num r) (hc : checkDevice d = none)
include hx hc

/-! ## Commands -/

/-- A `SETP` stores a value of the entry's domain (R99). -/
theorem smoothedOperand_inDomain {p : SParam} {val : Val} {v : α} (h : p.operand d val = some v) :
    InDomain d.num (p.lo d) (p.hi d) v := by
  obtain ⟨w, -, rfl⟩ := operand_some h
  exact hx.clamp_inDomain w ((domain_le hx hc).1 p)

theorem heldOperand_inDomain {p : HParam} {val : Val} {v : α} (h : p.operand d val = some v) :
    InDomain d.num (p.lo d) (p.hi d) v := by
  obtain ⟨w, -, rfl⟩ := operand_some h
  exact hx.clamp_inDomain w ((domain_le hx hc).2 p)

theorem setTgt_paramsLegal (hb : b.ParamsLegal d) {p : SParam} {val : Val} {v : α} (h : p.operand d val = some v) :
    (b.setTgt p v).ParamsLegal d where
  tgt q := by
    rw [Block.setTgt_par, Params.setTgt_s]
    split_ifs with hq
    · rw [hq]
      exact smoothedOperand_inDomain hx hc h
    · exact hb.tgt q
  cur q := by simpa using hb.cur q
  held q := by simpa using hb.held q

theorem setHeld_paramsLegal (hb : b.ParamsLegal d) {p : HParam} {val : Val} {v : α} (h : p.operand d val = some v) :
    (b.setHeld p v).ParamsLegal d where
  tgt q := by simpa using hb.tgt q
  cur q := by simpa using hb.cur q
  held q := by
    rw [Block.setHeld_par, Params.setHeld_h]
    split_ifs with hq
    · rw [hq]
      exact heldOperand_inDomain hx hc h
    · exact hb.held q

/-- A command leaves the parameters legal: the two writes of the register file are the only ones. -/
theorem Effect.paramsLegal (hb : b.ParamsLegal d) {i : Instr} (e : Effect d i b t) : t.ParamsLegal d := by
  cases e with
  | target p v _ hv => exact setTgt_paramsLegal hx hc hb hv.choose_spec
  | held p v _ hv => exact setHeld_paramsLegal hx hc hb hv.choose_spec
  | time val v _ hv => exact { setHeld_paramsLegal hx hc hb hv with }
  | nop | rejected | active | trig | rel => exact { hb with }

theorem commandWord_paramsLegal (hb : b.ParamsLegal d) (w : Word) : (commandWord d w b).ParamsLegal d := by
  rcases commandWord_cases d w b with ⟨_, _, e⟩ | ⟨_, _, _, e⟩
  · rw [e]
    exact { hb with }
  · exact e.paramsLegal hx hc hb

omit hc in
/-- TICK moves each current value between it and its target, and writes no other parameter (R122). -/
theorem tickBlock_paramsLegal [DecidableEq α] (hs : SmoothingMonotone d r) (hb : b.ParamsLegal d) (f : Frame α) :
    (tickBlock d b f).1.ParamsLegal d where
  tgt p := by
    rw [tickBlock_par, Params.mapSmoothed_s]
    exact hb.tgt p
  cur p := by
    rw [tickBlock_par, Params.mapSmoothed_s]
    exact hx.smooth_inDomain hs (hb.tgt p) (hb.cur p)
  held p := by
    rw [tickBlock_par, Params.mapSmoothed_h]
    exact hb.held p

omit hx hc in
/-- IRGEN writes no parameter. -/
theorem irgenStep_paramsLegal [DecidableEq α] (hb : b.ParamsLegal d) (u : Nat → α) : (irgenStep d b u).ParamsLegal d := by
  rcases irgenStep_cases d b u with ⟨_, e⟩ | ⟨dur, _, e⟩ <;> rw [e]
  · exact hb
  · have hpar : (publish d b dur u).par = b.par := Block.setShadow_par _ _
    exact ⟨fun p => hpar ▸ hb.tgt p, fun p => hpar ▸ hb.cur p, fun p => hpar ▸ hb.held p⟩

/-- Every step of a constructed device in an exact number system leaves its parameters legal. -/
theorem deviceStep_paramsLegal [DecidableEq α] (hs : SmoothingMonotone d r) (hb : b.ParamsLegal d) {a : Act α} {o : Output α}
    (h : deviceStep d a b = .ok (t, o)) : t.ParamsLegal d := by
  rcases deviceStep_cases h with
    ⟨w, _, rfl, _⟩ | ⟨f, _, rfl, _⟩ | ⟨_, _, _, rfl, _⟩ | ⟨_, _, rfl, _⟩ | ⟨_, _, rfl, _⟩
  · exact commandWord_paramsLegal hx hc hb w
  · exact tickBlock_paramsLegal hx hs hb f
  · exact irgenStep_paramsLegal hb _
  · exact hb
  · exact Block.reset_paramsLegal hx hc

end

/-- Over the reals the smoothing factor is the exponential of a negative number. -/
theorem smoothingMonotone_real {d : Device ℝ} (hn : d.num = numReal) (hfs : 0 < d.fs) : SmoothingMonotone d fun x => x := by
  refine or_iff_not_imp_left.mpr fun ht => ?_
  rw [hn, numReal_le, numReal_zero, not_le] at ht
  have hexp : -(1 / d.fs) / d.tau ≤ 0 := div_nonpos_of_nonpos_of_nonneg (neg_nonpos.mpr (by positivity)) ht.le
  rw [hn, numReal_ks]
  exact ⟨(Real.exp_pos _).le, Real.exp_le_one_iff.mpr hexp⟩

/-- Settles O38: a step of the machine is a step of its device, in which every operation keeps the parameters legal. -/
theorem parametersStayLegal : Obligations.ParametersStayLegal := by
  refine ⟨fun s t hk hc hs h => ?_, fun _ _ _ _ _ _ _ _ hx hc hm hb h => deviceStep_paramsLegal hx hc hm hb h,
    fun _ => smoothingMonotone_real⟩
  cases hi : s.inbox with
  | nil =>
    rw [step_nil hi] at h
    cases h
    exact ⟨hs, rfl⟩
  | cons e rest =>
    rw [step_cons hi] at h
    cases hd : deviceStep s.device (actOf { s with inbox := rest } e) s.toBlock with
    | error c => cases (runEvent_of_deviceStep_error (s := { s with inbox := rest }) hd).symm.trans h
    | ok p =>
      obtain ⟨u, hu, hshows⟩ := runEvent_of_deviceStep (s := { s with inbox := rest }) hd
      cases hu.symm.trans h
      have hblock := deviceStep_paramsLegal (exact_of_kind hk) hc (smoothingMonotone_of_kind hk hc) hs hd
      obtain ⟨hb, hcfg, -⟩ := hshows
      exact ⟨by rw [State.ParamsLegal, State.device, hb, hcfg]; exact hblock, hcfg⟩

end Sys2Proof.Machine
end

section
/-! PROOFS. The choices of the model at points the spec leaves without a rule (logs 12, 13, 15, 20 and 27). -/

namespace Sys2Proof.Machine

/-! ## A `SETP` with a NaN operand (log 20) -/

section
variable {α : Type} {d : Device α} {b : Block α} {val : Val}

theorem operandValue_of_nan {N : NumSys α} {lo hi : α} (h : isNaNPattern val = true) : operandValue N lo hi val = none := by
  simp [operandValue, h]

theorem setpSmoothed_of_nan (p : SParam) (h : isNaNPattern val = true) : setpSmoothed d p val b = b.reject := by
  simp [setpSmoothed, SParam.operand, operandValue_of_nan h]

theorem setpHeld_of_nan (p : HParam) (h : isNaNPattern val = true) : setpHeld d p val b = b.reject := by
  simp [setpHeld, HParam.operand, operandValue_of_nan h]

theorem setpTime_of_nan (h : isNaNPattern val = true) : setpTime d val b = b.reject := by
  simp [setpTime, HParam.operand, operandValue_of_nan h]

/-- The instructions that are not well-formed are the `SETP` commands with a NaN operand, and `IRGEN`. -/
theorem command_of_not_wf {i : Instr} (h : i.wf = false) (hi : ∀ draws, i ≠ .irgen draws) :
    isCommand i = true ∧ command d b i = b.reject := by
  cases i with
  | irgen draws => exact absurd rfl (hi draws)
  | nop | trig | rel | tick | read | reset => cases h
  | setaHpf | setaLpf | setaEql | setaEqm | setaEqh | setaPha | setaFla | setaCho | setaDly | setaRev => cases h
  | setpRevTime val => exact ⟨rfl, setpTime_of_nan (by simpa [Instr.wf] using h)⟩
  | setpPhaMix val | setpFlaMix val | setpChoMix val | setpDlyMix val | setpRevMix val | setpEnvAttack val
  | setpEnvDecay val | setpEnvSustain val | setpEnvRelease val =>
    exact ⟨rfl, setpHeld_of_nan _ (by simpa [Instr.wf] using h)⟩
  | setpHpfFrequency val | setpHpfQ val | setpLpfFrequency val | setpLpfQ val | setpEqlFrequency val | setpEqlGain val
  | setpEqmFrequency val | setpEqmQ val | setpEqmGain val | setpEqhFrequency val | setpEqhGain val | setpPhaRate val
  | setpPhaDepth val | setpFlaRate val | setpFlaFeedback val | setpChoRate val | setpDlyTime val | setpDlyFeedback val =>
    exact ⟨rfl, setpSmoothed_of_nan _ (by simpa [Instr.wf] using h)⟩

end

theorem exec_of_not_wf {i : Instr} (s : State) (h : i.wf = false) (hi : ∀ draws, i ≠ .irgen draws) :
    exec i s = .next { s with badcmd := true } := by
  obtain ⟨hc, hreject⟩ := command_of_not_wf (d := s.device) (b := s.toBlock) h hi
  rw [exec_command s hc, State.onBlock, hreject]
  rfl

/-! ## IRGEN without a job, and with values that are no draws (logs 12 and 13) -/

theorem execIrgen_of_no_job (s : State) (draws : List Scalar) (h : s.job = none) : execIrgen draws s = .next s := by
  simp [execIrgen, irgenStep, drawsUsed, h]

section
variable {α : Type} {d : Device α} {us us' : List α} (h : us'.filter d.num.isDraw = us.filter d.num.isDraw)
include h

theorem drawAt_congr (pos : Nat) : drawAt d us' pos = drawAt d us pos := by
  funext n
  simp only [drawAt, h]

theorem drawsUsed_congr (b : Block α) : drawsUsed d b us' = drawsUsed d b us := by
  simp only [drawsUsed, h]

end

/-- An IRGEN step asks the values it is given for those that are draws, and for nothing else. -/
theorem execIrgen_filter (s : State) (draws : List Scalar) :
    execIrgen draws s = execIrgen (draws.filter s.sys.isDraw) s := by
  have hus : ((draws.filter s.sys.isDraw).map s.cfg.num.read).filter s.sys.isDraw =
      (draws.map s.cfg.num.read).filter s.sys.isDraw := by
    have hread : s.sys.isDraw ∘ s.cfg.num.read = s.sys.isDraw := funext (isDraw_read s.cfg.num)
    rw [List.filter_map, List.filter_map, hread, List.filter_filter]
    simp
  simp only [execIrgen, drawAt_congr (d := s.device) hus, drawsUsed_congr (d := s.device) hus]

/-! ## A default that is a NaN (log 27) -/

/-- No comparison with a NaN holds (00_scope.md R10), so `clamp` answers it. -/
theorem clamp_of_nan (t : FnTable Val) {v : Val} (lo hi : Val) (h : IsNaN v) : (numF32 t).clamp v lo hi = v := by
  have hv : Datum.of v = .nan := if_pos ((isNaN_iff v).mp h)
  have hlo : (numF32 t).lt v lo = false := by
    show (Datum.of v).lt (.of lo) = false
    rw [hv]
    rfl
  have hhi : (numF32 t).lt hi v = false := by
    show (Datum.of hi).lt (.of v) = false
    rw [hv]
    cases Datum.of hi <;> rfl
  simp [NumSys.clamp, hlo, hhi]

/-- Settles O29, choice by choice. -/
theorem openPointsAsLogged : Obligations.OpenPointsAsLogged := by
  refine ⟨fun i s => exec_of_not_wf s, execIrgen_of_no_job, execIrgen_filter, fun f s hn => ?_, fun t d hd => ⟨?_, ?_⟩⟩
  · refine ⟨tick f s, rfl, ?_, ?_⟩
    · rw [tick_toBlock, tickBlock_ch1, if_neg hn]
    · rw [tick_out, tickBlock_c1, if_neg hn]
  · intro row hrow hnan
    rw [Block.reset_smoothedRow hrow, hd, clamp_of_nan t _ _ hnan]
  · intro row hrow hnan
    rw [Block.reset_heldRow hrow, hd, clamp_of_nan t _ _ hnan]

end Sys2Proof.Machine
end

section
/-! PROOFS. Binary32 (30_encoding.md R94, 00_scope.md R11): the number a pattern denotes as an integer in units of its last
place, the fields of a pattern made of a sign and a magnitude, and the rounding of a real number to its last place. -/

namespace Sys2Proof

/-! ## Powers of two -/

theorem pow2_eq_zpow (k : Int) : pow2 k = (2 : Rat) ^ k := by
  unfold pow2
  split_ifs with h
  · lift k to ℕ using h
    simp
  · obtain ⟨n, rfl⟩ : ∃ n : ℕ, k = -(n : Int) := ⟨(-k).toNat, by omega⟩
    simp

@[simp] theorem pow2_cast (k : Int) : ((pow2 k : Rat) : ℝ) = 2 ^ k := by
  rw [pow2_eq_zpow]
  simp

/-! ## The fields of a pattern -/

/-- The sign of bit 31, as a factor. -/
def signFactor (neg : Bool) : Rat := if neg then -1 else 1

theorem patternRat_eq (p : Val) : patternRat p = signFactor (p.getLsbD 31) * patternMag p := by
  unfold patternRat signFactor
  split_ifs <;> ring

/-- The magnitude of a pattern is an integer of at most 24 bits in units of its last place. -/
theorem exists_patternMag_eq (p : Val) : ∃ k m : ℕ, m < 2 ^ 24 ∧ patternMag p = m * 2 ^ ((k : Int) - 149) := by
  have hf := (p.extractLsb' 0 23).isLt
  unfold patternMag
  simp only [pow2_eq_zpow]
  split_ifs with he
  · refine ⟨0, (p.extractLsb' 0 23).toNat, by omega, ?_⟩
    norm_num
    ring
  · refine ⟨(p.extractLsb' 23 8).toNat - 1, (p.extractLsb' 0 23).toNat + 2 ^ 23, by omega, ?_⟩
    have hexp : (((p.extractLsb' 23 8).toNat : ℕ) : Int) - 127 =
        (((p.extractLsb' 23 8).toNat - 1 : ℕ) : Int) - 149 + 23 := by omega
    rw [hexp, zpow_add₀ (by norm_num)]
    push_cast
    norm_num
    ring

section
variable (neg : Bool) {n : ℕ} (hn : n < 2 ^ 31)
include hn

theorem signed_toNat : (signed neg n).toNat = (if neg then 0x80000000 else 0) + n := by
  unfold signed
  rw [BitVec.toNat_ofNat, Nat.mod_eq_of_lt]
  split_ifs <;> omega

theorem signed_exponent : ((signed neg n).extractLsb' 23 8).toNat = n / 2 ^ 23 := by
  rw [BitVec.extractLsb'_toNat, signed_toNat neg hn, Nat.shiftRight_eq_div_pow]
  split_ifs <;> omega

theorem signed_fraction : ((signed neg n).extractLsb' 0 23).toNat = n % 2 ^ 23 := by
  rw [BitVec.extractLsb'_toNat, signed_toNat neg hn, Nat.shiftRight_zero]
  split_ifs <;> omega

theorem signed_sign : (signed neg n).getLsbD 31 = neg := by
  rw [BitVec.getLsbD, signed_toNat neg hn, Nat.testBit_eq_decide_div_mod_eq]
  cases neg <;> simp <;> omega

theorem signed_lastBit : (signed neg n).getLsbD 0 = decide (n % 2 = 1) := by
  rw [BitVec.getLsbD, signed_toNat neg hn, Nat.testBit_zero, decide_eq_decide]
  split_ifs <;> omega

theorem signed_finite (hfin : n < 0x7F800000) : (signed neg n).extractLsb' 23 8 ≠ 0xFF := by
  intro h
  have hexp := signed_exponent neg hn
  rw [h] at hexp
  change 255 = n / 2 ^ 23 at hexp
  omega

end

/-- The magnitude of the pattern whose exponent and fraction fields are `k` and the bits of `m`, the leading one of `m` carried
into the exponent field. -/
theorem patternMag_signed (neg : Bool) {k m : ℕ} (hm : m ≤ 2 ^ 24) (hnorm : k = 0 ∨ 2 ^ 23 ≤ m)
    (hfin : k * 2 ^ 23 + m < 0x7F800000) : patternMag (signed neg (k * 2 ^ 23 + m)) = m * 2 ^ ((k : Int) - 149) := by
  have hn : k * 2 ^ 23 + m < 2 ^ 31 := by omega
  unfold patternMag
  simp only [pow2_eq_zpow, signed_exponent neg hn, signed_fraction neg hn]
  rcases (by omega : m < 2 ^ 23 ∨ (2 ^ 23 ≤ m ∧ m < 2 ^ 24) ∨ m = 2 ^ 24) with h | ⟨h, h'⟩ | h
  · obtain rfl : k = 0 := by omega
    rw [if_pos (by omega), Nat.mod_eq_of_lt (by omega)]
    norm_num
    ring
  · rw [if_neg (by omega), show (k * 2 ^ 23 + m) / 2 ^ 23 = k + 1 by omega,
      show (k * 2 ^ 23 + m) % 2 ^ 23 = m - 2 ^ 23 by omega, show ((k + 1 : ℕ) : Int) - 127 = (k : Int) - 149 + 23 by omega,
      zpow_add₀ (by norm_num), Nat.cast_sub h]
    norm_num
    ring
  · rw [if_neg (by omega), show (k * 2 ^ 23 + m) / 2 ^ 23 = k + 2 by omega,
      show (k * 2 ^ 23 + m) % 2 ^ 23 = 0 by omega, show ((k + 2 : ℕ) : Int) - 127 = (k : Int) - 149 + 24 by omega,
      zpow_add₀ (by norm_num), h]
    norm_num
    ring

/-! ## Rounding to an integer -/

/-- The rounded integer is less than a half away, or a half and even. -/
theorem roundEvenReal_dist (t : ℝ) :
    |(roundEvenReal t : ℝ) - t| < 1 / 2 ∨ |(roundEvenReal t : ℝ) - t| = 1 / 2 ∧ roundEvenReal t % 2 = 0 := by
  have hlo := Int.floor_le t
  have hhi := Int.lt_floor_add_one t
  unfold roundEvenReal
  split_ifs with h1 h2 h3
  · exact .inl (abs_lt.mpr ⟨by linarith, by linarith⟩)
  · exact .inl (abs_lt.mpr ⟨by push_cast; linarith, by push_cast; linarith⟩)
  · exact .inr ⟨by rw [abs_sub_comm, abs_of_nonneg] <;> linarith, h3⟩
  · exact .inr ⟨by push_cast; rw [abs_of_nonneg] <;> linarith, by omega⟩

/-- No integer is nearer than the rounded one, and of two equally near the rounded one is even. -/
theorem roundEvenReal_nearest (t : ℝ) (j : Int) :
    |(roundEvenReal t : ℝ) - t| < |(j : ℝ) - t| ∨
    |(roundEvenReal t : ℝ) - t| = |(j : ℝ) - t| ∧ (j = roundEvenReal t ∨ roundEvenReal t % 2 = 0) := by
  rcases eq_or_ne j (roundEvenReal t) with rfl | hj
  · exact .inr ⟨rfl, .inl rfl⟩
  · have apart : (1 : ℝ) ≤ |(j : ℝ) - roundEvenReal t| := by exact_mod_cast Int.one_le_abs (sub_ne_zero.mpr hj)
    have between := abs_sub_le (j : ℝ) t (roundEvenReal t)
    rw [abs_sub_comm t] at between
    rcases roundEvenReal_dist t with h | ⟨h, heven⟩
    · exact .inl (by linarith)
    · rcases (by linarith : 1 / 2 ≤ |(j : ℝ) - t|).lt_or_eq with hlt | heq
      · exact .inl (by linarith)
      · exact .inr ⟨by linarith, .inr heven⟩

theorem roundEvenReal_dist_le (t : ℝ) (j : Int) : |(roundEvenReal t : ℝ) - t| ≤ |(j : ℝ) - t| :=
  (roundEvenReal_nearest t j).elim le_of_lt fun h => h.1.le

/-- Rounding passes no integer. -/
theorem roundEvenReal_le {t : ℝ} {j : Int} (h : t ≤ j) : roundEvenReal t ≤ j := by
  by_contra hlt
  have hj : (j : ℝ) < roundEvenReal t := by exact_mod_cast not_le.mp hlt
  have := roundEvenReal_dist_le t j
  rw [abs_of_nonneg (by linarith), abs_of_nonneg (by linarith)] at this
  linarith

theorem le_roundEvenReal {t : ℝ} {j : Int} (h : j ≤ t) : j ≤ roundEvenReal t := by
  by_contra hlt
  have hj : (roundEvenReal t : ℝ) < j := by exact_mod_cast not_le.mp hlt
  have := roundEvenReal_dist_le t j
  rw [abs_of_nonpos (by linarith), abs_of_nonpos (by linarith)] at this
  linarith

/-! ## The last place -/

theorem zpow_log_bounds {x : ℝ} (hx : 0 < x) : (2 : ℝ) ^ Int.log 2 x ≤ x ∧ x < (2 : ℝ) ^ (Int.log 2 x + 1) :=
  ⟨by exact_mod_cast Int.zpow_log_le_self (b := 2) one_lt_two hx,
   by exact_mod_cast Int.lt_zpow_succ_log_self (b := 2) one_lt_two x⟩

/-- The last place of a positive number: the number has at most 24 bits above it, and 24 unless the place is the least there
is. -/
theorem lastPlace_spec {x : ℝ} (hx : 0 < x) : ∃ k : ℕ, lastPlace (Int.log 2 x) = (k : Int) - 149 ∧
    x < 2 ^ 24 * 2 ^ ((k : Int) - 149) ∧ (k = 0 ∨ 2 ^ 23 * 2 ^ ((k : Int) - 149) ≤ x) := by
  obtain ⟨hlo, hhi⟩ := zpow_log_bounds hx
  have units (a : ℕ) (b : Int) : (2 : ℝ) ^ a * 2 ^ b = 2 ^ ((a : Int) + b) := by
    rw [zpow_add₀ two_ne_zero, zpow_natCast]
  simp only [units, lastPlace]
  rcases le_or_gt (-126) (Int.log 2 x) with h | h
  · refine ⟨(Int.log 2 x + 126).toNat, by omega, ?_, .inr ?_⟩
    · rwa [show ((24 : ℕ) : Int) + (((Int.log 2 x + 126).toNat : Int) - 149) = Int.log 2 x + 1 by omega]
    · rwa [show ((23 : ℕ) : Int) + (((Int.log 2 x + 126).toNat : Int) - 149) = Int.log 2 x by omega]
  · refine ⟨0, by omega, hhi.trans_le (zpow_le_zpow_right₀ one_le_two (by push_cast; omega)), .inl rfl⟩

/-- The greatest finite number, in units of its last place. -/
theorem greatest_eq : ((2 : ℝ) - 2 ^ (-23 : Int)) * 2 ^ 127 = (2 ^ 24 - 1) * 2 ^ ((253 : ℕ) - 149 : Int) := by norm_num

/-- The nearest pattern of a positive number that does not overflow: the number rounded to its last place. -/
theorem nearestMagReal_spec {x : ℝ} (hx : 0 < x) (hmax : x ≤ (2 - 2 ^ (-23 : Int)) * 2 ^ 127) :
    ∃ k m : ℕ, nearestMagReal x = k * 2 ^ 23 + m ∧ (m : Int) = roundEvenReal (x / 2 ^ ((k : Int) - 149)) ∧ m ≤ 2 ^ 24 ∧
      (k = 0 ∨ 2 ^ 23 ≤ m) ∧ (k = 0 ∨ 2 ^ 23 * 2 ^ ((k : Int) - 149) ≤ x) ∧ k * 2 ^ 23 + m < 0x7F800000 := by
  obtain ⟨k, hq, hlt, hge⟩ := lastPlace_spec hx
  have hu : (0 : ℝ) < 2 ^ ((k : Int) - 149) := by positivity
  have hmag : nearestMagReal x = magBits ((k : Int) - 149) (roundEvenReal (x / 2 ^ ((k : Int) - 149))) := by
    rw [nearestMagReal, if_neg hx.ne', hq, pow2_cast]
  have hm0 : 0 ≤ roundEvenReal (x / 2 ^ ((k : Int) - 149)) := le_roundEvenReal (by push_cast; positivity)
  obtain ⟨m, hm⟩ := Int.eq_ofNat_of_zero_le hm0
  have hm24 : (m : Int) ≤ 2 ^ 24 := hm ▸ roundEvenReal_le (by rw [div_le_iff₀ hu]; exact_mod_cast hlt.le)
  have hnorm : k = 0 ∨ 2 ^ 23 ≤ m := hge.imp_right fun h => by
    have : (2 ^ 23 : Int) ≤ m := hm ▸ le_roundEvenReal (by rw [le_div_iff₀ hu]; exact_mod_cast h)
    omega
  have hk : k ≤ 253 := by
    by_contra hk
    have h := hge.resolve_left (by omega)
    have : (2 : ℝ) ^ ((254 : ℕ) - 149 : Int) ≤ 2 ^ ((k : Int) - 149) := zpow_le_zpow_right₀ one_le_two (by omega)
    rw [greatest_eq] at hmax
    norm_num at this hmax
    linarith
  have hfin : k * 2 ^ 23 + m < 0x7F800000 := by
    rcases hk.lt_or_eq with h | rfl
    · omega
    · have : (m : Int) ≤ 2 ^ 24 - 1 := hm ▸ roundEvenReal_le (by
        rw [div_le_iff₀ hu]
        exact_mod_cast hmax.trans_eq greatest_eq)
      omega
  refine ⟨k, m, ?_, hm.symm, by omega, hnorm, hge, hfin⟩
  rw [hmag, hm, magBits]
  omega

end Sys2Proof
end

section
/-! PROOFS. The nearest finite pattern to a real number and to a rational, and the arithmetic of `NUM_F32` (00_scope.md R11). -/

namespace Sys2Proof

/-! ## The nearest pattern -/

/-- A pattern whose exponent field is not all ones. -/
def IsFinite32 (p : Val) : Prop := p.extractLsb' 23 8 ≠ 0xFF

/-- `p` is the pattern that rounding to nearest, ties to even, gives for a number that does not overflow. -/
def NearestEven (p : Val) (x : ℝ) : Prop :=
  |x| ≤ (2 - 2 ^ (-23 : Int)) * 2 ^ 127 → IsFinite32 p ∧ ∀ q, IsFinite32 q →
    |(patternRat p : ℝ) - x| < |(patternRat q : ℝ) - x| ∨
      |(patternRat p : ℝ) - x| = |(patternRat q : ℝ) - x| ∧ ((patternRat q : ℝ) = patternRat p ∨ p.getLsbD 0 = false)

@[simp] theorem signFactor_sq (neg : Bool) : signFactor neg * signFactor neg = 1 := by cases neg <;> norm_num [signFactor]

@[simp] theorem abs_signFactor (neg : Bool) : |(signFactor neg : ℝ)| = 1 := by cases neg <;> norm_num [signFactor]

/-- The number of a pattern, with either sign, is an integer of at most 24 bits in units of a last place. -/
theorem exists_patternRat_eq (neg : Bool) (p : Val) :
    ∃ (l : ℕ) (j : Int), |j| < 2 ^ 24 ∧ ((signFactor neg * patternRat p : Rat) : ℝ) = j * 2 ^ ((l : Int) - 149) := by
  obtain ⟨l, m, hm, hmag⟩ := exists_patternMag_eq p
  have hp : signFactor neg * patternRat p = signFactor (neg ^^ p.getLsbD 31) * (m * 2 ^ ((l : Int) - 149)) := by
    rw [patternRat_eq, hmag]
    cases neg <;> cases p.getLsbD 31 <;> simp [signFactor]
  rw [hp]
  cases neg ^^ p.getLsbD 31
  · exact ⟨l, m, by rw [abs_of_nonneg (by positivity)]; exact_mod_cast hm, by simp [signFactor]⟩
  · exact ⟨l, -m, by rw [abs_neg, abs_of_nonneg (by positivity)]; exact_mod_cast hm, by simp [signFactor]⟩

/-- A number rounded to its last place is nearer than any other of 24 bits: one with a last place no less is an integer in its
units, and one with a smaller last place lies below the power of two under it. -/
theorem nearest_of_units {x v : ℝ} {k m l : ℕ} {j : Int} (hround : (m : Int) = roundEvenReal (x / 2 ^ ((k : Int) - 149)))
    (hge : k = 0 ∨ 2 ^ 23 * 2 ^ ((k : Int) - 149) ≤ x) (hj : |j| < 2 ^ 24) (hv : v = j * 2 ^ ((l : Int) - 149)) :
    |m * 2 ^ ((k : Int) - 149) - x| < |v - x| ∨
    |m * 2 ^ ((k : Int) - 149) - x| = |v - x| ∧ (v = m * 2 ^ ((k : Int) - 149) ∨ m % 2 = 0) := by
  have hu : (0 : ℝ) < 2 ^ ((k : Int) - 149) := by positivity
  have scale (i : Int) : |i * 2 ^ ((k : Int) - 149) - x| = |i - x / 2 ^ ((k : Int) - 149)| * 2 ^ ((k : Int) - 149) := by
    rw [← abs_of_pos hu, ← abs_mul, abs_of_pos hu, sub_mul, div_mul_cancel₀ _ hu.ne']
  have hm : ((m : Int) : ℝ) = m := rfl
  rcases le_or_gt k l with hkl | hlk
  · obtain ⟨i, rfl⟩ := Nat.exists_eq_add_of_le hkl
    have hvi : v = ((j * 2 ^ i : Int) : ℝ) * 2 ^ ((k : Int) - 149) := by
      rw [hv, show ((k + i : ℕ) : Int) - 149 = i + ((k : Int) - 149) by push_cast; ring, zpow_add₀ two_ne_zero, zpow_natCast]
      push_cast
      ring
    rw [hvi, ← hm, scale, scale, hround]
    rcases roundEvenReal_nearest (x / 2 ^ ((k : Int) - 149)) (j * 2 ^ i) with h | ⟨h, hji⟩
    · exact .inl (mul_lt_mul_of_pos_right h hu)
    · exact .inr ⟨by rw [h], hji.imp (fun e => by rw [e]) fun e => by omega⟩
  · have hx := hge.resolve_left (by omega)
    have hbelow : v < 2 ^ 23 * 2 ^ ((k : Int) - 149) := calc
      v < 2 ^ 24 * 2 ^ ((l : Int) - 149) := by
        rw [hv]
        exact mul_lt_mul_of_pos_right (by exact_mod_cast (abs_lt.mp hj).2) (by positivity)
      _ = 2 ^ 23 * 2 ^ ((l : Int) - 149 + 1) := by rw [zpow_add₀ two_ne_zero]; ring
      _ ≤ 2 ^ 23 * 2 ^ ((k : Int) - 149) := by
        gcongr
        · exact one_le_two
        · omega
    refine .inl ?_
    calc |m * 2 ^ ((k : Int) - 149) - x|
        ≤ |((2 ^ 23 : Int) : ℝ) * 2 ^ ((k : Int) - 149) - x| := by
          rw [← hm, scale, scale, hround]
          exact mul_le_mul_of_nonneg_right (roundEvenReal_dist_le _ _) hu.le
      _ = x - 2 ^ 23 * 2 ^ ((k : Int) - 149) := by
          rw [abs_sub_comm, Int.cast_pow, Int.cast_ofNat]
          exact abs_of_nonneg (by linarith)
      _ < x - v := by linarith
      _ ≤ |v - x| := by rw [abs_sub_comm]; exact le_abs_self _

/-- The pattern of either sign for a positive magnitude. -/
theorem nearestEven_signed (neg : Bool) {x : ℝ} (hx : 0 < x) :
    NearestEven (signed neg (nearestMagReal x)) (signFactor neg * x) := by
  intro hmax
  rw [abs_mul, abs_signFactor, one_mul, abs_of_pos hx] at hmax
  obtain ⟨k, m, hmag, hround, hm24, hnorm, hge, hfin⟩ := nearestMagReal_spec hx hmax
  have hn : k * 2 ^ 23 + m < 2 ^ 31 := by omega
  rw [hmag]
  refine ⟨signed_finite neg hn hfin, fun q _ => ?_⟩
  have hp : (patternRat (signed neg (k * 2 ^ 23 + m)) : ℝ) = signFactor neg * (m * 2 ^ ((k : Int) - 149)) := by
    rw [patternRat_eq, signed_sign neg hn, patternMag_signed neg hm24 hnorm hfin]
    push_cast
    ring
  obtain ⟨l, j, hj, hv⟩ := exists_patternRat_eq neg q
  have hq : (patternRat q : ℝ) = signFactor neg * ((signFactor neg * patternRat q : Rat) : ℝ) := by
    rw [← Rat.cast_mul, ← mul_assoc, signFactor_sq, one_mul]
  have dist (y : ℝ) : |signFactor neg * y - signFactor neg * x| = |y - x| := by
    rw [← mul_sub, abs_mul, abs_signFactor, one_mul]
  rw [hp, hq, dist, dist]
  refine (nearest_of_units hround hge hj hv).imp id fun h => ⟨h.1, h.2.imp (fun e => by rw [e]) fun e => ?_⟩
  rw [signed_lastBit neg hn, decide_eq_false_iff_not]
  omega

/-- Either zero for the number 0. -/
theorem nearestEven_zero (neg : Bool) : NearestEven (signed neg 0) 0 := by
  have hzero : patternRat (signed neg 0) = 0 := by cases neg <;> decide +kernel
  refine fun _ => ⟨signed_finite neg (by norm_num) (by norm_num), fun q _ => ?_⟩
  rw [hzero, Rat.cast_zero, sub_zero, sub_zero, abs_zero]
  rcases eq_or_ne (patternRat q : ℝ) 0 with h | h
  · exact .inr ⟨by rw [h, abs_zero], .inl h⟩
  · exact .inl (abs_pos.mpr h)

/-- What `enc32` gives over the reals. -/
theorem nearestEven_enc32 (x : ℝ) : NearestEven (numReal.enc32 x) x := by
  rcases lt_trichotomy x 0 with h | rfl | h
  · have henc : numReal.enc32 x = signed true (nearestMagReal (-x)) := if_pos h
    rw [henc]
    simpa [signFactor] using nearestEven_signed true (neg_pos.mpr h)
  · have henc : numReal.enc32 0 = signed false 0 := by simp [numReal, nearestMagReal]
    rw [henc]
    exact nearestEven_zero false
  · have henc : numReal.enc32 x = signed false (nearestMagReal x) := if_neg h.not_gt
    rw [henc]
    simpa [signFactor] using nearestEven_signed false h

end Sys2Proof
end

section
/-! PROOFS. The rounding of the machine on plain data is that of the reals: the floor of the logarithm, the rounded integer
and the root by bits come to the same (00_scope.md R11, log 3, 4). -/

namespace Sys2Proof

/-- The logarithm lies where the powers of two around the number say. -/
theorem log_eq_of_zpow {x : ℝ} {e : Int} (hlo : (2 : ℝ) ^ e ≤ x) (hhi : x < (2 : ℝ) ^ (e + 1)) : Int.log 2 x = e := by
  have hx : 0 < x := lt_of_lt_of_le (by positivity) hlo
  have h1 : e ≤ Int.log 2 x := (Int.zpow_le_iff_le_log one_lt_two hx).mp (by exact_mod_cast hlo)
  have h2 : Int.log 2 x < e + 1 := (Int.lt_zpow_iff_log_lt one_lt_two hx).mp (by exact_mod_cast hhi)
  omega

/-- A positive rational lies between the powers of two that the bits of its numerator and denominator give. -/
theorem log2_bounds {a : Rat} (ha : 0 < a) :
    (2 : ℝ) ^ ((a.num.natAbs.log2 : Int) - a.den.log2 - 1) < a ∧
      (a : ℝ) < 2 ^ ((a.num.natAbs.log2 : Int) - a.den.log2 + 1) := by
  have hnum : 0 < a.num.natAbs := by have := Rat.num_pos.mpr ha; omega
  have hden : (0 : ℝ) < a.den := by exact_mod_cast a.den_pos
  have hfrac : (a : ℝ) = a.num.natAbs / a.den := by
    rw [Rat.cast_def, Nat.cast_natAbs, abs_of_pos (Rat.num_pos.mpr ha)]
  have n1 : (2 : ℝ) ^ a.num.natAbs.log2 ≤ a.num.natAbs := by exact_mod_cast Nat.log2_self_le hnum.ne'
  have n2 : (a.num.natAbs : ℝ) < 2 ^ (a.num.natAbs.log2 + 1) := by exact_mod_cast Nat.lt_log2_self
  have d1 : (2 : ℝ) ^ a.den.log2 ≤ a.den := by exact_mod_cast Nat.log2_self_le a.den_nz
  have d2 : (a.den : ℝ) < 2 ^ (a.den.log2 + 1) := by exact_mod_cast Nat.lt_log2_self
  rw [hfrac, lt_div_iff₀ hden, div_lt_iff₀ hden]
  constructor
  · calc (2 : ℝ) ^ ((a.num.natAbs.log2 : Int) - a.den.log2 - 1) * a.den
        < 2 ^ ((a.num.natAbs.log2 : Int) - a.den.log2 - 1) * 2 ^ (a.den.log2 + 1) := by gcongr
      _ = 2 ^ a.num.natAbs.log2 := by
        rw [← zpow_natCast, ← zpow_natCast, ← zpow_add₀ two_ne_zero]
        congr 1
        push_cast
        ring
      _ ≤ a.num.natAbs := n1
  · calc (a.num.natAbs : ℝ) < 2 ^ (a.num.natAbs.log2 + 1) := n2
      _ = 2 ^ ((a.num.natAbs.log2 : Int) - a.den.log2 + 1) * 2 ^ a.den.log2 := by
        rw [← zpow_natCast, ← zpow_natCast, ← zpow_add₀ two_ne_zero]
        congr 1
        push_cast
        ring
      _ ≤ 2 ^ ((a.num.natAbs.log2 : Int) - a.den.log2 + 1) * a.den := by gcongr

theorem log2Floor_eq {a : Rat} (ha : 0 < a) : log2Floor a = Int.log 2 (a : ℝ) := by
  obtain ⟨hlo, hhi⟩ := log2_bounds ha
  have hcmp (k : Int) : a < pow2 k ↔ (a : ℝ) < 2 ^ k := by rw [← pow2_cast, Rat.cast_lt]
  simp only [log2Floor, hcmp]
  symm
  split_ifs with h
  · exact log_eq_of_zpow hlo.le (by simpa using h)
  · exact log_eq_of_zpow (not_lt.mp h) hhi

/-- The two floors of the libraries are one. -/
theorem floor_cast_real (r : Rat) : ⌊(r : ℝ)⌋ = r.floor := Rat.floor_cast r

theorem roundEven_eq (r : Rat) : roundEven r = roundEvenReal (r : ℝ) := by
  have below : (r : ℝ) - r.floor < 1 / 2 ↔ r - r.floor < 1 / 2 := by
    rw [← Rat.cast_lt (K := ℝ)]
    push_cast
    rfl
  have above : 1 / 2 < (r : ℝ) - r.floor ↔ 1 / 2 < r - r.floor := by
    rw [← Rat.cast_lt (K := ℝ)]
    push_cast
    rfl
  unfold roundEvenReal roundEven
  simp only [floor_cast_real, below, above]

theorem nearestMag_eq {a : Rat} (ha : 0 ≤ a) : nearestMag a = nearestMagReal (a : ℝ) := by
  rcases ha.eq_or_lt with rfl | hpos
  · simp [nearestMag, nearestMagReal]
  · have hreal : (a : ℝ) ≠ 0 := by exact_mod_cast hpos.ne'
    rw [nearestMag, nearestMagReal, if_neg hpos.ne', if_neg hreal, ← log2Floor_eq hpos, ← Rat.cast_div, ← roundEven_eq]

/-- The nearest pattern to a rational is that of the real number it is. -/
theorem nearestPattern_eq (q : Rat) : nearestPattern q = numReal.enc32 (q : ℝ) := by
  unfold nearestPattern
  split_ifs with h
  · have henc : numReal.enc32 (q : ℝ) = signed true (nearestMagReal (-q)) := if_pos (by exact_mod_cast h)
    rw [henc, nearestMag_eq (by linarith), Rat.cast_neg]
  · have henc : numReal.enc32 (q : ℝ) = signed false (nearestMagReal q) := if_neg (by exact_mod_cast h)
    rw [henc, nearestMag_eq (not_lt.mp h)]

/-! ## Roots -/

/-- The root found bit by bit, the bits above `b` being those of `r`. -/
theorem irootFrom_spec (k : ℕ) {b r n : ℕ} (hlo : r ^ k ≤ n) (hhi : n < (r + 2 ^ (b + 1)) ^ k) :
    irootFrom k b r n ^ k ≤ n ∧ n < (irootFrom k b r n + 1) ^ k := by
  induction b generalizing r with
  | zero =>
    unfold irootFrom
    split_ifs with h
    · exact ⟨h, hhi⟩
    · exact ⟨hlo, not_le.mp h⟩
  | succ b ih =>
    unfold irootFrom
    split_ifs with h
    · exact ih h (by rwa [add_assoc, ← two_mul, ← pow_succ'])
    · exact ih hlo (not_le.mp h)

theorem iroot_spec {k : ℕ} (hk : k ≠ 0) (n : ℕ) : iroot k n ^ k ≤ n ∧ n < (iroot k n + 1) ^ k := by
  refine irootFrom_spec k (by simp [hk]) ?_
  rw [zero_add, ← pow_mul]
  refine Nat.lt_log2_self.trans_le (Nat.pow_le_pow_right two_pos ?_)
  have := Nat.lt_mul_div_succ n.log2 (Nat.pos_of_ne_zero hk)
  rw [mul_comm]
  omega

/-- The integer part of a root. -/
theorem floor_sqrt_eq {x : Rat} (hx : 0 ≤ x) : ⌊√(x : ℝ)⌋ = (iroot 2 x.floor.toNat : Int) := by
  obtain ⟨hlo, hhi⟩ := iroot_spec two_ne_zero x.floor.toNat
  have hfloor : (x.floor.toNat : Int) = x.floor := Int.toNat_of_nonneg (Rat.le_floor_iff.mpr (by exact_mod_cast hx))
  have h0 : (0 : ℝ) ≤ x := by exact_mod_cast hx
  have h1 : ((iroot 2 x.floor.toNat : ℕ) : ℝ) ^ 2 ≤ x := by
    have : ((iroot 2 x.floor.toNat ^ 2 : ℕ) : Int) ≤ ⌊(x : ℝ)⌋ := by
      rw [floor_cast_real, ← hfloor]
      exact_mod_cast hlo
    exact_mod_cast Int.le_floor.mp this
  have h2 : (x : ℝ) < ((iroot 2 x.floor.toNat : ℕ) + 1 : ℝ) ^ 2 := by
    have : ⌊(x : ℝ)⌋ < (((iroot 2 x.floor.toNat + 1) ^ 2 : ℕ) : Int) := by
      rw [floor_cast_real, ← hfloor]
      exact_mod_cast hhi
    exact_mod_cast Int.floor_lt.mp this
  rw [Int.floor_eq_iff]
  push_cast
  exact ⟨Real.le_sqrt_of_sq_le h1, (Real.sqrt_lt' (by positivity)).mpr h2⟩

theorem log_sqrt {x : ℝ} (hx : 0 < x) : Int.log 2 (√x) = Int.log 2 x / 2 := by
  obtain ⟨hlo, hhi⟩ := zpow_log_bounds hx
  have sq (e : Int) : ((2 : ℝ) ^ e) ^ 2 = 2 ^ (2 * e) := by rw [← zpow_natCast, ← zpow_mul, mul_comm]; rfl
  refine log_eq_of_zpow (Real.le_sqrt_of_sq_le ?_) ((Real.sqrt_lt' (by positivity)).mpr ?_) <;> rw [sq]
  · exact (zpow_le_zpow_right₀ one_le_two (by omega)).trans hlo
  · exact hhi.trans_le (zpow_le_zpow_right₀ one_le_two (by omega))

/-- A root is rounded by comparing squares. -/
theorem roundEvenReal_sqrt {x : Rat} (hx : 0 ≤ x) :
    let f : Int := (iroot 2 x.floor.toNat : Int)
    let half : Rat := (f : Rat) + 1 / 2
    (if x < half * half then f else if half * half < x then f + 1 else if f % 2 = 0 then f else f + 1) =
      roundEvenReal √(x : ℝ) := by
  intro f half
  have hf : ⌊√(x : ℝ)⌋ = f := floor_sqrt_eq hx
  have hhalf : (half : ℝ) = f + 1 / 2 := by push_cast [half]; rfl
  have hpos : (0 : ℝ) < f + 1 / 2 := by
    have : (0 : ℝ) ≤ f := Int.cast_nonneg (Int.natCast_nonneg _)
    linarith
  have below : √(x : ℝ) - f < 1 / 2 ↔ x < half * half := by
    rw [sub_lt_iff_lt_add', Real.sqrt_lt' hpos, ← hhalf, sq]
    exact_mod_cast Iff.rfl
  have above : 1 / 2 < √(x : ℝ) - f ↔ half * half < x := by
    rw [lt_sub_iff_add_lt', Real.lt_sqrt hpos.le, ← hhalf, sq]
    exact_mod_cast Iff.rfl
  unfold roundEvenReal
  simp only [hf, below, above]

/-- The nearest pattern to the root of a rational is that of the real root. -/
theorem nearestSqrtMag_eq {a : Rat} (ha : 0 < a) : nearestSqrtMag a = nearestMagReal √(a : ℝ) := by
  have hreal : (0 : ℝ) < a := by exact_mod_cast ha
  have hroot : √(a : ℝ) ≠ 0 := (Real.sqrt_pos.mpr hreal).ne'
  have hunit (k : Int) : √(a : ℝ) / (pow2 k : Rat) = √((a / (pow2 k * pow2 k) : Rat) : ℝ) := by
    have hk : (0 : ℝ) ≤ (pow2 k : Rat) := by rw [pow2_cast]; positivity
    rw [Rat.cast_div, Rat.cast_mul, Real.sqrt_div hreal.le, Real.sqrt_mul_self hk]
  have hnonneg (k : Int) : 0 ≤ a / (pow2 k * pow2 k) := by
    rw [pow2_eq_zpow]
    positivity
  rw [nearestMagReal, if_neg hroot, log_sqrt hreal, ← log2Floor_eq ha, hunit, ← roundEvenReal_sqrt (hnonneg _)]
  rfl

end Sys2Proof
end

section
/-! PROOFS. The arithmetic of `NUM_F32` on finite patterns (00_scope.md R11): each operation rounds the exact result, and the
comparisons and `floor` are those of the numbers (R10). -/

namespace Sys2Proof

/-! ## Finite patterns -/

theorem nearestEven_nearestPattern (q : Rat) : NearestEven (nearestPattern q) q := nearestPattern_eq q ▸ nearestEven_enc32 q

theorem NearestEven.nearest {p : Val} {x : ℝ} (h : NearestEven p x) (hx : |x| ≤ (2 - 2 ^ (-23 : Int)) * 2 ^ 127) :
    IsFinite32 p ∧ ∀ q, IsFinite32 q → |(patternRat p : ℝ) - x| ≤ |(patternRat q : ℝ) - x| :=
  (h hx).imp id fun hall q hq => (hall q hq).elim le_of_lt fun e => e.1.le

/-- The two zeros are the patterns of magnitude 0. -/
theorem eq_zero_of_patternMag {p : Val} (h : patternMag p = 0) : p = 0x00000000 ∨ p = 0x80000000 := by
  have fields : (p.extractLsb' 23 8).toNat = 0 ∧ (p.extractLsb' 0 23).toNat = 0 := by
    unfold patternMag at h
    simp only [pow2_eq_zpow] at h
    split_ifs at h with he
    · have hpow : (2 : Rat) ^ (-126 : Int) ≠ 0 := by positivity
      have hf := (div_eq_zero_iff.mp ((mul_eq_zero.mp h).resolve_left hpow)).resolve_right (by norm_num)
      exact ⟨he, by exact_mod_cast hf⟩
    · exact absurd h (by positivity)
  obtain ⟨he, hf⟩ := fields
  rw [BitVec.extractLsb'_toNat, Nat.shiftRight_eq_div_pow] at he hf
  rcases (by omega : p.toNat = 0 ∨ p.toNat = 0x80000000) with h | h
  · exact .inl (BitVec.eq_of_toNat_eq h)
  · exact .inr (BitVec.eq_of_toNat_eq h)

/-- A finite pattern is one of the two zeros, or stands for the number it denotes, which is not 0. -/
theorem datum_of_finite {p : Val} (h : IsFinite32 p) :
    (∃ s, Datum.of p = .zero s ∧ patternRat p = 0) ∨ (Datum.of p = .num (patternRat p) ∧ patternRat p ≠ 0) := by
  have hnan : isNaNPattern p = false := by
    rw [← Bool.not_eq_true, ← Machine.isNaN_iff]
    exact fun hp => h hp.1
  have hpos : p ≠ posInfPattern := by rintro rfl; exact h rfl
  have hneg : p ≠ negInfPattern := by rintro rfl; exact h rfl
  unfold Datum.of
  rw [if_neg (by simp [hnan]), if_neg hpos, if_neg hneg]
  split_ifs with h0 h1
  · subst h0
    exact .inl ⟨false, rfl, by decide +kernel⟩
  · subst h1
    exact .inl ⟨true, rfl, by decide +kernel⟩
  · refine .inr ⟨rfl, fun hzero => ?_⟩
    have hmag : patternMag p = 0 := by
      rw [patternRat_eq] at hzero
      exact (mul_eq_zero.mp hzero).resolve_left (by cases p.getLsbD 31 <;> norm_num [signFactor])
    exact (eq_zero_of_patternMag hmag).elim h0 h1

/-- The rational of a finite pattern's datum is the number of the pattern. -/
theorem datum_rat {p : Val} (h : IsFinite32 p) : (Datum.of p).rat = patternRat p := by
  rcases datum_of_finite h with ⟨s, hd, h0⟩ | ⟨hd, -⟩
  · rw [hd, h0]
    rfl
  · rw [hd]
    rfl

theorem neg_exponent (p : Val) : (F32.neg p).extractLsb' 23 8 = p.extractLsb' 23 8 := by
  rw [F32.neg, BitVec.extractLsb'_xor, show (0x80000000 : Val).extractLsb' 23 8 = 0#8 by decide, BitVec.xor_zero]

theorem neg_fraction (p : Val) : (F32.neg p).extractLsb' 0 23 = p.extractLsb' 0 23 := by
  rw [F32.neg, BitVec.extractLsb'_xor, show (0x80000000 : Val).extractLsb' 0 23 = 0#23 by decide, BitVec.xor_zero]

theorem patternRat_neg (p : Val) : patternRat (F32.neg p) = -patternRat p := by
  have hmag : patternMag (F32.neg p) = patternMag p := by rw [patternMag, patternMag, neg_exponent, neg_fraction]
  have hsign : (F32.neg p).getLsbD 31 = !p.getLsbD 31 := by simp [F32.neg]
  rw [patternRat_eq, patternRat_eq, hmag, hsign]
  cases p.getLsbD 31 <;> simp [signFactor]

/-! ## Operations -/

section
variable {a b : Val} (ha : IsFinite32 a) (hb : IsFinite32 b)
include ha hb

theorem nearestEven_sum (n : Val) : NearestEven (F32.sum n (.of a) (.of b)) (patternRat a + patternRat b) := by
  rw [← Rat.cast_add]
  rcases datum_of_finite ha with ⟨s, hda, h0a⟩ | ⟨hda, -⟩ <;> rcases datum_of_finite hb with ⟨t, hdb, h0b⟩ | ⟨hdb, -⟩ <;>
    rw [hda, hdb]
  · rw [h0a, h0b, add_zero, Rat.cast_zero]
    exact nearestEven_zero _
  · rw [h0a]
    exact nearestEven_nearestPattern _
  · rw [h0b]
    exact nearestEven_nearestPattern _
  · exact nearestEven_nearestPattern _

theorem nearestEven_add : NearestEven (F32.add a b) (patternRat a + patternRat b) := nearestEven_sum ha hb _

theorem nearestEven_sub : NearestEven (F32.sub a b) (patternRat a - patternRat b) := by
  have hneg : IsFinite32 (F32.neg b) := by rwa [IsFinite32, neg_exponent]
  have := nearestEven_sum ha hneg (F32.nan .sub a b)
  rwa [patternRat_neg, Rat.cast_neg, ← sub_eq_add_neg] at this

theorem nearestEven_mul : NearestEven (F32.mul a b) (patternRat a * patternRat b) := by
  rw [← Rat.cast_mul, F32.mul]
  rcases datum_of_finite ha with ⟨s, hda, h0a⟩ | ⟨hda, -⟩ <;> rcases datum_of_finite hb with ⟨t, hdb, h0b⟩ | ⟨hdb, -⟩ <;>
    rw [hda, hdb]
  · rw [h0a, zero_mul, Rat.cast_zero]
    exact nearestEven_zero _
  · rw [h0a, zero_mul, Rat.cast_zero]
    exact nearestEven_zero _
  · rw [h0b, mul_zero, Rat.cast_zero]
    exact nearestEven_zero _
  · exact nearestEven_nearestPattern _

theorem nearestEven_div (h : patternRat b ≠ 0) : NearestEven (F32.div a b) (patternRat a / patternRat b) := by
  rw [← Rat.cast_div, F32.div]
  obtain ⟨hdb, -⟩ := (datum_of_finite hb).resolve_left fun ⟨_, _, h0b⟩ => h h0b
  rcases datum_of_finite ha with ⟨s, hda, h0a⟩ | ⟨hda, -⟩ <;> rw [hda, hdb]
  · rw [h0a, zero_div, Rat.cast_zero]
    exact nearestEven_zero _
  · exact nearestEven_nearestPattern _

theorem f32_lt_iff : (Datum.of a).lt (.of b) = true ↔ patternRat a < patternRat b := by
  rw [← datum_rat ha, ← datum_rat hb]
  rcases datum_of_finite ha with ⟨s, hda, -⟩ | ⟨hda, -⟩ <;> rcases datum_of_finite hb with ⟨t, hdb, -⟩ | ⟨hdb, -⟩ <;>
    rw [hda, hdb] <;> simp [Datum.lt]

end

theorem f32_le_iff {a b : Val} (ha : IsFinite32 a) (hb : IsFinite32 b) :
    (Datum.of a).le (.of b) = true ↔ patternRat a ≤ patternRat b := by
  have notNaN {p : Val} (h : IsFinite32 p) : (Datum.of p).isNaN = false := by
    rcases datum_of_finite h with ⟨s, hd, -⟩ | ⟨hd, -⟩ <;> rw [hd] <;> rfl
  rw [← not_lt, ← f32_lt_iff hb ha, Datum.le, notNaN ha, notNaN hb]
  simp

theorem nearestEven_sqrt {a : Val} (ha : IsFinite32 a) (h : 0 ≤ patternRat a) :
    NearestEven (F32.sqrt a) √(patternRat a : ℝ) := by
  rw [F32.sqrt]
  rcases datum_of_finite ha with ⟨s, hd, h0⟩ | ⟨hd, h0⟩ <;> rw [hd]
  · rw [h0, Rat.cast_zero, Real.sqrt_zero]
    exact nearestEven_zero s
  · have hpos : 0 < patternRat a := lt_of_le_of_ne h h0.symm
    have hroot : 0 < √(patternRat a : ℝ) := Real.sqrt_pos.mpr (by exact_mod_cast hpos)
    simp only [if_neg h.not_gt, nearestSqrtMag_eq hpos]
    simpa [signFactor] using nearestEven_signed false hroot

/-! ## The formula of R94 -/

theorem patternRat_formula (p : Val) :
    (patternRat p : ℝ) =
      if ((p.extractLsb' 23 8).toNat : Int) = 0
      then (if p.getLsbD 31 then -1 else 1) * (2 : ℝ) ^ (-126 : Int) * (((p.extractLsb' 0 23).toNat : ℝ) / 2 ^ 23)
      else (if p.getLsbD 31 then -1 else 1) * (2 : ℝ) ^ (((p.extractLsb' 23 8).toNat : Int) - 127) *
        (1 + ((p.extractLsb' 0 23).toNat : ℝ) / 2 ^ 23) := by
  rw [patternRat_eq, patternMag, signFactor]
  simp only [pow2_eq_zpow, Nat.cast_eq_zero]
  split_ifs <;> push_cast <;> ring

/-- Settles O60: the formula of R94; and rounding over the reals, which the rounding of rationals and of `NUM_F32` comes to. -/
theorem patternsDenoteReals : Obligations.PatternsDenoteReals := by
  unfold Obligations.PatternsDenoteReals
  intro finite value nearest nearestEven
  refine ⟨fun p hp => ⟨patternRat_formula p, patternRat p, congrArg Scalar.fin (if_neg hp), rfl⟩,
    fun x => (nearestEven_enc32 x).nearest, fun q => (nearestEven_nearestPattern q).nearest, fun fns a b ha hb => ?_⟩
  refine ⟨nearestEven_add ha hb, nearestEven_sub ha hb, nearestEven_mul ha hb,
    fun h => nearestEven_div ha hb (Rat.cast_ne_zero.mp h), fun h => nearestEven_sqrt ha (Rat.cast_nonneg.mp h),
    (f32_lt_iff ha hb).trans Rat.cast_lt.symm, (f32_le_iff ha hb).trans Rat.cast_le.symm, ?_⟩
  show (Datum.of a).rat.floor = ⌊(patternRat a : ℝ)⌋
  rw [datum_rat ha, floor_cast_real]

end Sys2Proof
end

section
/-! PROOFS. `NOP` and the ten `SETA` commands (40_tick_smoother_mix.md R126, R130 to R140). -/

namespace Sys2Proof.Machine

/-- Settles O8: a word with `op = 0` that is not zero is on R97's list. -/
theorem nopDoesNothing : Obligations.NopDoesNothing :=
  ⟨rfl, fun _ => rfl, fun _ hop hw => rejectable_iff.mp (.inr (.inr (.inl ⟨congrArg BitVec.toNat hop, hw⟩)))⟩

/-- A `SETA` does what R130 to R139 say if its word is that of stage number `k`, it writes the flag of `st`, and `wet` and
`dry` are the gain targets R126 gives `st` with that flag. -/
theorem writesActive_of {mk : Bool → Instr} {top : BitVec 32} {k : BitVec 4} {st : Stage} {wet dry : Bool → State → Scalar}
    (htop : top = 2#4 ++ k ++ 0#4 ++ 0#20) (hset : ∀ a, setaOf k.toNat a = some (mk a))
    (hexec : ∀ a s, exec (mk a) s = .next (s.onBlock (·.setActive st a)))
    (hgain : ∀ a (s : State), gainTargets s.sys s.par st { s.mix.of st with active := a } = (wet a s, dry a s)) :
    WritesActive mk top st wet dry := by
  intro a s
  have hself : (s.mix.setActive st a).of st = { s.mix.of st with active := a } := by simp [Mixes.setActive_of]
  have htargets : gainTargets s.sys s.par st ((s.mix.setActive st a).of st) = (wet a s, dry a s) := by rw [hself, hgain]
  refine ⟨?_, _, hexec a s, rfl, hself, fun q hq => ?_, congrArg Prod.fst htargets, congrArg Prod.snd htargets⟩
  · rw [append_eq_mkWord _ htop]
    exact decode_seta (hset a)
  · simp [Mixes.setActive_of, hq]

theorem filterTargets_eq (a : Bool) (s : State) : filterTargets s.sys a = (filterWet a s, filterDry a s) := by
  cases a <;> rfl

theorem effectTargets_eq (p : HParam) (a : Bool) (s : State) :
    effectTargets s.sys a (s.par.h p) = (effectWet p a s, effectDry p a s) := by
  cases a <;> rfl

/-- Settles O6: a filter stage's gain targets are a matter of the flag alone. -/
theorem filterActiveCommands : Obligations.FilterActiveCommands :=
  ⟨writesActive_of (k := 0) rfl (fun _ => rfl) (fun _ _ => rfl) filterTargets_eq,
   writesActive_of (k := 1) rfl (fun _ => rfl) (fun _ _ => rfl) filterTargets_eq,
   writesActive_of (k := 2) rfl (fun _ => rfl) (fun _ _ => rfl) filterTargets_eq,
   writesActive_of (k := 3) rfl (fun _ => rfl) (fun _ _ => rfl) filterTargets_eq,
   writesActive_of (k := 4) rfl (fun _ => rfl) (fun _ _ => rfl) filterTargets_eq⟩

/-- Settles O7: an effect stage's gain targets are those of the flag and of its mix entry. -/
theorem effectActiveCommands : Obligations.EffectActiveCommands :=
  ⟨writesActive_of (k := 5) rfl (fun _ => rfl) (fun _ _ => rfl) (effectTargets_eq .phaMix),
   writesActive_of (k := 6) rfl (fun _ => rfl) (fun _ _ => rfl) (effectTargets_eq .flaMix),
   writesActive_of (k := 7) rfl (fun _ => rfl) (fun _ _ => rfl) (effectTargets_eq .choMix),
   writesActive_of (k := 8) rfl (fun _ => rfl) (fun _ _ => rfl) (effectTargets_eq .dlyMix),
   writesActive_of (k := 9) rfl (fun _ => rfl) (fun _ _ => rfl) (effectTargets_eq .revMix)⟩

end Sys2Proof.Machine
end

section
/-! PROOFS. What a TICK writes and leaves (40_tick_smoother_mix.md R120, R121, R127): the forty smoothings, the ten stages
in chain order, and each memory at its write index alone. -/

namespace Sys2Proof.Machine

section
variable {α : Type} [DecidableEq α] (d : Device α) (b : Block α) (f : Frame α)

/-! ## The smoothings -/

theorem tickBlock_smoothed (p : SParam) : (tickBlock d b f).1.par.s p = Smoothed.step d (b.par.s p) := by
  rw [tickBlock_par, Params.mapSmoothed_s]

theorem tickBlock_held (p : HParam) : (tickBlock d b f).1.par.h p = b.par.h p := by
  rw [tickBlock_par, Params.mapSmoothed_h]

theorem tickBlock_mixState (st : Stage) : (tickBlock d b f).1.mix.of st = MixState.step d b.par st (b.mix.of st) := by
  rw [tickBlock_mix, Mixes.mapStages_of]

/-- From `b` to `t` every target, held entry and active flag is as before. -/
structure SameTargets (b t : Block α) : Prop where
  tgt : ∀ p, (t.par.s p).tgt = (b.par.s p).tgt
  held : ∀ p, t.par.h p = b.par.h p
  active : ∀ st, (t.mix.of st).active = (b.mix.of st).active

/-- The smoother moves current values and gains alone (R120). -/
theorem tickBlock_sameTargets : SameTargets b (tickBlock d b f).1 where
  tgt p := by rw [tickBlock_smoothed]; rfl
  held := tickBlock_held d b f
  active st := by rw [tickBlock_mixState]; rfl

end

/-- Settles O10: TICK steps each smoothed entry and each stage's gains, and no held entry. -/
theorem tickSmooths : Obligations.TickSmooths := fun f s =>
  ⟨tick f s, rfl, tickBlock_smoothed s.device s.toBlock _, tickBlock_held s.device s.toBlock _,
    tickBlock_mixState s.device s.toBlock _⟩

/-! ## The chain, stage by stage -/

section
variable {α : Type} [DecidableEq α] (d : Device α)

/-- The channel and the signal after the first `k` stages of the chain. -/
def chainUpTo (b : Block α) (c : Nat) (ch : Channel α) (x : α) (k : Nat) : Channel α × α :=
  (chainOrder.take k).foldl (stageStep d b c) (ch, x)

theorem chainUpTo_succ (b : Block α) (c : Nat) (ch : Channel α) (x : α) {k : Nat} {st : Stage}
    (h : chainOrder[k]? = some st) : chainUpTo d b c ch x (k + 1) = stageStep d b c (chainUpTo d b c ch x k) st := by
  simp [chainUpTo, List.take_add_one, h]

/-- The chain is a chain in the sense of R127: what its first `k` stages make is the signal `k`. -/
theorem chained_runChain (b : Block α) (c : Nat) (ch : Channel α) (x : α) :
    Chained d b c ch x (runChain d b c ch x).1 (runChain d b c ch x).2 := by
  refine ⟨fun k => (chainUpTo d b c ch x k).2, fun k => (chainUpTo d b c ch x k).1, rfl, rfl, rfl, rfl, fun k st hst => ?_⟩
  simp only [chainUpTo_succ d b c ch x hst]
  exact ⟨_, rfl, rfl⟩

/-- The registers step 5 of a TICK works with are those steps 1 to 4 leave (R120). -/
theorem midTick_tickBlock (b : Block α) (f : Frame α) : midTick b (tickBlock d b f).1 = beforeChain d b := rfl

/-! ## The memories -/

/-- From `ch` to `ch'` each memory reads as before at every index but its write index in `b`. -/
structure MemoriesKept (b : Block α) (ch ch' : Channel α) : Prop where
  fla : ∀ i, i ≠ b.widx.fla → ch'.dlFla.read d.num.zero i = ch.dlFla.read d.num.zero i
  cho : ∀ i, i ≠ b.widx.cho → ch'.dlCho.read d.num.zero i = ch.dlCho.read d.num.zero i
  dly : ∀ i, i ≠ b.widx.dly → ch'.dlDly.read d.num.zero i = ch.dlDly.read d.num.zero i
  hist : ∀ i, i ≠ b.hw → ch'.hist.read d.num.zero i = ch.hist.read d.num.zero i

end

section
variable {α : Type} {d : Device α} {b : Block α}

theorem MemoriesKept.refl (ch : Channel α) : MemoriesKept d b ch ch :=
  ⟨fun _ _ => rfl, fun _ _ => rfl, fun _ _ => rfl, fun _ _ => rfl⟩

theorem MemoriesKept.trans {ch ch' ch'' : Channel α} (h : MemoriesKept d b ch ch') (h' : MemoriesKept d b ch' ch'') :
    MemoriesKept d b ch ch'' :=
  ⟨fun i hi => (h'.fla i hi).trans (h.fla i hi), fun i hi => (h'.cho i hi).trans (h.cho i hi),
   fun i hi => (h'.dly i hi).trans (h.dly i hi), fun i hi => (h'.hist i hi).trans (h.hist i hi)⟩

variable [DecidableEq α]

/-- A store leaves what every other index of a memory in canonical form reads (20_memory.md R60). -/
theorem read_write_ne {zero v : α} {cap i w : Nat} {m : Memory α} (hm : m.wf zero cap = true) (hi : i ≠ w) :
    (m.write zero w v).read zero i = m.read zero i := by
  rw [Memory.read_write _ hm, if_neg hi]

/-- A stage stores at most one Sample, at the write index of its own memory (43_delayline.md R196, 48_reverb.md R267). -/
theorem wetPath_memoriesKept (c : Nat) (st : Stage) {ch : Channel α} (h : ChannelWf d ch) (x : α) :
    MemoriesKept d b ch (wetPath d b c st ch x).1 := by
  have same := MemoriesKept.refl (d := d) (b := b) ch
  cases st with
  | fla => exact { same with fla := fun _ => read_write_ne h.dlFla }
  | cho => exact { same with cho := fun _ => read_write_ne h.dlCho }
  | dly => exact { same with dly := fun _ => read_write_ne h.dlDly }
  | rev => exact { same with hist := fun _ => read_write_ne h.hist }
  | _ => exact { same with }

theorem foldl_stageStep_memoriesKept (hb : b.Inv d) (c : Nat) (sts : List Stage) {acc : Channel α × α}
    (h : ChannelWf d acc.1) : MemoriesKept d b acc.1 (sts.foldl (stageStep d b c) acc).1 := by
  induction sts generalizing acc with
  | nil => exact .refl _
  | cons st sts ih =>
    have hstage : MemoriesKept d b acc.1 (stageStep d b c acc st).1 := wetPath_memoriesKept c st h acc.2
    exact hstage.trans (ih (wetPath_wf d hb c st h acc.2))

/-- A TICK leaves each memory of both channels at every index but its write index; with one channel, all of channel 1. -/
theorem tickBlock_memoriesKept (h : b.Inv d) (f : Frame α) :
    MemoriesKept d b b.ch0 (tickBlock d b f).1.ch0 ∧ MemoriesKept d b b.ch1 (tickBlock d b f).1.ch1 := by
  have lane (c : Nat) {ch : Channel α} (hch : ChannelWf d ch) (x : α) :
      MemoriesKept d b ch (runChain d (beforeChain d b) c ch x).1 := by
    obtain ⟨hfla, hcho, hdly, hhist⟩ := foldl_stageStep_memoriesKept (beforeChain_inv d h) c chainOrder (acc := (ch, x)) hch
    exact ⟨hfla, hcho, hdly, hhist⟩
  refine ⟨lane 0 h.ch0 f.c0, ?_⟩
  rw [tickBlock_ch1]
  split
  · exact lane 1 h.ch1 f.c1
  · exact .refl _

end

/-- Settles O13: each lane is a run of the chain from the registers of this tick, and the indices advance once. -/
theorem tickRunsChain : Obligations.TickRunsChain := by
  intro f s
  refine ⟨tick f s, rfl, chained_runChain _ _ _ _ _, fun hn => ?_, rfl, rfl, rfl, rfl⟩
  rw [tick_out, tick_toBlock, tickBlock_ch1, tickBlock_c1, if_pos hn, if_pos hn, midTick_tickBlock]
  exact chained_runChain _ _ _ _ _

/-- Settles O19: the registers by the steps of TICK, the memories by the stages. -/
theorem tickFrame : Obligations.TickFrame := by
  intro f s h
  obtain ⟨htgt, hheld, hactive⟩ := tickBlock_sameTargets s.device s.toBlock (f.map s.cfg.num.read)
  obtain ⟨lane0, lane1⟩ := tickBlock_memoriesKept h (f.map s.cfg.num.read)
  exact ⟨tick f s, rfl, htgt, hheld, hactive, rfl, rfl, rfl, rfl, rfl, rfl, rfl, rfl, rfl, rfl, rfl, rfl,
    lane0.fla, lane0.cho, lane0.dly, lane0.hist, lane1.fla, lane1.cho, lane1.dly, lane1.hist⟩

end Sys2Proof.Machine
end

section
/-! PROOFS. The two channels do not interact (40_tick_smoother_mix.md R127, R141): a TICK of two blocks that agree but for
one lane, with Frames that do, leaves two such blocks and puts out one Sample on the other lane. -/

namespace Sys2Proof.Machine

section
variable {α : Type}

/-! ## One lane -/

/-- The Sample of a Frame, and the channel of a block, on lane 0 (`false`) or lane 1 (`true`). -/
def laneSample (c : Bool) (f : Frame α) : α := if c then f.c1 else f.c0
def Block.lane (c : Bool) (b : Block α) : Channel α := if c then b.ch1 else b.ch0

variable [DecidableEq α] (d : Device α)

/-- The signal path on one lane: the chain, or on lane 1 of a device with one channel nothing (R127, log 15). -/
def runLane (b : Block α) (c : Bool) (ch : Channel α) (x : α) : Channel α × α :=
  if c then (if d.nch = 2 then runChain d b 1 ch x else (ch, d.num.zero)) else runChain d b 0 ch x

theorem tickBlock_lane (b : Block α) (f : Frame α) (c : Bool) :
    ((tickBlock d b f).1.lane c, laneSample c (tickBlock d b f).2) =
      runLane d (beforeChain d b) c (b.lane c) (laneSample c f) := by
  cases c <;> rfl

/-- The signal path of a lane reads registers and banks, and no channel of the block beside the one it is given. -/
theorem runLane_channels (b : Block α) (ch0 ch1 : Channel α) :
    runLane d (beforeChain d { b with ch0 := ch0, ch1 := ch1 }) = runLane d (beforeChain d b) := rfl

/-! ## Two blocks -/

/-- `b'` is `b` but for the channels, and on lane `c` they have one channel. -/
structure AgreeOn (c : Bool) (b b' : Block α) : Prop where
  rest : ∃ ch0 ch1, b' = { b with ch0 := ch0, ch1 := ch1 }
  lane : b.lane c = b'.lane c

/-- A TICK keeps the agreement, and puts out one Sample on the lane. -/
theorem tickBlock_agreeOn {c : Bool} {b b' : Block α} {f f' : Frame α} (h : AgreeOn c b b')
    (hf : laneSample c f = laneSample c f') :
    AgreeOn c (tickBlock d b f).1 (tickBlock d b' f').1 ∧
    laneSample c (tickBlock d b f).2 = laneSample c (tickBlock d b' f').2 := by
  obtain ⟨⟨ch0, ch1, rfl⟩, hlane⟩ := h
  have hrun := tickBlock_lane d b f c
  rw [hlane, hf, ← runLane_channels d b ch0 ch1, ← tickBlock_lane] at hrun
  exact ⟨⟨⟨_, _, rfl⟩, congrArg Prod.fst hrun⟩, congrArg Prod.snd hrun⟩

end

/-! ## Two machines -/

section
variable {c : Bool} {s s' : State}

/-- Machines of one configuration read the Samples they are given alike. -/
theorem tick_agreeOn (hcfg : s.cfg = s'.cfg) (h : AgreeOn c s.toBlock s'.toBlock) {f f' : Frame Scalar}
    (hf : laneSample c f = laneSample c f') :
    AgreeOn c (tick f s).toBlock (tick f' s').toBlock ∧ laneSample c (tick f s).out = laneSample c (tick f' s').out := by
  have hread : laneSample c (f.map s.cfg.num.read) = laneSample c (f'.map s.cfg.num.read) := by
    cases c <;> exact congrArg s.cfg.num.read hf
  rw [tick_toBlock, tick_toBlock, tick_out, tick_out, State.device, State.device, ← hcfg]
  exact tickBlock_agreeOn _ h hread

/-- Blocks of Frames that agree on a lane leave it in one state, and come out as the same Samples on it. -/
theorem processBlock_agreeOn {fs fs' : List (Frame Scalar)} (hcfg : s.cfg = s'.cfg)
    (h : AgreeOn c s.toBlock s'.toBlock) (hfs : fs.map (laneSample c) = fs'.map (laneSample c)) :
    (processBlock fs s).1.map (laneSample c) = (processBlock fs' s').1.map (laneSample c) ∧
    (processBlock fs s).2.lane c = (processBlock fs' s').2.lane c := by
  induction fs generalizing fs' s s' with
  | nil =>
    obtain rfl : fs' = [] := List.map_eq_nil_iff.mp hfs.symm
    exact ⟨rfl, h.lane⟩
  | cons f fs ih =>
    cases fs' with
    | nil => cases hfs
    | cons f' fs' =>
      obtain ⟨hf, hfs⟩ := List.cons.inj hfs
      obtain ⟨hnext, hout⟩ := tick_agreeOn hcfg h hf
      obtain ⟨hrest, hend⟩ := ih (s := tick f s) (s' := tick f' s') hcfg hnext hfs
      exact ⟨congrArg₂ List.cons hout hrest, hend⟩

end

/-- Settles O21: the machines agree on the lane whose channel and Samples are the same. -/
theorem channelsDoNotInteract : Obligations.ChannelsDoNotInteract := fun _ _ s o ch =>
  ⟨processBlock_agreeOn (c := false) (s' := { s with ch1 := ch, out := o }) rfl ⟨⟨_, _, rfl⟩, rfl⟩,
   processBlock_agreeOn (c := true) (s' := { s with ch0 := ch, out := o }) rfl ⟨⟨_, _, rfl⟩, rfl⟩⟩

end Sys2Proof.Machine
end

section
/-! PROOFS. Who writes what: a command word no current value, gain, coefficient, LFO, channel or write index
(40_tick_smoother_mix.md R125); and a target, a held entry or a flag no one but a command word and reset (R120). -/

namespace Sys2Proof.Machine

/-! ## A step of the machine as a step of its device -/

/-- The step that takes the entry `e` is the step of the device `e` asks for. -/
theorem deviceStep_of_step {s t : State} {e : Event} {rest : List Event} (hi : s.inbox = e :: rest) (h : step s = .next t) :
    ∃ o, deviceStep s.device (actOf s e) s.toBlock = .ok (t.toBlock, o) ∧ t.cfg = s.cfg := by
  rw [step_cons hi] at h
  rw [← actOf_inbox s rest e]
  cases hd : deviceStep s.device (actOf { s with inbox := rest } e) s.toBlock with
  | error c => cases (runEvent_of_deviceStep_error (s := { s with inbox := rest }) hd).symm.trans h
  | ok p =>
    obtain ⟨u, hu, hshows⟩ := runEvent_of_deviceStep (s := { s with inbox := rest }) hd
    cases hu.symm.trans h
    exact ⟨p.2, by rw [hshows.block], hshows.cfg⟩

section
variable {α : Type} {d : Device α} {b t : Block α}

/-! ## Command words -/

/-- From `b` to `t` nothing moves that the signal path of a TICK works with, but for targets and held entries. -/
structure SameSignal (b t : Block α) : Prop where
  cur : ∀ p, (t.par.s p).cur = (b.par.s p).cur
  gains : ∀ st, (t.mix.of st).wet = (b.mix.of st).wet ∧ (t.mix.of st).dry = (b.mix.of st).dry
  coef : t.coef = b.coef
  lfo : t.lfo = b.lfo
  ch0 : t.ch0 = b.ch0
  ch1 : t.ch1 = b.ch1
  widx : t.widx = b.widx
  hw : t.hw = b.hw

theorem SameSignal.refl (b : Block α) : SameSignal b b :=
  ⟨fun _ => rfl, fun _ => ⟨rfl, rfl⟩, rfl, rfl, rfl, rfl, rfl, rfl⟩

/-- A command writes a target, a held entry, a flag, the job or the envelope (R125). -/
theorem Effect.sameSignal {i : Instr} (e : Effect d i b t) : SameSignal b t := by
  have same := SameSignal.refl b
  cases e with
  | target p v => exact { same with cur := fun q => Params.setTgt_cur _ p q v }
  | held p v => exact { same with cur := fun q => by simp }
  | time val v => exact { same with cur := fun q => by simp }
  | active st a => exact { same with gains := fun q => ⟨Mixes.setActive_wet _ st q a, Mixes.setActive_dry _ st q a⟩ }
  | _ => exact { same with }

theorem commandWord_sameSignal (w : Word) : SameSignal b (commandWord d w b) := by
  rcases commandWord_cases d w b with ⟨_, _, hreject⟩ | ⟨_, _, _, e⟩
  · rw [hreject]
    exact { SameSignal.refl b with }
  · exact e.sameSignal

/-- No command has one of the two fixed depths as its entry (10_state.md R22). -/
theorem Effect.fixedDepth {i : Instr} (e : Effect d i b t) {q : SParam} (hq : q = .flaDepth ∨ q = .choDepth) :
    (t.par.s q).tgt = (b.par.s q).tgt := by
  cases e with
  | target p v hp =>
    have hne : q ≠ p := by
      rintro rfl
      exact hq.elim hp.1 hp.2
    rw [Block.setTgt_par, Params.setTgt_s, if_neg hne]
  | held => simp
  | time => simp
  | _ => rfl

theorem commandWord_fixedDepth (w : Word) {q : SParam} (hq : q = .flaDepth ∨ q = .choDepth) :
    ((commandWord d w b).par.s q).tgt = (b.par.s q).tgt := by
  rcases commandWord_cases d w b with ⟨_, _, hreject⟩ | ⟨_, _, _, e⟩
  · rw [hreject, Block.reject_par]
  · exact e.fixedDepth hq

/-! ## The other steps -/

theorem SameTargets.of_eq (hpar : t.par = b.par) (hmix : t.mix = b.mix) : SameTargets b t :=
  ⟨fun _ => by rw [hpar], fun _ => by rw [hpar], fun _ => by rw [hmix]⟩

variable [DecidableEq α]

theorem irgenStep_sameTargets (u : Nat → α) : SameTargets b (irgenStep d b u) := by
  rcases irgenStep_cases d b u with ⟨_, hstay⟩ | ⟨dur, _, hpub⟩
  · rw [hstay]
    exact .of_eq rfl rfl
  · rw [hpub]
    exact .of_eq (Block.setShadow_par _ _) (Block.setShadow_mix _ _)

/-- TICK, IRGEN and READ write no target, no held entry and no flag (R120). -/
theorem deviceStep_sameTargets {a : Act α} {o : Output α} (hw : ∀ w, a ≠ .word w) (hr : a ≠ .reset)
    (h : deviceStep d a b = .ok (t, o)) : SameTargets b t := by
  rcases deviceStep_cases h with ⟨w, ha, _⟩ | ⟨f, _, rfl, _⟩ | ⟨_, _, _, rfl, _⟩ | ⟨_, _, rfl, _⟩ | ⟨ha, _⟩
  · exact absurd ha (hw w)
  · exact tickBlock_sameTargets d b f
  · exact irgenStep_sameTargets _
  · exact .of_eq rfl rfl
  · exact absurd ha hr

end

/-- Settles O40: the step is the device's command word. -/
theorem commandsNeverWriteCurrent : Obligations.CommandsNeverWriteCurrent := by
  intro s t w rest hi h
  obtain ⟨o, hd, -⟩ := deviceStep_of_step hi h
  have ht : commandWord s.device w s.toBlock = t.toBlock := congrArg Prod.fst (Except.ok.inj hd)
  have same : SameSignal s.toBlock t.toBlock := ht ▸ commandWord_sameSignal w
  exact ⟨same.cur, same.gains, same.coef, same.lfo, same.ch0, same.ch1, same.widx, same.hw⟩

theorem actOf_eq_word {s : State} {e : Event} {w : Word} (h : actOf s e = .word w) : e = .word w := by
  cases e <;> cases h
  rfl

theorem actOf_eq_reset {s : State} {e : Event} (h : actOf s e = .reset) : e = .reset := by
  cases e <;> cases h
  rfl

/-- Settles O41: a word leaves the fixed depths, another step every target. -/
theorem onlyCommandsWriteTargets : Obligations.OnlyCommandsWriteTargets := by
  intro s t h hr
  cases hi : s.inbox with
  | nil =>
    rw [step_nil hi] at h
    cases h
    exact ⟨fun _ => ⟨fun _ => rfl, fun _ => rfl, fun _ => rfl⟩, rfl, rfl⟩
  | cons e rest =>
    obtain ⟨o, hd, -⟩ := deviceStep_of_step hi h
    by_cases hword : ∃ w, e = .word w
    · obtain ⟨w, rfl⟩ := hword
      have ht : commandWord s.device w s.toBlock = t.toBlock := congrArg Prod.fst (Except.ok.inj hd)
      rw [← ht]
      exact ⟨fun hw => absurd rfl (hw w rest), commandWord_fixedDepth w (.inl rfl), commandWord_fixedDepth w (.inr rfl)⟩
    · have same : SameTargets s.toBlock t.toBlock :=
        deviceStep_sameTargets (fun w ha => hword ⟨w, actOf_eq_word ha⟩)
          (fun ha => hr rest (by rw [hi, actOf_eq_reset ha])) hd
      exact ⟨fun _ => ⟨same.tgt, same.held, same.active⟩, same.tgt _, same.tgt _⟩

end Sys2Proof.Machine
end

section
/-! PROOFS. The bypass law as a law of every step (40_tick_smoother_mix.md R128): no step but a `SETA` ends the bypass. -/

namespace Sys2Proof.Machine

section
variable {α : Type} (d : Device α) (b : Block α)

/-! ## Commands -/

theorem setpSmoothed_mix (p : SParam) (val : Val) : (setpSmoothed d p val b).mix = b.mix := by
  rcases setpSmoothed_cases d p val b with ⟨_, e⟩ | ⟨_, _, e⟩ <;> rw [e] <;> rfl

theorem setpHeld_mix (p : HParam) (val : Val) : (setpHeld d p val b).mix = b.mix := by
  rcases setpHeld_cases d p val b with ⟨_, e⟩ | ⟨_, _, e⟩ <;> rw [e] <;> rfl

theorem setpTime_mix (val : Val) : (setpTime d val b).mix = b.mix := by
  rcases setpTime_cases d val b with ⟨_, e⟩ | ⟨_, _, e⟩ <;> rw [e] <;> rfl

/-- A command whose word is no `SETA` word leaves flags and gains: `op = 2` is the operation of every `SETA` (30_encoding.md
R91). -/
theorem command_mix {i : Instr} {w : Word} (hw : encode i = some w) (hop : w.op ≠ 2) : (command d b i).mix = b.mix := by
  cases i with
  | setaHpf | setaLpf | setaEql | setaEqm | setaEqh | setaPha | setaFla | setaCho | setaDly | setaRev =>
    cases hw
    exact absurd (mkWord_op ..) hop
  | setpPhaMix | setpFlaMix | setpChoMix | setpDlyMix | setpRevMix | setpEnvAttack | setpEnvDecay | setpEnvSustain
  | setpEnvRelease => exact setpHeld_mix d b _ _
  | setpRevTime => exact setpTime_mix d b _
  | nop | trig | rel | tick | read | irgen | reset => rfl
  | _ => exact setpSmoothed_mix d b _ _

theorem commandWord_mix {w : Word} (hop : w.op ≠ 2) : (commandWord d w b).mix = b.mix := by
  rcases commandWord_cases d w b with ⟨_, _, e⟩ | ⟨i, hi, e, _⟩ <;> rw [e]
  · rfl
  · exact command_mix d b (encode_of_decode hi) hop

end

section
variable {α : Type} {d : Device α} {b t : Block α} {r : α → ℝ}

/-! ## Steps -/

/-- The bypass is a matter of flags and gains alone. -/
theorem Block.Bypassed.of_mix (h : b.Bypassed r) (hmix : t.mix = b.mix) : t.Bypassed r := fun st => hmix ▸ h st

theorem irgenStep_mix [DecidableEq α] (u : Nat → α) : (irgenStep d b u).mix = b.mix := by
  rcases irgenStep_cases d b u with ⟨_, e⟩ | ⟨dur, _, e⟩ <;> rw [e]
  exact Block.setShadow_mix _ _

/-- No step of a device in an exact number system that is no `SETA` ends the bypass. -/
theorem deviceStep_bypassed [DecidableEq α] {a : Act α} {o : Output α} (hx : Exact d.num r) (h : b.Bypassed r)
    (hw : ∀ w, a = .word w → w.op ≠ 2) (hs : deviceStep d a b = .ok (t, o)) : t.Bypassed r := by
  rcases deviceStep_cases hs with
    ⟨w, ha, rfl, _⟩ | ⟨f, _, rfl, _⟩ | ⟨_, _, _, rfl, _⟩ | ⟨_, _, rfl, _⟩ | ⟨_, _, rfl, _⟩
  · exact h.of_mix (commandWord_mix d b (hw w ha))
  · exact (tickBlock_bypassed hx h f).1
  · exact h.of_mix (irgenStep_mix _)
  · exact h
  · exact Block.reset_bypassed hx

end

/-- Settles O46: every step keeps flags and gains, settles them or resets them; and a TICK of a bypassed block puts out its
input. -/
theorem bypassLawHolds : Obligations.BypassLawHolds := by
  refine ⟨fun s t e rest hk h hi hw hs => ?_, fun α _ d r a b t o hx h hw hs => ?_⟩
  · obtain ⟨o, hd, hcfg⟩ := deviceStep_of_step hi hs
    refine ⟨hcfg ▸ hk, deviceStep_bypassed (exact_of_kind hk) h (fun w ha => hw w (actOf_eq_word ha)) hd, ?_⟩
    rintro f rfl
    rw [step_cons hi] at hs
    cases hs
    exact (tick_bypassed (s := { s with inbox := rest }) hk h f).2
  · refine ⟨deviceStep_bypassed hx h hw hs, ?_⟩
    rintro f rfl
    cases hs
    exact ⟨_, _, rfl, (tickBlock_bypassed hx h f).2⟩

end Sys2Proof.Machine
end

section
/-! PROOFS. The laws of the smoother over the reals (40_tick_smoother_mix.md R122, R123). -/

namespace Sys2Proof.Machine

section
variable {fs tau : ℝ}

/-- Without a time constant the target is taken at once. -/
theorem smooth_of_nonpos (h : tau ≤ 0) (t c : ℝ) : smooth numReal fs tau t c = t := by simp [smooth, h]

/-- The smoothing factor is the exponential of a negative number. -/
theorem ks_pos_lt_one (hfs : 0 < fs) (h : 0 < tau) : 0 < numReal.ks fs tau ∧ numReal.ks fs tau < 1 := by
  have hneg : -(1 / fs) / tau < 0 := div_neg_of_neg_of_pos (neg_neg_of_pos (by positivity)) h
  rw [numReal_ks]
  exact ⟨Real.exp_pos _, Real.exp_lt_one_iff.mpr hneg⟩

/-- After `n` ticks the first distance has shrunk by `KS^n` (R122 (c)). -/
theorem smooth_iterate (h : 0 < tau) (t c : ℝ) (n : ℕ) :
    (smooth numReal fs tau t)^[n] c = t + (c - t) * numReal.ks fs tau ^ n := by
  induction n with
  | zero => simp
  | succ n ih =>
    rw [Function.iterate_succ_apply', ih, smooth_of_pos h]
    ring

/-- Five time constants are worth a factor `e^(-5)`. -/
theorem ks_pow_le (hfs : 0 < fs) (h : 0 < tau) {n : ℕ} (hn : 5 * tau * fs ≤ n) : numReal.ks fs tau ^ n ≤ Real.exp (-5) := by
  rw [numReal_ks, ← Real.exp_nat_mul, Real.exp_le_exp]
  have hrate : (n : ℝ) * (-(1 / fs) / tau) = -(n / (tau * fs)) := by
    field_simp
  have hfive : 5 ≤ n / (tau * fs) := by
    rw [le_div_iff₀ (by positivity)]
    linarith
  linarith

/-- `e^(-5)` is below a hundredth, since `e > 2.7`. -/
theorem exp_neg_five_lt : Real.exp (-5) < 1 / 100 := by
  have hfive : Real.exp 5 = Real.exp 1 ^ 5 := by rw [← Real.exp_nat_mul]; norm_num
  have hlarge : (100 : ℝ) < Real.exp 5 := by
    calc (100 : ℝ) < 2.7 ^ 5 := by norm_num
      _ ≤ Real.exp 1 ^ 5 := pow_le_pow_left₀ (by norm_num) (by linarith [Real.exp_one_gt_d9]) 5
      _ = Real.exp 5 := hfive.symm
  rw [Real.exp_neg, ← one_div]
  exact one_div_lt_one_div_of_lt (by norm_num) hlarge

/-- Past five time constants less than a hundredth of the first distance is left (R123). -/
theorem smooth_iterate_near (hfs : 0 < fs) (h : 0 < tau) {t c : ℝ} {n : ℕ} (hn : 5 * tau * fs ≤ n) (hc : c ≠ t) :
    |(smooth numReal fs tau t)^[n] c - t| < |c - t| / 100 := by
  obtain ⟨hpos, -⟩ := ks_pos_lt_one hfs h
  have hdist : 0 < |c - t| := abs_pos.mpr (sub_ne_zero.mpr hc)
  calc |(smooth numReal fs tau t)^[n] c - t| = |c - t| * numReal.ks fs tau ^ n := by
        rw [smooth_iterate h, add_sub_cancel_left, abs_mul, abs_of_pos (pow_pos hpos n)]
    _ < |c - t| * (1 / 100) := mul_lt_mul_of_pos_left ((ks_pow_le hfs h hn).trans_lt exp_neg_five_lt) hdist
    _ = |c - t| / 100 := by ring

end

/-- Settles O53: one tick is an affine map towards the target with the factor `KS`, and so are `n`. -/
theorem smootherApproachesTarget : Obligations.SmootherApproachesTarget := by
  intro fs tau t c hfs
  refine ⟨fun h => smooth_of_nonpos h t c, fun h => ?_⟩
  obtain ⟨hpos, hlt⟩ := ks_pos_lt_one hfs h
  refine ⟨?_, hpos, hlt, ?_, fun n => ⟨smooth_iterate h t c n, smooth_iterate_near hfs h⟩⟩
  · rw [smooth_of_pos h, sub_self, zero_mul, add_zero]
  · rw [smooth_of_pos h, add_sub_cancel_left, mul_comm]

end Sys2Proof.Machine
end

section
/-! PROOFS. The eleven `SETP` commands of the filter stages (41_biquad.md R160 to R170). -/

namespace Sys2Proof.Machine

/-- A `SETP` of the smoothed entry `p` does what its rule says if its word is that of stage and parameter number `st` and `pr`:
the operand is clamped into the domain of `p`. -/
theorem writesTarget_of {mk : Val → Instr} {top : BitVec 32} {st pr : BitVec 4} {p : SParam}
    (htop : top = 1#4 ++ st ++ pr ++ 0#20) (hset : ∀ val, setpOf st.toNat pr.toNat val = some (mk val))
    (hexec : ∀ val s, exec (mk val) s = .next (s.onBlock (setpSmoothed s.device p val))) :
    WritesTarget mk top p (SParam.lo · p) (SParam.hi · p) := by
  intro val s v hv
  have hstore : setpSmoothed s.device p val s.toBlock = s.toBlock.setTgt p (p.legal s.device v) := by
    have hoperand : p.operand s.device val = some (p.legal s.device v) := congrArg (Option.map _) hv.value
    rw [setpSmoothed, hoperand]
  refine ⟨?_, _, hexec val s, ?_⟩
  · rw [append_eq_mkWord val htop]
    exact decode_setp (hset val) hv.notNaN
  rw [State.onBlock, hstore]
  refine ⟨rfl, ?_, fun q => ?_, fun q hq => ?_, fun q => ?_⟩
  · simp [SParam.legal]
  · simp
  · simp [Params.setTgt_s, hq]
  · simp

/-- Settles O1: each of the eleven words is that of its stage and parameter number, with the bounds of R21. -/
theorem filterParameterCommands : Obligations.FilterParameterCommands :=
  ⟨writesTarget_of (st := 0) (pr := 0) rfl (fun _ => rfl) (fun _ _ => rfl),
   writesTarget_of (st := 1) (pr := 0) rfl (fun _ => rfl) (fun _ _ => rfl),
   writesTarget_of (st := 2) (pr := 0) rfl (fun _ => rfl) (fun _ _ => rfl),
   writesTarget_of (st := 3) (pr := 0) rfl (fun _ => rfl) (fun _ _ => rfl),
   writesTarget_of (st := 4) (pr := 0) rfl (fun _ => rfl) (fun _ _ => rfl),
   writesTarget_of (st := 0) (pr := 1) rfl (fun _ => rfl) (fun _ _ => rfl),
   writesTarget_of (st := 1) (pr := 1) rfl (fun _ => rfl) (fun _ _ => rfl),
   writesTarget_of (st := 3) (pr := 1) rfl (fun _ => rfl) (fun _ _ => rfl),
   writesTarget_of (st := 2) (pr := 2) rfl (fun _ => rfl) (fun _ _ => rfl),
   writesTarget_of (st := 3) (pr := 2) rfl (fun _ => rfl) (fun _ _ => rfl),
   writesTarget_of (st := 4) (pr := 2) rfl (fun _ => rfl) (fun _ _ => rfl)⟩

end Sys2Proof.Machine
end

section
/-! PROOFS. The wet paths of the filter stages and of the phaser (41_biquad.md R157, R158; 44_phaser.md R213). -/

namespace Sys2Proof.Machine

section
variable {α : Type} (N : NumSys α) (c : Coef α)

/-- A biquad puts out the difference equation and shifts its history (R157). -/
theorem filtered_biquad (h : Hist α) (x : α) : Filtered N c h x (biquad N c h x).2 (biquad N c h x).1 := ⟨rfl, rfl⟩

/-- In a series of biquads the biquad `i` filters what the first `i` of them put out (44_phaser.md R213). -/
theorem filtered_biquadChain {hs : List (Hist α)} {i : Nat} {h : Hist α} (hi : hs[i]? = some h) (x : α) :
    ∃ h', (biquadChain N c hs x).1[i]? = some h' ∧
      Filtered N c h (biquadChain N c (hs.take i) x).2 (biquadChain N c (hs.take (i + 1)) x).2 h' := by
  induction hs generalizing i x with
  | nil => cases hi
  | cons h₀ hs ih =>
    cases i with
    | zero =>
      cases hi
      exact ⟨_, rfl, filtered_biquad N c h x⟩
    | succ i => exact ih hi (biquad N c h₀ x).2

end

/-- Settles O14: a filter stage is one biquad, the phaser a series of them. -/
theorem filterWetPaths : Obligations.FilterWetPaths := by
  intro α _ d b c ch x
  have phaser : wetPath d b c .pha ch x =
      ({ ch with pha := (biquadChain d.num b.coef.pha ch.pha x).1 },
        (biquadChain d.num b.coef.pha (ch.pha.take ch.pha.length) x).2) := by
    rw [List.take_length]
    rfl
  exact ⟨⟨_, _, rfl, filtered_biquad ..⟩, ⟨_, _, rfl, filtered_biquad ..⟩, ⟨_, _, rfl, filtered_biquad ..⟩,
    ⟨_, _, rfl, filtered_biquad ..⟩, ⟨_, _, rfl, filtered_biquad ..⟩,
    _, fun i => (biquadChain d.num b.coef.pha (ch.pha.take i) x).2, phaser, rfl, biquadChain_length ..,
    fun _ _ hi => filtered_biquadChain _ _ hi x⟩

end Sys2Proof.Machine
end

section
/-! PROOFS. The coefficient formulas in any number system (41_biquad.md R152). -/

namespace Sys2Proof.Machine

/-- Settles O59: `coef` is the formulas of R152, operation by operation. -/
theorem cookbookCoefficients : Obligations.CookbookCoefficients :=
  fun _ _ _ _ _ _ _ _ => ⟨rfl, rfl, rfl, rfl, rfl, rfl⟩

end Sys2Proof.Machine
end

section
/-! PROOFS. The coefficients over the reals (41_biquad.md R152 to R155): the cutoff lies strictly between 0 and half a turn,
so `A0` is positive; and at 0 dB the numerator is the denominator. -/

namespace Sys2Proof.Machine

/-! ## The cutoff -/

/-- `cw` and `sw` of a cutoff strictly between frequency 0 and `FS/2`: a point of the open upper half of the unit circle. -/
structure UpperHalf (cw sw : ℝ) : Prop where
  pos : 0 < sw
  circle : cw ^ 2 + sw ^ 2 = 1

section
variable {fs fMin fMax : ℝ} (hb : FrequencyBounds fs fMin fMax) (f : ℝ)
include hb

/-- The clamped frequency lies strictly between 0 and `FS/2` (R155). -/
theorem omega_pos_lt_pi : 0 < omega numReal fs fMin fMax f ∧ omega numReal fs fMin fMax f < Real.pi := by
  obtain ⟨hpos, hle, hnyq⟩ := hb
  obtain ⟨hlo, hhi⟩ := exact_real.inDomain.mp (exact_real.clamp_inDomain f hle)
  have hfs : 0 < fs := by linarith
  simp only [omega, numReal_div, numReal_mul, numReal_twoPi]
  refine ⟨div_pos (mul_pos Real.two_pi_pos (by linarith)) hfs, ?_⟩
  rw [div_lt_iff₀ hfs]
  nlinarith [Real.pi_pos]

theorem upperHalf_omega :
    UpperHalf (Real.cos (omega numReal fs fMin fMax f)) (Real.sin (omega numReal fs fMin fMax f)) :=
  ⟨Real.sin_pos_of_mem_Ioo (omega_pos_lt_pi hb f), Real.cos_sq_add_sin_sq _⟩

end

section
variable {cw sw : ℝ} (h : UpperHalf cw sw)
include h

theorem UpperHalf.one_add_pos : 0 < 1 + cw := by nlinarith [h.pos, h.circle]

theorem UpperHalf.one_sub_pos : 0 < 1 - cw := by nlinarith [h.pos, h.circle]

end

/-! ## The raw values -/

/-- `A = 10^(g ÷ 40)`. -/
theorem gainA_real (g : ℝ) : gainA numReal g = (10 : ℝ) ^ (g / 40) := by simp [gainA]

theorem gainA_pos (g : ℝ) : 0 < gainA numReal g := by
  rw [gainA_real]
  positivity

theorem alphaQ_pos {sw q : ℝ} (hs : 0 < sw) (hq : 0 < q) : 0 < alphaQ numReal sw q := by
  simp only [alphaQ, numReal_div, numReal_mul, numReal_two]
  positivity

theorem shelfBeta_pos {sw a : ℝ} (hs : 0 < sw) (ha : 0 < a) : 0 < shelfBeta numReal sw a := by
  simp only [shelfBeta, numReal_div, numReal_mul, numReal_two, numReal_sqrt, numReal_sqrt2]
  positivity

section
variable (cw sw q g : ℝ)

theorem rawCoef_lowpass : rawCoef numReal cw sw (.lowpass q) =
    let α := alphaQ numReal sw q
    { b0 := (1 - cw) / 2, b1 := 1 - cw, b2 := (1 - cw) / 2, a0 := 1 + α, a1 := -(2 * cw), a2 := 1 - α } := by
  simp [rawCoef, rawA1]

theorem rawCoef_highpass : rawCoef numReal cw sw (.highpass q) =
    let α := alphaQ numReal sw q
    { b0 := (1 + cw) / 2, b1 := -(1 + cw), b2 := (1 + cw) / 2, a0 := 1 + α, a1 := -(2 * cw), a2 := 1 - α } := by
  simp [rawCoef, rawA1]

theorem rawCoef_allpass : rawCoef numReal cw sw (.allpass q) =
    let α := alphaQ numReal sw q
    { b0 := 1 - α, b1 := -(2 * cw), b2 := 1 + α, a0 := 1 + α, a1 := -(2 * cw), a2 := 1 - α } := by
  simp [rawCoef, rawA1]

theorem rawCoef_peaking : rawCoef numReal cw sw (.peaking q g) =
    let α := alphaQ numReal sw q
    let A := gainA numReal g
    { b0 := 1 + α * A, b1 := -(2 * cw), b2 := 1 - α * A, a0 := 1 + α / A, a1 := -(2 * cw), a2 := 1 - α / A } := by
  simp [rawCoef, rawA1]

theorem rawCoef_lowshelf : rawCoef numReal cw sw (.lowshelf g) =
    let A := gainA numReal g
    let β := shelfBeta numReal sw A
    { b0 := A * ((A + 1) - (A - 1) * cw + β), b1 := A * (2 * ((A - 1) - (A + 1) * cw)),
      b2 := A * ((A + 1) - (A - 1) * cw - β), a0 := (A + 1) + (A - 1) * cw + β,
      a1 := -(2 * ((A - 1) + (A + 1) * cw)), a2 := (A + 1) + (A - 1) * cw - β } := by
  simp [rawCoef, mul_left_comm, mul_assoc]

theorem rawCoef_highshelf : rawCoef numReal cw sw (.highshelf g) =
    let A := gainA numReal g
    let β := shelfBeta numReal sw A
    { b0 := A * ((A + 1) + (A - 1) * cw + β), b1 := A * -(2 * ((A - 1) + (A + 1) * cw)),
      b2 := A * ((A + 1) + (A - 1) * cw - β), a0 := (A + 1) - (A - 1) * cw + β,
      a1 := 2 * ((A - 1) - (A + 1) * cw), a2 := (A + 1) - (A - 1) * cw - β } := by
  simp [rawCoef, mul_left_comm, mul_assoc]

end

/-- The Q of a type that has one is positive. -/
def Shape.PositiveQ : Shape ℝ → Prop
  | .lowpass q | .highpass q | .allpass q | .peaking q _ => 0 < q
  | .lowshelf _ | .highshelf _ => True

/-- The divisor of R154 is positive: the sine is, and a shelf's `(A + 1) ± (A − 1) × cw` is `A × (1 ± cw) + (1 ∓ cw)`. -/
theorem rawCoef_a0_pos {cw sw : ℝ} (h : UpperHalf cw sw) {shape : Shape ℝ} (hq : shape.PositiveQ) :
    0 < (rawCoef numReal cw sw shape).a0 := by
  have hplus := h.one_add_pos
  have hminus := h.one_sub_pos
  cases shape with
  | lowpass q | highpass q | allpass q =>
    have hα := alphaQ_pos h.pos hq
    simp only [rawCoef_lowpass, rawCoef_highpass, rawCoef_allpass]
    linarith
  | peaking q g =>
    have hα := div_pos (alphaQ_pos h.pos hq) (gainA_pos g)
    simp only [rawCoef_peaking]
    linarith
  | lowshelf g =>
    have hA := gainA_pos g
    have hβ := shelfBeta_pos h.pos hA
    simp only [rawCoef_lowshelf]
    linarith [mul_pos hA hplus]
  | highshelf g =>
    have hA := gainA_pos g
    have hβ := shelfBeta_pos h.pos hA
    simp only [rawCoef_highshelf]
    linarith [mul_pos hA hminus]

/-- Settles O55: the cutoff is in the upper half of the circle, whatever frequency is asked for. -/
theorem leadingCoefficientIsPositive : Obligations.LeadingCoefficientIsPositive := by
  intro fs fMin fMax f q g hb hq
  have h := upperHalf_omega hb f
  exact ⟨rawCoef_a0_pos h hq, rawCoef_a0_pos h hq, rawCoef_a0_pos h hq, rawCoef_a0_pos h hq, rawCoef_a0_pos h trivial,
    rawCoef_a0_pos h trivial⟩

/-! ## 0 dB -/

/-- Numerator and denominator of a raw set are one polynomial. -/
structure RawCoef.Flat (r : RawCoef ℝ) : Prop where
  b0 : r.b0 = r.a0
  b1 : r.b1 = r.a1
  b2 : r.b2 = r.a2

/-- At 0 dB `A = 1`. -/
theorem gainA_zero : gainA numReal 0 = 1 := by simp [gainA_real]

theorem flat_peaking_zero (cw sw q : ℝ) : (rawCoef numReal cw sw (.peaking q 0)).Flat := by
  constructor <;> simp [rawCoef_peaking, gainA_zero]

theorem flat_lowshelf_zero (cw sw : ℝ) : (rawCoef numReal cw sw (.lowshelf 0)).Flat := by
  constructor <;> simp [rawCoef_lowshelf, gainA_zero]

theorem flat_highshelf_zero (cw sw : ℝ) : (rawCoef numReal cw sw (.highshelf 0)).Flat := by
  constructor <;> simp [rawCoef_highshelf, gainA_zero]

/-- Coefficients that pass the signal unchanged. -/
structure Coef.Identity (c : Coef ℝ) : Prop where
  b0 : c.b0 = 1
  b1 : c.b1 = c.a1
  b2 : c.b2 = c.a2

/-- So are those of a flat set, divided by `A0`. -/
theorem RawCoef.Flat.normalize {r : RawCoef ℝ} (h : r.Flat) (ha0 : r.a0 ≠ 0) : (r.normalize numReal).Identity where
  b0 := by simp [RawCoef.normalize, h.b0, ha0]
  b1 := by simp [RawCoef.normalize, h.b1]
  b2 := by simp [RawCoef.normalize, h.b2]

/-- A biquad with such a set, whose past outputs are its past inputs, puts out its input, and stays so (R157). -/
theorem Coef.Identity.biquadRun_eq {c : Coef ℝ} (h : c.Identity) (u v : ℝ) (xs : List ℝ) :
    biquadRun numReal c { x1 := u, x2 := v, y1 := u, y2 := v } xs = xs := by
  induction xs generalizing u v with
  | nil => rfl
  | cons x xs ih =>
    have hout : biquadOut numReal c { x1 := u, x2 := v, y1 := u, y2 := v } x = x := by
      simp only [biquadOut, numReal_sub, numReal_add, numReal_mul, h.b0, h.b1, h.b2]
      ring
    simp only [biquadRun, biquad, hout, ih x u]

/-- Settles O58: at 0 dB the numerator of the three types is their denominator. -/
theorem zeroGainIsIdentity : Obligations.ZeroGainIsIdentity := by
  intro fs fMin fMax f q hb hq
  have h := upperHalf_omega hb f
  have peaking := (flat_peaking_zero _ _ q).normalize (rawCoef_a0_pos h (shape := .peaking q 0) hq).ne'
  have lowshelf := (flat_lowshelf_zero _ _).normalize (rawCoef_a0_pos h (shape := .lowshelf 0) trivial).ne'
  have highshelf := (flat_highshelf_zero _ _).normalize (rawCoef_a0_pos h (shape := .highshelf 0) trivial).ne'
  exact ⟨⟨peaking.b0, peaking.b1, peaking.b2, peaking.biquadRun_eq⟩,
    ⟨lowshelf.b0, lowshelf.b1, lowshelf.b2, lowshelf.biquadRun_eq⟩,
    ⟨highshelf.b0, highshelf.b1, highshelf.b2, highshelf.biquadRun_eq⟩⟩

end Sys2Proof.Machine
end

section
/-! PROOFS. The transfer functions of the six filter types (41_biquad.md R159): the value at frequency 0 and at `FS/2`, and the
magnitude at the cutoff and of the allpass everywhere. -/

namespace Sys2Proof.Machine

/-! ## Numerator and denominator -/

/-- `p + q z⁻¹ + r z⁻²`. -/
noncomputable def quadratic (p q r : ℝ) (z : ℂ) : ℂ := p + q * z⁻¹ + r * z⁻¹ ^ 2

/-- `|p + q z⁻¹ + r z⁻²|²` at the point `x + i y` of the unit circle. -/
def powerAt (p q r x y : ℝ) : ℝ := ((p + r) * x + q) ^ 2 + ((p - r) * y) ^ 2

/-- The division by `A0` leaves the transfer function. -/
theorem transfer_normalize {r : RawCoef ℝ} (h : r.a0 ≠ 0) (z : ℂ) :
    transfer (r.normalize numReal) z = quadratic r.b0 r.b1 r.b2 z / quadratic r.a0 r.a1 r.a2 z := by
  have ha0 : (r.a0 : ℂ) ≠ 0 := Complex.ofReal_ne_zero.mpr h
  simp only [transfer, RawCoef.normalize, numReal_div, Complex.ofReal_div, quadratic]
  rw [← mul_div_mul_left _ _ ha0]
  congr 1 <;> field_simp

/-- On the unit circle `z (p + q z⁻¹ + r z⁻²)` is `p z + q + r z̄`, of real part `(p + r) x + q` and imaginary part
`(p − r) y`. -/
theorem norm_quadratic_sq (p q r : ℝ) {z : ℂ} (hz : ‖z‖ = 1) : ‖quadratic p q r z‖ ^ 2 = powerAt p q r z.re z.im := by
  have hne : z ≠ 0 := norm_ne_zero_iff.mp (by simp [hz])
  have hturn : quadratic p q r z * z = ⟨(p + r) * z.re + q, (p - r) * z.im⟩ := by
    calc quadratic p q r z * z = p * z + q + r * z⁻¹ := by
          unfold quadratic
          field_simp
      _ = ⟨(p + r) * z.re + q, (p - r) * z.im⟩ := by
          rw [Complex.inv_eq_conj hz]
          apply Complex.ext <;> simp <;> ring
  have hnorm : ‖quadratic p q r z‖ = ‖quadratic p q r z * z‖ := by rw [norm_mul, hz, mul_one]
  rw [hnorm, hturn, Complex.sq_norm, Complex.normSq_mk, powerAt]
  ring

/-- A factor of the polynomial is squared in its power. -/
theorem powerAt_scaled (k p q r x y : ℝ) : powerAt (k * p) (k * q) (k * r) x y = k ^ 2 * powerAt p q r x y := by
  unfold powerAt
  ring

theorem powerAt_symmetric (p q x y : ℝ) : powerAt p q p x y = (2 * p * x + q) ^ 2 := by
  unfold powerAt
  ring

/-- The denominator of every type that is no shelf, with the cosine `c` of the cutoff. -/
theorem powerAt_resonant (α c x y : ℝ) :
    powerAt (1 + α) (-(2 * c)) (1 - α) x y = (2 * (x - c)) ^ 2 + (2 * α * y) ^ 2 := by
  unfold powerAt
  ring

/-- At the cutoff its real part vanishes. -/
theorem powerAt_resonant_self (α x y : ℝ) : powerAt (1 + α) (-(2 * x)) (1 - α) x y = (2 * α * y) ^ 2 := by
  rw [powerAt_resonant]
  ring

/-- There it has `1 ÷ Q²` of the power of a lowpass or highpass numerator. -/
theorem sq_mul_resonant {q : ℝ} (hq : 0 < q) (sw : ℝ) : q ^ 2 * (2 * alphaQ numReal sw q * sw) ^ 2 = (sw ^ 2) ^ 2 := by
  simp only [alphaQ, numReal_div, numReal_mul, numReal_two]
  field_simp

section
variable {x y : ℝ} (hc : x ^ 2 + y ^ 2 = 1) (p m β : ℝ)
include hc

/-- Numerator of the low shelf, up to its factor `A`, and denominator of the high one: at the cutoff the real part is
`2 m y²`. -/
theorem powerAt_shelf_sub :
    powerAt (p - m * x + β) (2 * (m - p * x)) (p - m * x - β) x y = (2 * m * y ^ 2) ^ 2 + (2 * β * y) ^ 2 := by
  have hre : (p - m * x + β + (p - m * x - β)) * x + 2 * (m - p * x) = 2 * m * y ^ 2 := by
    linear_combination (-2 * m) * hc
  rw [powerAt, hre]
  ring

/-- Numerator of the high shelf and denominator of the low one: the real part is the negative of that, the power the same. -/
theorem powerAt_shelf_add :
    powerAt (p + m * x + β) (-(2 * (m + p * x))) (p + m * x - β) x y = (2 * m * y ^ 2) ^ 2 + (2 * β * y) ^ 2 := by
  have hre : (p + m * x + β + (p + m * x - β)) * x + -(2 * (m + p * x)) = -(2 * m * y ^ 2) := by
    linear_combination (2 * m) * hc
  rw [powerAt, hre]
  ring

end

/-! ## The coefficients of one filter -/

/-- The coefficients of a filter whose cutoff is the angle `θ` on the unit circle (R154). -/
noncomputable def coefAt (θ : ℝ) (shape : Shape ℝ) : Coef ℝ :=
  (rawCoef numReal (Real.cos θ) (Real.sin θ) shape).normalize numReal

/-- The gains at frequency 0 and at `FS/2` are the real numbers `k₀` and `k₁`. -/
structure Gains (c : Coef ℝ) (k₀ k₁ : ℝ) : Prop where
  zero : transfer c 1 = k₀
  nyquist : transfer c (-1) = k₁

theorem coef_eq_coefAt (fs fMin fMax f : ℝ) (shape : Shape ℝ) :
    coef numReal fs fMin fMax shape f = coefAt (omega numReal fs fMin fMax f) shape := rfl

section
variable {θ : ℝ} (h : UpperHalf (Real.cos θ) (Real.sin θ))
include h

section
variable {shape : Shape ℝ} (hq : shape.PositiveQ)
include hq

/-- The magnitude at the angle `φ` is the root of the quotient of the powers of numerator and denominator. -/
theorem norm_transfer_eq {φ k : ℝ} (hk : 0 ≤ k)
    (hden : let r := rawCoef numReal (Real.cos θ) (Real.sin θ) shape
      powerAt r.a0 r.a1 r.a2 (Real.cos φ) (Real.sin φ) ≠ 0)
    (hnum : let r := rawCoef numReal (Real.cos θ) (Real.sin θ) shape
      powerAt r.b0 r.b1 r.b2 (Real.cos φ) (Real.sin φ) = k ^ 2 * powerAt r.a0 r.a1 r.a2 (Real.cos φ) (Real.sin φ)) :
    ‖transfer (coefAt θ shape) (Complex.exp (φ * Complex.I))‖ = k := by
  have hpower (p q s : ℝ) :
      ‖quadratic p q s (Complex.exp (φ * Complex.I))‖ ^ 2 = powerAt p q s (Real.cos φ) (Real.sin φ) := by
    rw [norm_quadratic_sq p q s (Complex.norm_exp_ofReal_mul_I φ), Complex.exp_ofReal_mul_I_re, Complex.exp_ofReal_mul_I_im]
  rw [← sq_eq_sq₀ (norm_nonneg _) hk, coefAt, transfer_normalize (rawCoef_a0_pos h hq).ne', norm_div, div_pow, hpower, hpower,
    hnum, mul_div_cancel_right₀ _ hden]

/-- The gains at frequency 0 and at `FS/2` are the quotients of the sums and of the alternating sums. -/
theorem gains_of {k₀ k₁ : ℝ}
    (hzero : let r := rawCoef numReal (Real.cos θ) (Real.sin θ) shape
      0 < r.a0 + r.a1 + r.a2 ∧ r.b0 + r.b1 + r.b2 = k₀ * (r.a0 + r.a1 + r.a2))
    (hnyquist : let r := rawCoef numReal (Real.cos θ) (Real.sin θ) shape
      0 < r.a0 - r.a1 + r.a2 ∧ r.b0 - r.b1 + r.b2 = k₁ * (r.a0 - r.a1 + r.a2)) :
    Gains (coefAt θ shape) k₀ k₁ := by
  have ha0 := (rawCoef_a0_pos h hq).ne'
  have one (p q s : ℝ) : quadratic p q s 1 = ((p + q + s : ℝ) : ℂ) := by simp [quadratic]
  have negOne (p q s : ℝ) : quadratic p q s (-1) = ((p - q + s : ℝ) : ℂ) := by simp [quadratic, sub_eq_add_neg]
  obtain ⟨hden₀, hnum₀⟩ := hzero
  obtain ⟨hden₁, hnum₁⟩ := hnyquist
  constructor
  · rw [coefAt, transfer_normalize ha0, one, one, hnum₀, ← Complex.ofReal_div, mul_div_cancel_right₀ _ hden₀.ne']
  · rw [coefAt, transfer_normalize ha0, negOne, negOne, hnum₁, ← Complex.ofReal_div, mul_div_cancel_right₀ _ hden₁.ne']

end

/-! ## At the cutoff -/

section
variable {q : ℝ} (hq : 0 < q) (g : ℝ)
include hq

theorem norm_transfer_lowpass : ‖transfer (coefAt θ (.lowpass q)) (Complex.exp (θ * Complex.I))‖ = q := by
  have hs := h.pos
  have hα := alphaQ_pos hs hq
  have hre : 2 * ((1 - Real.cos θ) / 2) * Real.cos θ + (1 - Real.cos θ) = Real.sin θ ^ 2 := by linear_combination -h.circle
  apply norm_transfer_eq h (shape := .lowpass q) hq hq.le <;> simp only [rawCoef_lowpass, powerAt_resonant_self]
  · positivity
  · rw [powerAt_symmetric, hre, sq_mul_resonant hq]

theorem norm_transfer_highpass : ‖transfer (coefAt θ (.highpass q)) (Complex.exp (θ * Complex.I))‖ = q := by
  have hs := h.pos
  have hα := alphaQ_pos hs hq
  have hre : 2 * ((1 + Real.cos θ) / 2) * Real.cos θ + -(1 + Real.cos θ) = -Real.sin θ ^ 2 := by
    linear_combination h.circle
  apply norm_transfer_eq h (shape := .highpass q) hq hq.le <;> simp only [rawCoef_highpass, powerAt_resonant_self]
  · positivity
  · rw [powerAt_symmetric, hre, neg_sq, sq_mul_resonant hq]

theorem norm_transfer_peaking :
    ‖transfer (coefAt θ (.peaking q g)) (Complex.exp (θ * Complex.I))‖ = gainA numReal g ^ 2 := by
  have hs := h.pos
  have hα := alphaQ_pos hs hq
  have hA := gainA_pos g
  apply norm_transfer_eq h (shape := .peaking q g) hq (sq_nonneg _) <;> simp only [rawCoef_peaking, powerAt_resonant_self]
  · positivity
  · field_simp

omit hq in
theorem norm_transfer_lowshelf :
    ‖transfer (coefAt θ (.lowshelf g)) (Complex.exp (θ * Complex.I))‖ = gainA numReal g := by
  have hs := h.pos
  have hA := gainA_pos g
  have hβ := shelfBeta_pos hs hA
  apply norm_transfer_eq h (shape := .lowshelf g) trivial hA.le <;>
    simp only [rawCoef_lowshelf, powerAt_scaled, powerAt_shelf_sub h.circle, powerAt_shelf_add h.circle]
  positivity

omit hq in
theorem norm_transfer_highshelf :
    ‖transfer (coefAt θ (.highshelf g)) (Complex.exp (θ * Complex.I))‖ = gainA numReal g := by
  have hs := h.pos
  have hA := gainA_pos g
  have hβ := shelfBeta_pos hs hA
  apply norm_transfer_eq h (shape := .highshelf g) trivial hA.le <;>
    simp only [rawCoef_highshelf, powerAt_scaled, powerAt_shelf_sub h.circle, powerAt_shelf_add h.circle]
  positivity

/-! ## Everywhere -/

/-- The allpass has the magnitude 1 at every angle: its numerator is the mirrored denominator, which has no root on the
circle, since its real part vanishes at the cutoff alone and its imaginary part does not there. -/
theorem norm_transfer_allpass (φ : ℝ) : ‖transfer (coefAt θ (.allpass q)) (Complex.exp (φ * Complex.I))‖ = 1 := by
  have hα := alphaQ_pos h.pos hq
  apply norm_transfer_eq h (shape := .allpass q) hq zero_le_one <;> simp only [rawCoef_allpass]
  · rw [powerAt_resonant]
    by_cases hφ : Real.sin φ = 0
    · have hcos : Real.cos φ - Real.cos θ ≠ 0 := by
        intro heq
        have hsq : Real.cos θ ^ 2 = 1 := by rw [← sub_eq_zero.mp heq, ← Real.cos_sq_add_sin_sq φ, hφ]; ring
        exact h.pos.ne' (by simpa [hsq] using h.circle)
      positivity
    · positivity
  · unfold powerAt
    ring

/-! ## At frequency 0 and at `FS/2` -/

theorem gains_lowpass : Gains (coefAt θ (.lowpass q)) 1 0 := by
  apply gains_of h (shape := .lowpass q) hq <;> simp only [rawCoef_lowpass]
  · exact ⟨by linarith [h.one_sub_pos], by ring⟩
  · exact ⟨by linarith [h.one_add_pos], by ring⟩

theorem gains_highpass : Gains (coefAt θ (.highpass q)) 0 1 := by
  apply gains_of h (shape := .highpass q) hq <;> simp only [rawCoef_highpass]
  · exact ⟨by linarith [h.one_sub_pos], by ring⟩
  · exact ⟨by linarith [h.one_add_pos], by ring⟩

theorem gains_peaking : Gains (coefAt θ (.peaking q g)) 1 1 := by
  apply gains_of h (shape := .peaking q g) hq <;> simp only [rawCoef_peaking]
  · exact ⟨by linarith [h.one_sub_pos], by ring⟩
  · exact ⟨by linarith [h.one_add_pos], by ring⟩

omit hq in
theorem gains_lowshelf : Gains (coefAt θ (.lowshelf g)) (gainA numReal g ^ 2) 1 := by
  apply gains_of h (shape := .lowshelf g) trivial <;> simp only [rawCoef_lowshelf]
  · exact ⟨by linarith [h.one_sub_pos], by ring⟩
  · exact ⟨by linarith [mul_pos (gainA_pos g) h.one_add_pos], by ring⟩

omit hq in
theorem gains_highshelf : Gains (coefAt θ (.highshelf g)) 1 (gainA numReal g ^ 2) := by
  apply gains_of h (shape := .highshelf g) trivial <;> simp only [rawCoef_highshelf]
  · exact ⟨by linarith [mul_pos (gainA_pos g) h.one_sub_pos], by ring⟩
  · exact ⟨by linarith [h.one_add_pos], by ring⟩

end

end

/-- Settles O56: at the cutoff the real or the imaginary part of each polynomial vanishes, and a shelf's two have one power up
to `A²`. -/
theorem magnitudeAtCutoff : Obligations.MagnitudeAtCutoff := by
  intro fs fMin fMax f q g hb hq
  have h := upperHalf_omega hb f
  simp only [← gainA_real, coef_eq_coefAt, atCutoff]
  exact ⟨norm_transfer_lowpass h hq, norm_transfer_highpass h hq, norm_transfer_peaking h hq g, norm_transfer_lowshelf h g,
    norm_transfer_highshelf h g⟩

/-- Settles O57: the allpass from its mirrored polynomials, the other five from the sums of their coefficients. -/
theorem gainsAtZeroAndNyquist : Obligations.GainsAtZeroAndNyquist := by
  intro fs fMin fMax f q g w hb hq
  have h := upperHalf_omega hb f
  obtain ⟨lp₀, lp₁⟩ := gains_lowpass h hq
  obtain ⟨hp₀, hp₁⟩ := gains_highpass h hq
  obtain ⟨pk₀, pk₁⟩ := gains_peaking h hq g
  obtain ⟨ls₀, ls₁⟩ := gains_lowshelf h g
  obtain ⟨hs₀, hs₁⟩ := gains_highshelf h g
  simp only [Complex.ofReal_one, Complex.ofReal_zero] at lp₀ lp₁ hp₀ hp₁ pk₀ pk₁ ls₁ hs₀
  simp only [← gainA_real, coef_eq_coefAt]
  exact ⟨norm_transfer_allpass h hq w, lp₀, lp₁, hp₀, hp₁, pk₀, pk₁, ls₀, ls₁, hs₀, hs₁⟩

end Sys2Proof.Machine
end

section
/-! PROOFS. The sine LFOs (42_lfo.md R181): the tick in any number system, and over the reals, where the wrap is the remainder
modulo a whole turn. -/

namespace Sys2Proof.Machine

/-! ## Any number system -/

section
variable {α : Type} (N : NumSys α)

/-- The guard line of R181. -/
theorem guardPhase_eq (p : α) : guardPhase N p = if N.lt p N.zero = true ∨ N.le N.twoPi p = true then N.zero else p := by
  simp only [guardPhase, Bool.or_eq_true]

/-- One tick is what the pseudocode of R181 says. -/
theorem lfoAdvanced_lfoTick (fs rate : α) (l : Lfo α) : LfoAdvanced N fs rate l (lfoTick N fs rate l) :=
  ⟨guardPhase_eq N _, rfl⟩

end

section
variable {α : Type} [DecidableEq α] (d : Device α) (b : Block α) (f : Frame α)

/-- Step 2 of TICK reads the rates step 1 has smoothed, which are those TICK leaves. -/
theorem tickBlock_lfo_eq : (tickBlock d b f).1.lfo =
    let par := (tickBlock d b f).1.par
    { pha := lfoTick d.num d.fs (par.s .phaRate).cur b.lfo.pha
      fla := lfoTick d.num d.fs (par.s .flaRate).cur b.lfo.fla
      cho := lfoTick d.num d.fs (par.s .choRate).cur b.lfo.cho } := rfl

end

/-! ## Over the reals -/

/-- The wrap is the remainder modulo `2π`, in `[0, 2π)`. -/
theorem wrapPhase_real (p : ℝ) : wrapPhase numReal p = toIcoMod Real.two_pi_pos 0 p := by
  simp only [wrapPhase, numReal_sub, numReal_mul, numReal_ofInt, numReal_floor, numReal_div, numReal_twoPi,
    toIcoMod, toIcoDiv_eq_floor, sub_zero, zsmul_eq_mul, mul_comm]

/-- The guard passes a phase of the interval. -/
theorem guardPhase_of_mem {p : ℝ} (h : p ∈ Set.Ico 0 (2 * Real.pi)) : guardPhase numReal p = p := by
  obtain ⟨hnonneg, hlt⟩ := h
  rw [guardPhase_eq, if_neg]
  simp only [numReal_lt, numReal_le, numReal_zero, numReal_twoPi, not_or, not_lt, not_le]
  exact ⟨hnonneg, hlt⟩

/-- So the guard never fires, and the new phase is the remainder of the advanced one. -/
theorem lfoTick_real_phase (fs rate : ℝ) (l : Lfo ℝ) :
    (lfoTick numReal fs rate l).phase = toIcoMod Real.two_pi_pos 0 (l.phase + 2 * Real.pi * rate * (1 / fs)) := by
  have hwrap : wrapPhase numReal (l.phase + 2 * Real.pi * rate * (1 / fs)) ∈ Set.Ico 0 (2 * Real.pi) := by
    rw [wrapPhase_real]
    exact toIcoMod_mem_Ico' _ _
  have hadvance : numReal.add l.phase (numReal.mul (numReal.mul numReal.twoPi rate) (numReal.dt fs)) =
      l.phase + 2 * Real.pi * rate * (1 / fs) := by
    simp [NumSys.dt]
  rw [lfoTick, hadvance, guardPhase_of_mem hwrap, wrapPhase_real]

/-- Settles O54: the phase is the remainder of the advanced phase modulo a turn, and its quotient the number of turns. -/
theorem lfoStaysOnCircle : Obligations.LfoStaysOnCircle := by
  intro fs rate l
  have hphase := lfoTick_real_phase fs rate l
  obtain ⟨hnonneg, hlt⟩ := toIcoMod_mem_Ico' Real.two_pi_pos (l.phase + 2 * Real.pi * rate * (1 / fs))
  refine ⟨hphase ▸ hnonneg, hphase ▸ hlt, rfl, Real.neg_one_le_sin _, Real.sin_le_one _,
    toIcoDiv Real.two_pi_pos 0 (l.phase + 2 * Real.pi * rate * (1 / fs)), ?_⟩
  rw [hphase, toIcoMod, zsmul_eq_mul, mul_comm ((_ : ℤ) : ℝ)]

/-- Settles O11: each LFO takes one tick at the rate this TICK has smoothed. -/
theorem tickAdvancesLfos : Obligations.TickAdvancesLfos := by
  intro f s
  refine ⟨tick f s, rfl, ?_⟩
  rw [tick_toBlock, tickBlock_lfo_eq]
  exact ⟨lfoAdvanced_lfoTick _ _ _ _, lfoAdvanced_lfoTick _ _ _ _, lfoAdvanced_lfoTick _ _ _ _⟩

end Sys2Proof.Machine
end

section
/-! PROOFS. The delay line (43_delayline.md R191 to R199): its read in any number system, and what the read is in one that is
exact, on every number or on the integers up to the capacity. -/

namespace Sys2Proof.Machine

/-- The comparison `=` is `<=` both ways (R194, log 9). -/
theorem numEq_iff {α : Type} (N : NumSys α) (a b : α) :
    N.eq a b = true ↔ N.le a b = true ∧ N.le b a = true := by
  simp only [NumSys.eq, Bool.and_eq_true]

/-! ## Any number system -/

section
variable {α : Type} (N : NumSys α) {cap w k : Nat} {m : Memory α} {d : α}

/-- The read position `r` of R193, for an offset of `d` samples. -/
def readPos (w : Nat) (d : α) : α := N.sub (N.ofInt w) d

/-- Its fraction `fr` (R193). -/
def readFrac (w : Nat) (d : α) : α := N.sub (readPos N w d) (N.ofInt (N.floor (readPos N w d)))

/-- The Sample written `k` ticks before the write index came to `w` (R191). -/
def sampleAgo (zero : α) (cap w : Nat) (m : Memory α) (k : Nat) : α := m.read zero (wrapIdx cap ((w : Int) - (k : Int)))

/-- R194: both branches of the read. -/
theorem readAt_eq (cap w : Nat) (m : Memory α) (d : α) : readAt N cap w m d =
    if N.eq (readFrac N w d) N.zero = true then m.read N.zero (wrapIdx cap (N.floor (readPos N w d)))
    else N.add (N.mul (m.read N.zero (wrapIdx cap (N.floor (readPos N w d)))) (N.sub N.one (readFrac N w d)))
      (N.mul (m.read N.zero (wrapIdx cap (N.floor (readPos N w d) + 1))) (readFrac N w d)) := rfl

variable {N}

/-- At the position `w − k` with no fraction the read is the Sample written `k` ticks ago. -/
theorem readAt_of_frac_zero (hpos : N.floor (readPos N w d) = (w : Int) - (k : Int))
    (hfrac : N.eq (readFrac N w d) N.zero = true) : readAt N cap w m d = sampleAgo N.zero cap w m k := by
  rw [readAt_eq, if_pos hfrac, hpos, sampleAgo]

/-- Between the positions `w − (k + 1)` and `w − k` the read mixes the Samples written `k + 1` and `k` ticks ago. -/
theorem readAt_of_frac_ne_zero (hpos : N.floor (readPos N w d) = (w : Int) - ((k + 1 : Nat) : Int))
    (hfrac : ¬ N.eq (readFrac N w d) N.zero = true) : readAt N cap w m d =
    N.add (N.mul (sampleAgo N.zero cap w m (k + 1)) (N.sub N.one (readFrac N w d)))
      (N.mul (sampleAgo N.zero cap w m k) (readFrac N w d)) := by
  have hnext : (w : Int) - ((k + 1 : Nat) : Int) + 1 = (w : Int) - (k : Int) := by omega
  rw [readAt_eq, if_neg hfrac, hpos, hnext, sampleAgo, sampleAgo]

end

/-! ## Exact number systems -/

section
variable {α : Type} {N : NumSys α} {r : α → ℝ} (h : Exact N r) {cap w k : Nat} {m : Memory α} {d : α}
include h

theorem Exact.eq_iff (a b : α) : N.eq a b = true ↔ r a = r b := by
  rw [numEq_iff, h.le, h.le, le_antisymm_iff]

/-- The offset in samples lies between 1 and the capacity (R192). -/
theorem Exact.delaySamples (hcap : 0 < cap) (fs off : α) :
    r (delaySamples N fs cap off) = max 1 (min (r off * r fs) cap) := by
  have hone : (1 : ℝ) ≤ cap := by exact_mod_cast hcap
  simp only [Machine.delaySamples, NumSys.clamp, h.lt, h.mul, h.one, h.ofInt, Int.cast_natCast, apply_ite r]
  split_ifs with hlow hhigh
  · rw [min_eq_left (by linarith), max_eq_left hlow.le]
  · rw [min_eq_right hhigh.le, max_eq_right hone]
  · rw [min_eq_left (not_lt.mp hhigh), max_eq_right (not_lt.mp hlow)]

/-- The integer position rounds the offset up: the older of the two Samples (R194). -/
theorem Exact.floor_readPos (w : Nat) (d : α) : N.floor (readPos N w d) = (w : Int) - ⌈r d⌉ := by
  rw [readPos, h.floor, h.sub, h.ofInt, sub_eq_add_neg, Int.floor_intCast_add, Int.floor_neg, sub_eq_add_neg]

/-- The fraction is what rounding up adds, the weight of the newer Sample. -/
theorem Exact.readFrac (w : Nat) (d : α) : r (readFrac N w d) = ⌈r d⌉ - r d := by
  rw [Machine.readFrac, h.sub, h.ofInt, h.floor_readPos, readPos, h.sub, h.ofInt]
  push_cast
  ring

/-- An offset of `k` samples reads the Sample written `k` ticks ago. -/
theorem Exact.readAt_of_eq (hd : r d = k) : readAt N cap w m d = sampleAgo N.zero cap w m k := by
  have hceil : ⌈r d⌉ = (k : Int) := by rw [hd, Int.ceil_natCast]
  apply readAt_of_frac_zero
  · rw [h.floor_readPos, hceil]
  · rw [h.eq_iff, h.readFrac, h.zero, hceil, hd, Int.cast_natCast, sub_self]

/-- An offset between `k` and `k + 1` samples weights the two Samples written then linearly. -/
theorem Exact.readAt_of_between (hlow : (k : ℝ) < r d) (hhigh : r d < k + 1) : r (readAt N cap w m d) =
    r (sampleAgo N.zero cap w m (k + 1)) * (r d - k) + r (sampleAgo N.zero cap w m k) * (1 - (r d - k)) := by
  have hceil : ⌈r d⌉ = ((k + 1 : Nat) : Int) := by
    rw [Int.ceil_eq_iff]
    push_cast
    constructor <;> linarith
  have hfrac : r (Machine.readFrac N w d) = 1 - (r d - k) := by
    rw [h.readFrac, hceil]
    push_cast
    ring
  rw [readAt_of_frac_ne_zero (k := k)]
  · rw [h.add, h.mul, h.mul, h.sub, h.one, hfrac, sub_sub_cancel]
  · rw [h.floor_readPos, hceil]
  · rw [h.eq_iff, hfrac, h.zero]
    linarith

end

/-! ## A line at a constant integer offset -/

section
variable {α : Type} {N : NumSys α} {cap k : Nat} {fs off : α}

/-- The Samples written `k` ticks ago to 1 tick ago, oldest first. -/
def lastSamples (zero : α) (cap w : Nat) (m : Memory α) : Nat → List α
  | 0 => []
  | k + 1 => sampleAgo zero cap w m (k + 1) :: lastSamples zero cap w m k

/-- An empty line holds zeros. -/
theorem lastSamples_nil (zero : α) (cap w k : Nat) : lastSamples zero cap w [] k = List.replicate k zero := by
  induction k with
  | zero => rfl
  | succ k ih => rw [lastSamples, ih, sampleAgo, Memory.read_nil, List.replicate_succ]

/-- The index `k` ticks back, before it wraps and after. -/
theorem wrapIdx_sub {w : Nat} (hw : w < cap) (hk : k ≤ cap) :
    wrapIdx cap ((w : Int) - (k : Int)) = if k ≤ w then w - k else w + cap - k := by
  unfold wrapIdx
  split_ifs with hle
  · rw [Int.emod_eq_of_lt (by omega) (by omega)]
    omega
  · rw [← Int.add_emod_right, Int.emod_eq_of_lt (by omega) (by omega)]
    omega

/-- Once the write index has advanced, the index `k + 1` ticks back is the one that was `k` ticks back. -/
theorem wrapIdx_advance (cap w k : Nat) :
    wrapIdx cap ((advance cap w : Int) - ((k + 1 : Nat) : Int)) = wrapIdx cap ((w : Int) - (k : Int)) := by
  rw [wrapIdx, advance, Int.natCast_mod, Int.emod_sub_emod, wrapIdx]
  congr 2
  omega

section
variable [DecidableEq α] {w : Nat} {m : Memory α} (hm : m.wf N.zero cap = true) (hw : w < cap) (x : α)
include hm hw

/-- The Sample just written is the latest (R191, R196). -/
theorem sampleAgo_one_dlWrite : sampleAgo N.zero cap (advance cap w) (dlWrite N w m x) 1 = x := by
  have hindex : wrapIdx cap ((w : Int) - ((0 : Nat) : Int)) = w := by
    rw [wrapIdx_sub hw (Nat.zero_le cap), if_pos (Nat.zero_le w), Nat.sub_zero]
  rw [sampleAgo, wrapIdx_advance, hindex, dlWrite, Memory.read_write _ hm, if_pos rfl]

/-- Every other Sample of the line is one tick older. -/
theorem sampleAgo_succ_dlWrite (hk : 1 ≤ k) (hlt : k < cap) :
    sampleAgo N.zero cap (advance cap w) (dlWrite N w m x) (k + 1) = sampleAgo N.zero cap w m k := by
  have hindex : wrapIdx cap ((w : Int) - (k : Int)) ≠ w := by
    rw [wrapIdx_sub hw hlt.le]
    split_ifs <;> omega
  rw [sampleAgo, wrapIdx_advance, dlWrite, read_write_ne hm hindex, sampleAgo]

/-- A tick appends its input to the last Samples. -/
theorem lastSamples_dlWrite (hlt : k < cap) :
    lastSamples N.zero cap (advance cap w) (dlWrite N w m x) (k + 1) = lastSamples N.zero cap w m k ++ [x] := by
  induction k with
  | zero => simp only [lastSamples, zero_add, sampleAgo_one_dlWrite hm hw x, List.nil_append]
  | succ k ih =>
    rw [lastSamples, sampleAgo_succ_dlWrite hm hw x (by omega) hlt, ih (by omega), lastSamples, List.cons_append]

end

section
variable (h : IntegersExact N cap) (hoff : N.mul off fs = N.ofInt k) (hk : 1 ≤ k) (hkcap : k ≤ cap)
include h hoff hk hkcap

/-- The clamp leaves an integer offset within the line (R192). -/
theorem IntegersExact.delaySamples : delaySamples N fs cap off = N.ofInt k := by
  have hlow : N.lt (N.ofInt k) N.one = false := by
    have hlt := h.lt k 1 hkcap (by omega)
    rw [Nat.cast_one, ← h.one] at hlt
    rw [hlt, decide_eq_false (by omega)]
  have hhigh : N.lt (N.ofInt cap) (N.ofInt k) = false := by
    rw [h.lt cap k le_rfl hkcap, decide_eq_false (by omega)]
  simp [Machine.delaySamples, NumSys.clamp, hoff, hlow, hhigh]

/-- A read at an integer offset of `k` samples is the Sample written `k` ticks ago (R194). -/
theorem IntegersExact.dlRead {w : Nat} (hw : w < cap) (m : Memory α) :
    dlRead N fs cap w m off = sampleAgo N.zero cap w m k := by
  have hpos : readPos N w (N.ofInt k) = N.ofInt ((w : Int) - (k : Int)) := h.sub w k hw.le hkcap
  have hfloor : N.floor (N.ofInt ((w : Int) - (k : Int))) = (w : Int) - (k : Int) := h.floor _ (by omega) (by omega)
  rw [Machine.dlRead, h.delaySamples hoff hk hkcap]
  apply readAt_of_frac_zero
  · rw [hpos, hfloor]
  · rw [numEq_iff, readFrac, hpos, hfloor]
    exact h.subSelf _ (by omega) (by omega)

/-- From any content, the line gives its last `k` Samples, oldest first, and then the input. -/
theorem IntegersExact.lineRun_eq [DecidableEq α] (xs : List α) {w : Nat} {m : Memory α} (hw : w < cap)
    (hm : m.wf N.zero cap = true) :
    lineRun N fs cap off xs w m = (lastSamples N.zero cap w m k ++ xs).take xs.length := by
  obtain ⟨j, rfl⟩ : ∃ j, k = j + 1 := ⟨k - 1, by omega⟩
  induction xs generalizing w m with
  | nil => rfl
  | cons x xs ih =>
    have hm' : (dlWrite N w m x).wf N.zero cap = true := Memory.wf_write _ hm hw x
    rw [lineRun, h.dlRead hoff hk hkcap hw, ih (advance_lt (by omega)) hm', lastSamples_dlWrite hm hw x (by omega),
      lastSamples, List.append_assoc, List.singleton_append, List.length_cons, List.cons_append, List.take_succ_cons]

end

end

/-- Settles O16: the offset is the clamp of R192, and the two clauses are the two branches of R194. -/
theorem delayReadFormula : Obligations.DelayReadFormula := by
  intro α N fs off cap w m v d r fr a b
  have hfrac : N.eq fr N.zero = true ↔ N.le fr N.zero = true ∧ N.le N.zero fr = true := numEq_iff N _ _
  have hread : dlRead N fs cap w m off =
      if N.eq fr N.zero = true then a else N.add (N.mul a (N.sub N.one fr)) (N.mul b fr) := readAt_eq N cap w m d
  exact ⟨fun h => hread.trans (if_pos (hfrac.mpr h)), fun h => hread.trans (if_neg (h ∘ hfrac.mp))⟩

/-- Settles O48: a run from the empty line, whose last Samples are zeros. -/
theorem delayLineRoundTrip : Obligations.DelayLineRoundTrip := by
  intro α _ N fs off cap k w xs h hoff hk hkcap hw
  rw [h.lineRun_eq hoff hk hkcap xs hw rfl, lastSamples_nil]

/-- Settles O49: the clamp of R192 leaves 1, the capacity or the offset itself, and the read weights by its distance from the
integers. -/
theorem delayReadInterpolates : Obligations.DelayReadInterpolates := by
  intro α N r cap w m fs off h hcap hw d ago
  have hsamples : r (delaySamples N fs cap off) = max 1 (min d cap) := h.delaySamples hcap fs off
  have hone : (1 : ℝ) ≤ cap := by exact_mod_cast hcap
  have integer {k : Nat} (hk : max 1 (min d cap) = k) : dlRead N fs cap w m off = ago k :=
    h.readAt_of_eq (hsamples.trans hk)
  refine ⟨fun hle => integer ?_, fun hge => integer ?_, fun k hk hkcap hd => integer ?_, fun k hk hkcap hlow hhigh => ?_⟩
  · rw [min_eq_left (hle.trans hone), max_eq_left hle, Nat.cast_one]
  · rw [min_eq_right hge, max_eq_right hone]
  · rw [hd, min_eq_left (by exact_mod_cast hkcap), max_eq_right (by exact_mod_cast hk)]
  · have hk' : (1 : ℝ) ≤ k := by exact_mod_cast hk
    have hkcap' : (k : ℝ) + 1 ≤ cap := by exact_mod_cast hkcap
    have hd : r (delaySamples N fs cap off) = d := by
      rw [hsamples, min_eq_left (by linarith), max_eq_right (by linarith)]
    have hread := h.readAt_of_between (cap := cap) (w := w) (m := m) (hd ▸ hlow) (hd ▸ hhigh)
    rwa [hd] at hread

end Sys2Proof.Machine
end

section
/-! PROOFS. The `SETP` commands of the effect stages (44_phaser.md R215 to R217, 45_flanger.md R230 to R232, 46_chorus.md R245,
R246, 47_feedback_delay.md R256 to R258, 48_reverb.md R271): the smoothed parameters, and the mixes with the gain targets they
move. -/

namespace Sys2Proof.Machine

/-! ## Smoothed parameters -/

/-- Settles O2: each of the seven words is that of its stage and parameter number, with the bounds of R21. -/
theorem effectParameterCommands : Obligations.EffectParameterCommands :=
  ⟨writesTarget_of (st := 5) (pr := 3) rfl (fun _ => rfl) (fun _ _ => rfl),
   writesTarget_of (st := 5) (pr := 4) rfl (fun _ => rfl) (fun _ _ => rfl),
   writesTarget_of (st := 6) (pr := 3) rfl (fun _ => rfl) (fun _ _ => rfl),
   writesTarget_of (st := 7) (pr := 3) rfl (fun _ => rfl) (fun _ _ => rfl),
   writesTarget_of (st := 6) (pr := 5) rfl (fun _ => rfl) (fun _ _ => rfl),
   writesTarget_of (st := 8) (pr := 7) rfl (fun _ => rfl) (fun _ _ => rfl),
   writesTarget_of (st := 8) (pr := 5) rfl (fun _ => rfl) (fun _ _ => rfl)⟩

/-! ## Held entries -/

/-- A `SETP` of the held entry `p` does what its rule says if its word is that of stage and parameter number `st` and `pr`: the
operand is clamped into the domain of `p`. -/
theorem writesHeld_of {mk : Val → Instr} {top : BitVec 32} {st pr : BitVec 4} {p : HParam}
    (htop : top = 1#4 ++ st ++ pr ++ 0#20) (hset : ∀ val, setpOf st.toNat pr.toNat val = some (mk val))
    (hexec : ∀ val s, exec (mk val) s = .next (s.onBlock (setpHeld s.device p val))) :
    WritesHeld mk top p (HParam.lo · p) (HParam.hi · p) := by
  intro val s v hv
  have hstore : setpHeld s.device p val s.toBlock = s.toBlock.setHeld p (p.legal s.device v) := by
    have hoperand : p.operand s.device val = some (p.legal s.device v) := congrArg (Option.map _) hv.value
    rw [setpHeld, hoperand]
  refine ⟨?_, _, hexec val s, ?_⟩
  · rw [append_eq_mkWord val htop]
    exact decode_setp (hset val) hv.notNaN
  rw [State.onBlock, hstore]
  refine ⟨rfl, ?_, fun q hq => ?_, fun q => ?_⟩
  · simp [HParam.legal]
  · simp [Params.setHeld_h, hq]
  · simp

/-! ## The mix entries and the gain targets -/

/-- The mix entry of an effect stage (10_state.md R21). -/
def mixEntry : Stage → Option HParam
  | .hpf | .lpf | .eql | .eqm | .eqh => none
  | .pha => some .phaMix
  | .fla => some .flaMix
  | .cho => some .choMix
  | .dly => some .dlyMix
  | .rev => some .revMix

/-- Two stages share no mix entry. -/
theorem mixEntry_inj {st q : Stage} {p : HParam} (hst : mixEntry st = some p) (hq : mixEntry q = some p) : q = st := by
  cases st <;> cases hst <;> cases q <;> cases hq <;> rfl

section
variable {α : Type} (N : NumSys α) (m : MixState α)

/-- The gain targets of a stage with a mix entry follow the effect policy of R126. -/
theorem gainTargets_of_mixEntry (par : Params α) {st : Stage} {p : HParam} (h : mixEntry st = some p) :
    gainTargets N par st m = effectTargets N m.active (par.h p) := by
  cases st <;> cases h <;> rfl

/-- The gain targets of a stage depend on no parameter but its mix entry. -/
theorem gainTargets_congr {par par' : Params α} {st : Stage} (h : ∀ p, mixEntry st = some p → par'.h p = par.h p) :
    gainTargets N par' st m = gainTargets N par st m := by
  cases hp : mixEntry st with
  | some p => rw [gainTargets_of_mixEntry N m _ hp, gainTargets_of_mixEntry N m _ hp, h p hp]
  | none => cases st <;> cases hp <;> rfl

end

/-- A command that writes the mix entry of `st`, and nothing else, moves the gain targets of `st` alone, at once. -/
theorem writesMix_of {mk : Val → Instr} {top : BitVec 32} {p : HParam} {st : Stage} (hmix : mixEntry st = some p)
    (hheld : WritesHeld mk top p (·.num.zero) (·.num.one)) : WritesMix mk top p st := by
  refine ⟨hheld, fun val s v hv => ?_⟩
  obtain ⟨-, t, hexec, hframe, hself, hother, -⟩ := hheld val s v hv
  have hsys : t.sys = s.sys := by rw [hframe]
  have hflags : t.mix = s.mix := by rw [hframe]
  have htargets : gainTargets t.sys t.par st (t.mix.of st) =
      effectTargets s.sys (s.mix.of st).active (s.sys.clamp v s.sys.zero s.sys.one) := by
    rw [gainTargets_of_mixEntry _ _ _ hmix, hself, hsys, hflags]
  have hothers (q : Stage) (hq : q ≠ st) :
      gainTargets t.sys t.par q (t.mix.of q) = gainTargets s.sys s.par q (s.mix.of q) := by
    rw [hsys, hflags]
    refine gainTargets_congr _ _ fun r hr => hother r ?_
    rintro rfl
    exact hq (mixEntry_inj hmix hr)
  exact ⟨t, hexec, (congrArg Prod.fst htargets).trans (apply_ite Prod.fst _ _ _),
    (congrArg Prod.snd htargets).trans (apply_ite Prod.snd _ _ _),
    fun q hq => ⟨congrArg Prod.fst (hothers q hq), congrArg Prod.snd (hothers q hq)⟩⟩

/-- Settles O3: each of the five writes the mix entry of its stage, a held entry over [0, 1]. -/
theorem mixCommands : Obligations.MixCommands :=
  ⟨writesMix_of rfl (writesHeld_of (st := 5) (pr := 6) rfl (fun _ => rfl) (fun _ _ => rfl)),
   writesMix_of rfl (writesHeld_of (st := 6) (pr := 6) rfl (fun _ => rfl) (fun _ _ => rfl)),
   writesMix_of rfl (writesHeld_of (st := 7) (pr := 6) rfl (fun _ => rfl) (fun _ _ => rfl)),
   writesMix_of rfl (writesHeld_of (st := 8) (pr := 6) rfl (fun _ => rfl) (fun _ _ => rfl)),
   writesMix_of rfl (writesHeld_of (st := 9) (pr := 6) rfl (fun _ => rfl) (fun _ _ => rfl))⟩

end Sys2Proof.Machine
end

section
/-! PROOFS. Steps 3 and 4 of TICK: the coefficient sets (41_biquad.md R156, 44_phaser.md R211). -/

namespace Sys2Proof.Machine

section
variable {α : Type} [DecidableEq α] (d : Device α) (b : Block α) (f : Frame α)

/-- Step 4 reads the parameters step 1 has smoothed and the LFO step 2 has advanced, which are those TICK leaves: computed
again from the block TICK leaves, every coefficient set is the same. -/
theorem tickBlock_coef_eq : (tickBlock d b f).1.coef = (coefAll d (tickBlock d b f).1).coef := rfl

end

/-- Settles O12: the sets of R156, with the parameters and the LFO value TICK leaves. -/
theorem tickUpdatesCoefficients : Obligations.TickUpdatesCoefficients := by
  intro f s
  refine ⟨tick f s, rfl, ?_⟩
  rw [tick_toBlock, tickBlock_coef_eq]
  exact ⟨rfl, rfl, rfl, rfl, rfl, rfl, rfl⟩

end Sys2Proof.Machine
end

section
/-! PROOFS. The wet paths of the flanger, the chorus and the feedback delay (45_flanger.md R226 to R228, 46_chorus.md R242,
R243, 47_feedback_delay.md R251 to R253). -/

namespace Sys2Proof.Machine

/-- A write to a line in canonical form stores its Sample at the write index and nothing elsewhere (43_delayline.md R196). -/
theorem stored_dlWrite {α : Type} [DecidableEq α] (N : NumSys α) {cap w : Nat} {m : Memory α} {v : α}
    (hm : m.wf N.zero cap = true) : Stored N.zero m (dlWrite N w m v) w v :=
  fun j => Memory.read_write N.zero hm w j v

/-- Settles O15: each wet path is one read of its line and one `dl_write`; the delay filters what it read before it stores. -/
theorem delayWetPaths : Obligations.DelayWetPaths := by
  intro α _ d b c ch x _ hch
  exact ⟨⟨_, _, rfl, rfl, stored_dlWrite d.num hch.dlFla⟩,
    ⟨_, _, rfl, rfl, stored_dlWrite d.num hch.dlCho⟩,
    _, _, _, _, rfl, rfl, filtered_biquad .., stored_dlWrite d.num hch.dlDly⟩

end Sys2Proof.Machine
end

section
/-! PROOFS. The regeneration of the impulse response, from request to publication (48_reverb.md R270, R273, R274, R276): the
command files a job, which replaces one in flight; IRGEN takes it. -/

namespace Sys2Proof.Machine

/-- Of two writes to a held entry the second is left. -/
@[simp] theorem Params.setHeld_setHeld {α : Type} (r : Params α) (p : HParam) (v w : α) :
    (r.setHeld p v).setHeld p w = r.setHeld p w := by
  cases p <;> rfl

section
variable {α : Type} {d : Device α} {val : Val} {v : α}

/-! ## The request -/

/-- An operand that is no NaN has a value to store (30_encoding.md R98). -/
theorem operand_of_not_nan (d : Device α) (p : HParam) (h : ¬ IsNaN val) : ∃ v, p.operand d val = some v := by
  cases hv : p.operand d val with
  | none => exact absurd ((isNaN_iff val).mpr (operand_none hv)) h
  | some v => exact ⟨v, rfl⟩

/-- The value is held, then the job is filed (R270). -/
theorem setpTime_of_operand (h : HParam.operand d .revTime val = some v) (b : Block α) :
    setpTime d val b = (b.setHeld .revTime v).setJob (some (reverbDuration d.num v)) := by
  simp [setpTime, h]

/-- A second request overwrites both registers the first one wrote (R276). -/
theorem setpTime_setpTime {val' : Val} (h : ¬ IsNaN val) (h' : ¬ IsNaN val') (b : Block α) :
    setpTime d val' (setpTime d val b) = setpTime d val' b := by
  obtain ⟨v, hv⟩ := operand_of_not_nan d .revTime h
  obtain ⟨w, hw⟩ := operand_of_not_nan d .revTime h'
  simp only [setpTime_of_operand hv, setpTime_of_operand hw, Block.setHeld, Block.setJob, Params.setHeld_setHeld]

end

theorem exec_setpRevTime (val : Val) (s : State) :
    exec (.setpRevTime val) s = .next (s.onBlock (setpTime s.device val)) := rfl

/-- Settles O4: the word is that of stage number 9 and parameter number 7, and the operand is clamped into [0, 1]. -/
theorem reverbTimeCommand : Obligations.ReverbTimeCommand := by
  intro val s v hv
  have hoperand : HParam.operand s.device .revTime val = some (s.sys.clamp v s.sys.zero s.sys.one) :=
    congrArg (Option.map _) hv.value
  have hword : 0x19700000#32 = 1#4 ++ 9#4 ++ 7#4 ++ 0#20 := rfl
  refine ⟨?_, _, exec_setpRevTime val s, ?_⟩
  · rw [append_eq_mkWord val hword]
    exact decode_setp rfl hv.notNaN
  rw [State.onBlock, setpTime_of_operand hoperand]
  refine ⟨rfl, ?_, ?_, fun q hq => ?_, fun q => ?_⟩
  · simp
  · simp [reverbDuration]
  · simp [Params.setHeld_h, hq]
  · simp

/-! ## The publication -/

/-- With a job in flight IRGEN publishes it (R273). -/
theorem exec_irgen_of_job {s : State} {dur : Scalar} (h : s.job = some dur) (draws : List Scalar) :
    exec (.irgen draws) s = .next { s with
      toBlock := publish s.device s.toBlock dur (drawAt s.device (draws.map s.cfg.num.read) s.rngPos)
      rngPos := s.rngPos + drawsUsed s.device s.toBlock (draws.map s.cfg.num.read) } := by
  simp only [exec, execIrgen, irgenStep, h]

/-- Settles O25: the second request leaves its own job alone, and IRGEN publishes once. -/
theorem laterRequestCancelsEarlier : Obligations.LaterRequestCancelsEarlier := by
  intro s t v1 v2 h1 h2 ht
  cases ht
  have hsame : exec (.setpRevTime v2) (s.onBlock (setpTime s.device v1)) = exec (.setpRevTime v2) s := by
    simp only [exec_setpRevTime, State.onBlock, setpTime_setpTime h1 h2]
  refine ⟨hsame, fun u draws w hu hw => ?_⟩
  cases hsame.symm.trans hu
  obtain ⟨v, hv⟩ := operand_of_not_nan s.device .revTime h2
  rw [State.onBlock, setpTime_of_operand hv, exec_irgen_of_job rfl] at hw
  cases hw
  rfl

/-! ## Completion under weak fairness -/

/-- On a constructed machine every entry answers a next state, and the configuration stays. -/
theorem runEvent_total {s : State} (h : checkCfg s.cfg = none) (e : Event) :
    ∃ t, runEvent e s = .next t ∧ t.cfg = s.cfg := by
  cases hd : deviceStep s.device (actOf s e) s.toBlock with
  | ok p =>
    obtain ⟨t, ht, hshows⟩ := runEvent_of_deviceStep hd
    exact ⟨t, ht, hshows.cfg⟩
  | error c =>
    cases e with
    | reset => cases (deviceStep_reset_of_none h).symm.trans hd
    | _ => cases hd

theorem trace_succ {sched : Nat → Event} {s t u : State} {n : Nat} (ht : trace sched s n = some t)
    (hu : runEvent (sched n) t = .next u) : trace sched s (n + 1) = some u := by
  simp [trace, ht, hu]

/-- A constructed machine has a state after every number of steps of a schedule, with the configuration it began with. -/
theorem trace_total {s : State} (h : checkCfg s.cfg = none) (sched : Nat → Event) (n : Nat) :
    ∃ t, trace sched s n = some t ∧ t.cfg = s.cfg := by
  induction n with
  | zero => exact ⟨s, rfl, rfl⟩
  | succ n ih =>
    obtain ⟨t, ht, hcfg⟩ := ih
    obtain ⟨u, hu, hcfg'⟩ := runEvent_total (hcfg ▸ h) (sched n)
    exact ⟨u, trace_succ ht hu, hcfg'.trans hcfg⟩

/-- A turn of IRGEN leaves no job in flight, whether it found one or none. -/
theorem runEvent_irgen_job {draws : List Scalar} {s t : State} (h : runEvent (.irgen draws) s = .next t) :
    t.job = none := by
  cases h
  rcases irgenStep_cases s.device s.toBlock (drawAt s.device (draws.map s.cfg.num.read) s.rngPos) with
    ⟨hnone, hstay⟩ | ⟨dur, _, hpub⟩
  · exact (congrArg Block.job hstay).trans hnone
  · exact congrArg Block.job hpub

/-- Settles O45: the turn fairness grants is one the machine can take, and it takes the job. -/
theorem fairJobIsCompleted : Obligations.FairJobIsCompleted := by
  intro s sched hc hfair n t ht hjob
  obtain ⟨m, hnm, ⟨draws, hturn⟩ | ⟨u, hu, hnone⟩⟩ := hfair n t ht hjob
  · obtain ⟨v, hv, hcfg⟩ := trace_total hc sched m
    obtain ⟨u, hu, -⟩ := runEvent_total (hcfg ▸ hc) (sched m)
    exact ⟨m + 1, u, by omega, trace_succ hv hu, runEvent_irgen_job (hturn ▸ hu)⟩
  · exact ⟨m, u, hnm, hu, hnone⟩

end Sys2Proof.Machine
end

section
/-! PROOFS. The wet path of the reverb (48_reverb.md R267 to R269): the history store and the convolution of one tick, and the
convolution over a run. -/

namespace Sys2Proof.Machine

/-! ## The sum -/

section
variable {α : Type} (N : NumSys α)

/-- The sum in ascending order: it starts from zero, and its last term is added last (R268). -/
theorem convolve_zero (ir hist : Nat → α) : convolve N 0 ir hist = N.zero := rfl

theorem convolve_succ (len : Nat) (ir hist : Nat → α) :
    convolve N (len + 1) ir hist = N.add (convolve N len ir hist) (N.mul (ir len) (hist len)) := by
  rw [convolve, List.range_succ, List.foldl_append]
  rfl

/-- The sum asks the history for the values below its length. -/
theorem convolve_congr {len : Nat} (ir : Nat → α) {hist hist' : Nat → α} (h : ∀ k, k < len → hist k = hist' k) :
    convolve N len ir hist = convolve N len ir hist' := by
  induction len with
  | zero => rfl
  | succ len ih => rw [convolve_succ, convolve_succ, ih fun k hk => h k (by omega), h len (by omega)]

/-- In an exact number system the order of the sum is of no matter. -/
theorem Exact.convolve {N : NumSys α} {r : α → ℝ} (h : Exact N r) (len : Nat) (ir hist : Nat → α) :
    r (convolve N len ir hist) = ∑ k ∈ Finset.range len, r (ir k) * r (hist k) := by
  induction len with
  | zero => rw [convolve_zero, h.zero, Finset.sum_range_zero]
  | succ len ih => rw [convolve_succ, h.add, h.mul, ih, Finset.sum_range_succ]

end

/-- Settles O17: the partial sums of R268 are the convolutions of shorter impulse responses. -/
theorem reverbWetPath : Obligations.ReverbWetPath := by
  intro α _ d b c ch x _ hch N bank ir
  let m := ch.hist.write N.zero b.hw x
  exact ⟨m, fun len => convolve N len (ir.read N.zero) fun k => m.read N.zero (wrapIdx d.irCap ((b.hw : Int) - (k : Int))),
    rfl, stored_dlWrite N hch.hist, rfl, fun k _ => convolve_succ N k _ _⟩

/-! ## A run -/

section
variable {α : Type} [DecidableEq α] {N : NumSys α} {cap hw : Nat} {m : Memory α}

/-- The Sample put in `k` ticks before tick `n` of a run with the inputs `xs`, from the history `m`: an input of the run, or,
before its start, what the history held. -/
def inputAgo (zero : α) (cap hw : Nat) (m : Memory α) (xs : List α) (n k : Nat) : α :=
  if k ≤ n then xs[n - k]?.getD zero else sampleAgo zero cap hw m (k - n)

omit [DecidableEq α] in
/-- Once the index has advanced, every Sample is one tick older. -/
theorem sampleAgo_advance (zero : α) (cap hw : Nat) (m : Memory α) (k : Nat) :
    sampleAgo zero cap (advance cap hw) m (k + 1) = sampleAgo zero cap hw m k := by
  rw [sampleAgo, wrapIdx_advance, sampleAgo]

section
variable (hm : m.wf N.zero cap = true) (hlt : hw < cap) (x : α)
include hm hlt

/-- In the first tick the history holds the input of the tick and the older Samples. -/
theorem sampleAgo_write {k : Nat} (hk : k < cap) (xs : List α) :
    sampleAgo N.zero cap hw (m.write N.zero hw x) k = inputAgo N.zero cap hw m (x :: xs) 0 k := by
  rw [← sampleAgo_advance]
  cases k with
  | zero => exact sampleAgo_one_dlWrite hm hlt x
  | succ k => exact sampleAgo_succ_dlWrite hm hlt x (by omega) hk

/-- A later tick of the run is a tick of the run that starts one tick later, with the first input in its history. -/
theorem inputAgo_succ {n k : Nat} (hk : k < cap) (xs : List α) :
    inputAgo N.zero cap (advance cap hw) (m.write N.zero hw x) xs n k = inputAgo N.zero cap hw m (x :: xs) (n + 1) k := by
  unfold inputAgo
  rcases Nat.lt_trichotomy k (n + 1) with hle | rfl | hgt
  · rw [if_pos (by omega), if_pos hle.le, show n + 1 - k = n - k + 1 by omega, List.getElem?_cons_succ]
  · have hlast : sampleAgo N.zero cap (advance cap hw) (m.write N.zero hw x) 1 = x := sampleAgo_one_dlWrite hm hlt x
    rw [if_neg (by omega), if_pos le_rfl, Nat.add_sub_cancel_left, hlast, Nat.sub_self]
    rfl
  · obtain ⟨j, rfl⟩ : ∃ j, k = n + 1 + (j + 1) := ⟨k - n - 2, by omega⟩
    have holder : sampleAgo N.zero cap (advance cap hw) (m.write N.zero hw x) (j + 1 + 1) =
        sampleAgo N.zero cap hw m (j + 1) := sampleAgo_succ_dlWrite hm hlt x (by omega) (by omega)
    rw [if_neg (by omega), if_neg (by omega), show n + 1 + (j + 1) - n = j + 1 + 1 by omega, holder, Nat.add_sub_cancel_left]

end

/-- In every number system and from every history, output `n` of a run is the sum over the Samples put in up to tick `n`. -/
theorem reverbRun_getElem? {len : Nat} (hlen : len ≤ cap) (ir : Nat → α) (xs : List α) {n : Nat} (hn : n < xs.length)
    (hm : m.wf N.zero cap = true) (hlt : hw < cap) :
    (reverbRun N cap len ir xs hw m)[n]? = some (convolve N len ir (inputAgo N.zero cap hw m xs n)) := by
  induction xs generalizing n hw m with
  | nil => exact absurd hn (Nat.not_lt_zero n)
  | cons x xs ih =>
    cases n with
    | zero => exact congrArg some (convolve_congr N ir fun k hk => sampleAgo_write hm hlt x (by omega) xs)
    | succ n =>
      rw [reverbRun, List.getElem?_cons_succ,
        ih (Nat.lt_of_succ_lt_succ hn) (Memory.wf_write N.zero hm hlt x) (advance_lt (by omega))]
      exact congrArg some (convolve_congr N ir fun k hk => inputAgo_succ hm hlt x (by omega) xs)

end

/-- Settles O50: before a run from the empty history every Sample is 0. -/
theorem reverbConvolves : Obligations.ReverbConvolves := by
  intro α _ N r cap len hw ir xs n h hlen hlt hn
  refine ⟨_, reverbRun_getElem? hlen ir xs hn rfl hlt, ?_⟩
  rw [h.convolve]
  refine Finset.sum_congr rfl fun k _ => ?_
  rw [inputAgo, sampleAgo, Memory.read_nil, apply_ite r, h.zero]

end Sys2Proof.Machine
end

section
/-! PROOFS. The impulse response and its publication (48_reverb.md R266, R272, R273, R275, R277). -/

namespace Sys2Proof.Machine

/-! ## Length and channels -/

section
variable {α : Type} {N : NumSys α} {fs dur : α} {cap l n : Nat} (e : α) (u : Nat → α)

/-- A positive duration of at least one Sample has a length (R266). -/
theorem irLength_of_sounding (h : N.lt N.zero dur = true ∧ 1 ≤ N.floor (N.mul fs dur)) :
    irLength N fs cap dur = some (min (N.floor (N.mul fs dur)).toNat cap) := by
  simp only [irLength, if_pos h.1, if_neg (not_lt.mpr h.2)]

/-- Every other has none (R275). -/
theorem irLength_of_not_sounding (h : ¬ (N.lt N.zero dur = true ∧ 1 ≤ N.floor (N.mul fs dur))) :
    irLength N fs cap dur = none := by
  unfold irLength
  split_ifs with hpos
  · exact if_pos (not_le.mp fun hlen => h ⟨hpos, hlen⟩)
  · rfl

theorem gen_of_length (h : irLength N fs cap dur = some l) :
    gen N fs e cap u dur = (l, irChannel N e l u, irChannel N e l fun n => u (l + n)) := by
  simp only [gen, h]

theorem gen_of_no_length (h : irLength N fs cap dur = none) : gen N fs e cap u dur = (1, [N.zero], [N.zero]) := by
  simp only [gen, h]

/-- The length is that of the duration, whatever the draws; the silent buffer has one Sample (R277). -/
theorem gen_fst (fs dur : α) (cap : Nat) : (gen N fs e cap u dur).1 = (irLength N fs cap dur).getD 1 := by
  unfold gen
  cases irLength N fs cap dur <;> rfl

/-- Both channels have it. -/
theorem gen_channel_length (fs dur : α) (cap : Nat) :
    (gen N fs e cap u dur).2.1.length = (gen N fs e cap u dur).1 ∧
    (gen N fs e cap u dur).2.2.length = (gen N fs e cap u dur).1 := by
  unfold gen
  cases irLength N fs cap dur with
  | none => exact ⟨rfl, rfl⟩
  | some l => exact ⟨irChannel_length _ _ _, irChannel_length _ _ _⟩

/-- Sample `n` of a channel is its draw under the envelope (R266). -/
theorem irChannel_getElem? (h : n < l) : (irChannel N e l u)[n]? = some (N.mul (u n) (irEnvelope N e l n)) := by
  simp [irChannel, h]

end

/-! ## The envelope over the reals -/

theorem irEnvelope_real (e : ℝ) (l n : Nat) : irEnvelope numReal e l n = (1 - (n : ℝ) / l) ^ e := by
  simp [irEnvelope]

section
variable {e : ℝ} {l m n : Nat} (he : 0 < e)
include he

/-- The base `1 − n ÷ L` falls strictly, and a positive power is strictly monotone. -/
theorem irEnvelope_strictAnti (hmn : m < n) (hn : n < l) : irEnvelope numReal e l n < irEnvelope numReal e l m := by
  have hlast : (n : ℝ) / l ≤ 1 := div_le_one_of_le₀ (Nat.cast_le.mpr hn.le) (Nat.cast_nonneg l)
  have hrise : (m : ℝ) / l < n / l := div_lt_div_of_pos_right (Nat.cast_lt.mpr hmn) (Nat.cast_pos.mpr (by omega))
  rw [irEnvelope_real, irEnvelope_real]
  exact Real.rpow_lt_rpow (by linarith) (by linarith) he

theorem irEnvelope_unit (hn : n < l) : 0 ≤ irEnvelope numReal e l n ∧ irEnvelope numReal e l n ≤ 1 := by
  have hlast : (n : ℝ) / l ≤ 1 := div_le_one_of_le₀ (Nat.cast_le.mpr hn.le) (Nat.cast_nonneg l)
  have hfirst : 0 ≤ (n : ℝ) / l := by positivity
  rw [irEnvelope_real]
  exact ⟨Real.rpow_nonneg (by linarith) e, Real.rpow_le_one (by linarith) (by linarith) he.le⟩

/-- Draws in [−1, 1] stay there under it. -/
theorem irChannel_bounded {u : Nat → ℝ} (hu : ∀ n, -1 ≤ u n ∧ u n ≤ 1) :
    ∀ x ∈ irChannel numReal e l u, -1 ≤ x ∧ x ≤ 1 := by
  intro x hx
  obtain ⟨n, hn, rfl⟩ := List.mem_map.mp hx
  obtain ⟨hpos, hle⟩ := irEnvelope_unit he (List.mem_range.mp hn)
  rw [← abs_le, numReal_mul, abs_mul, abs_of_nonneg hpos]
  exact mul_le_one₀ (abs_le.mpr (hu n)) hpos hle

end

/-- Settles O51: the draws are no part of the length, and the envelope lies in [0, 1] and falls. -/
theorem impulseLengthAndDecay : Obligations.ImpulseLengthAndDecay := by
  refine ⟨fun α N fs e dur cap u v => ?_, fun e l m n he hmn hn => irEnvelope_strictAnti he hmn hn,
    fun fs e dur cap u he hu x hx => ?_⟩
  · have hsame : (gen N fs e cap u dur).1 = (gen N fs e cap v dur).1 := by rw [gen_fst, gen_fst]
    obtain ⟨hleft, hright⟩ := gen_channel_length (N := N) e u fs dur cap
    exact ⟨hsame, hleft, hright.trans hsame⟩
  · cases hlen : irLength numReal fs cap dur with
    | none =>
      rw [gen_of_no_length e u hlen] at hx
      obtain rfl : x = 0 := by simpa using hx
      norm_num
    | some l =>
      rw [gen_of_length e u hlen, List.mem_append] at hx
      rcases hx with hx | hx
      · exact irChannel_bounded he hu x hx
      · exact irChannel_bounded he (fun n => hu (l + n)) x hx

/-! ## The draws (R272, log 13) -/

section
variable {α : Type} {d : Device α} {us : List α} {pos n : Nat}

/-- A draw that is given is taken. -/
theorem drawAt_of_given {x : α} (h : (us.filter d.num.isDraw)[n]? = some x) : drawAt d us pos n = x := by
  simp only [drawAt, h]

/-- Past the end of those given it is a value of the source. -/
theorem drawAt_of_no_given (h : (us.filter d.num.isDraw)[n]? = none) :
    drawAt d us pos n = d.draw (pos + (n - (us.filter d.num.isDraw).length)) := by
  simp only [drawAt, h]

/-- Where 0 is a draw, every draw lies in the range. -/
theorem isDraw_drawAt (hzero : d.num.isDraw d.num.zero = true) : d.num.isDraw (drawAt d us pos n) = true := by
  cases h : (us.filter d.num.isDraw)[n]? with
  | some x =>
    rw [drawAt_of_given h]
    exact (List.mem_filter.mp (List.mem_of_getElem? h)).2
  | none =>
    rw [drawAt_of_no_given h, Device.draw]
    split_ifs with hsource
    · exact hsource
    · exact hzero

end

/-- The machine passes over the same values whether it asks before it reads them into its carrier or after. -/
theorem filter_isDraw_map_read (n : NumSel) (draws : List Scalar) :
    (draws.map n.read).filter n.sys.isDraw = (draws.filter n.sys.isDraw).map n.read := by
  rw [List.filter_map]
  congr 2
  exact funext (isDraw_read n)

/-! ## The publication -/

section
variable {α : Type} [DecidableEq α] (d : Device α) (b : Block α) (dur : α) (u : Nat → α)

/-- The impulse response the device makes of a duration and draws. -/
def impulse : Nat × List α × List α := gen d.num d.fs d.revDecay d.irCap u dur

/-- The bank a publication makes live. -/
def newBank : Bank α := if b.irSel then (publish d b dur u).bank0 else (publish d b dur u).bank1

/-- A publication writes the four registers of R273 and the banks. -/
theorem publish_frame : publish d b dur u =
    { b with irSel := !b.irSel, irLen := (impulse d dur u).1, irVer := b.irVer + 1, job := none,
             bank0 := (publish d b dur u).bank0, bank1 := (publish d b dur u).bank1 } := by
  cases h : b.irSel <;> simp [publish, impulse, Block.setShadow, h]

/-- The bank it makes live is the shadow bank, with the two channels written over it. -/
theorem newBank_eq : newBank d b dur u =
    { left := b.shadowBank.left.writeAll d.num.zero 0 (impulse d dur u).2.1
      right := b.shadowBank.right.writeAll d.num.zero 0 (impulse d dur u).2.2 } := by
  cases h : b.irSel <;> simp [newBank, publish, impulse, Block.setShadow, h]

variable {d b}

omit [DecidableEq α] in
theorem impulse_of_length {l : Nat} (h : irLength d.num d.fs d.irCap dur = some l) :
    impulse d dur u = (l, irChannel d.num d.revDecay l u, irChannel d.num d.revDecay l fun n => u (l + n)) :=
  gen_of_length _ _ h

omit [DecidableEq α] in
theorem impulse_of_no_length (h : irLength d.num d.fs d.irCap dur = none) :
    impulse d dur u = (1, [d.num.zero], [d.num.zero]) :=
  gen_of_no_length _ _ h

omit [DecidableEq α] in
theorem impulse_channel_length :
    (impulse d dur u).2.1.length = (impulse d dur u).1 ∧ (impulse d dur u).2.2.length = (impulse d dur u).1 :=
  gen_channel_length _ _ _ _ _

theorem Block.Inv.shadowBank (h : b.Inv d) : BankWf d b.shadowBank := by
  unfold Block.shadowBank
  split
  · exact h.bank0
  · exact h.bank1

section
variable (h : b.Inv d) {l n : Nat}
include h

/-- So it reads as the two channels as far as they go, and from there on as the shadow bank did. -/
theorem newBank_read (n : Nat) :
    (newBank d b dur u).left.read d.num.zero n =
      ((impulse d dur u).2.1[n]?).getD (b.shadowBank.left.read d.num.zero n) ∧
    (newBank d b dur u).right.read d.num.zero n =
      ((impulse d dur u).2.2[n]?).getD (b.shadowBank.right.read d.num.zero n) := by
  obtain ⟨-, hcap, -⟩ := gen_bounds (N := d.num) h.caps.ir d.fs d.revDecay dur u
  obtain ⟨hleft, hright⟩ := impulse_channel_length (d := d) dur u
  rw [newBank_eq, Memory.read_writeAll _ h.shadowBank.left _ (by rw [Nat.zero_add, hleft]; exact hcap),
    Memory.read_writeAll _ h.shadowBank.right _ (by rw [Nat.zero_add, hright]; exact hcap)]
  exact ⟨rfl, rfl⟩

/-- Below the length of the impulse response: the left channel has the first draws, the right channel those after them. -/
theorem newBank_read_of_length (hlen : irLength d.num d.fs d.irCap dur = some l) (hn : n < l) :
    (newBank d b dur u).left.read d.num.zero n = d.num.mul (u n) (irEnvelope d.num d.revDecay l n) ∧
    (newBank d b dur u).right.read d.num.zero n = d.num.mul (u (l + n)) (irEnvelope d.num d.revDecay l n) := by
  obtain ⟨hl, hr⟩ := newBank_read dur u h n
  simp only [impulse_of_length dur u hlen, irChannel_getElem? _ _ hn, Option.getD_some] at hl hr
  exact ⟨hl, hr⟩

/-- The silent buffer is one Sample, 0 (R275). -/
theorem newBank_read_of_no_length (hlen : irLength d.num d.fs d.irCap dur = none) :
    (newBank d b dur u).left.read d.num.zero 0 = d.num.zero ∧ (newBank d b dur u).right.read d.num.zero 0 = d.num.zero := by
  obtain ⟨hl, hr⟩ := newBank_read dur u h 0
  rw [impulse_of_no_length dur u hlen] at hl hr
  exact ⟨hl, hr⟩

/-- From the length on. -/
theorem newBank_read_of_le (hn : (impulse d dur u).1 ≤ n) :
    (newBank d b dur u).left.read d.num.zero n = b.shadowBank.left.read d.num.zero n ∧
    (newBank d b dur u).right.read d.num.zero n = b.shadowBank.right.read d.num.zero n := by
  obtain ⟨hleft, hright⟩ := impulse_channel_length (d := d) dur u
  obtain ⟨hl, hr⟩ := newBank_read dur u h n
  rw [List.getElem?_eq_none (hleft.trans_le hn)] at hl
  rw [List.getElem?_eq_none (hright.trans_le hn)] at hr
  exact ⟨hl, hr⟩

end

end

/-- Settles O24: the draws of R272 under the envelope of R266, or the silent buffer, written over the shadow bank. -/
theorem irgenPublishes : Obligations.IrgenPublishes := by
  intro s dur draws hinv hjob N inRange sounding
  let u := drawAt s.device (draws.map s.cfg.num.read) s.rngPos
  have hsound (h : sounding) : irLength N s.device.fs s.device.irCap dur = some (impulse s.device dur u).1 := by
    rw [impulse_of_length dur u (irLength_of_sounding h)]
    exact irLength_of_sounding h
  have hsilent (h : ¬ sounding) : irLength N s.device.fs s.device.irCap dur = none := irLength_of_not_sounding h
  refine ⟨_, u, (impulse s.device dur u).1, exec_irgen_of_job hjob draws, fun h => ?_, fun h => ?_, ?_, fun n x hx => ?_,
    fun hzero n => isDraw_drawAt (d := s.device) hzero, publish_liveUnwritten .., ?_⟩
  · exact Option.some.inj ((hsound h).symm.trans (irLength_of_sounding h))
  · rw [impulse_of_no_length dur u (hsilent h)]
  · exact congrArg (fun b : Block Scalar => ({ s with toBlock := b, rngPos := _ } : State))
      (publish_frame s.device s.toBlock dur u)
  · apply drawAt_of_given
    rw [filter_isDraw_map_read, List.getElem?_map]
    exact congrArg (Option.map _) hx
  intro old new shape n
  refine ⟨fun h hn => newBank_read_of_length dur u hinv (hsound h) hn, fun h hn => ?_, newBank_read_of_le dur u hinv⟩
  rw [impulse_of_no_length dur u (hsilent h)] at hn
  obtain rfl : n = 0 := Nat.lt_one_iff.mp hn
  exact newBank_read_of_no_length dur u hinv (hsilent h)

end Sys2Proof.Machine
end

section
/-! PROOFS. The four envelope parameters and the two envelope commands (49_adsr.md R294, R295, R303, R305 to R308). -/

namespace Sys2Proof.Machine

/-- Settles O5: each of the four words is that of stage number 10 and its parameter number, with the bounds of R21. -/
theorem envelopeCommands : Obligations.EnvelopeCommands :=
  ⟨writesHeld_of (st := 10) (pr := 8) rfl (fun _ => rfl) (fun _ _ => rfl),
   writesHeld_of (st := 10) (pr := 9) rfl (fun _ => rfl) (fun _ _ => rfl),
   writesHeld_of (st := 10) (pr := 10) rfl (fun _ => rfl) (fun _ _ => rfl),
   writesHeld_of (st := 10) (pr := 11) rfl (fun _ => rfl) (fun _ _ => rfl)⟩

section
variable {α : Type} (N : NumSys α) (fs rel : α) {e : Env α}

/-- `REL` starts the release at the amplitude as it stands (R295). -/
theorem envRel_of_active (h : e.ph = .attack ∨ e.ph = .decay ∨ e.ph = .sustain) :
    envRel N fs rel e = { e with start := e.amp, ph := .release, k := 0, n := phaseTicks N fs rel } := by
  rcases h with h | h | h <;> simp only [envRel, h]

/-- With nothing to release it does nothing (R295). -/
theorem envRel_of_released (h : e.ph = .idle ∨ e.ph = .release) : envRel N fs rel e = e := by
  rcases h with h | h <;> simp only [envRel, h]

end

theorem exec_trig (s : State) : exec .trig s = .next (s.onBlock (trigger s.device)) := rfl

theorem exec_rel (s : State) : exec .rel s = .next (s.onBlock (release s.device)) := rfl

/-- Settles O9, by the phase in which `REL` comes. -/
theorem trigAndRelStartPhases : Obligations.TrigAndRelStartPhases := by
  refine ⟨⟨by decide, fun s => ⟨_, exec_trig s, rfl, rfl⟩⟩, by decide, fun s =>
    ⟨_, exec_rel s, rfl, fun h => ?_, fun h => ?_⟩⟩
  · exact envRel_of_active _ _ _ h
  · have hstay : release s.device s.toBlock = s.toBlock := congrArg s.toBlock.setEnv (envRel_of_released _ _ _ h)
    exact congrArg (fun b : Block Scalar => ({ s with toBlock := b } : State)) hstay

end Sys2Proof.Machine
end

section
/-! PROOFS. The envelope tick by tick (49_adsr.md R296 to R302): one tick of each phase, a whole ramp, and
a full cycle. -/

namespace Sys2Proof.Machine

section
variable {α : Type} (N : NumSys α) (fs decay sustain : α)

/-! ## One tick -/

/-- The registers at the end of the ramp of a phase, whose `amp` is the level the ramp goes to; the phases Idle and Sustain
have no ramp (R298 to R302). -/
def rampEnd : Phase → Option (Env α)
  | .attack => some { ph := .decay, k := 0, n := phaseTicks N fs decay, start := N.one, amp := N.one }
  | .decay => some { ph := .sustain, k := 0, n := 1, start := sustain, amp := sustain }
  | .release => some { ph := .idle, k := 0, n := 1, start := N.zero, amp := N.zero }
  | .idle | .sustain => none

variable {e e' : Env α}

theorem envTick_idle (h : e.ph = .idle) : envTick N fs decay sustain e = { e with amp := N.zero } := by
  simp only [envTick, h, envIdle]

theorem envTick_sustain (h : e.ph = .sustain) : envTick N fs decay sustain e = { e with amp := sustain } := by
  simp only [envTick, h, envSustain]

/-- A tick of a phase with a ramp: the last one lands on its end, one before it on the line to the level of the end. -/
theorem envTick_ramp (h : rampEnd N fs decay sustain e.ph = some e') : envTick N fs decay sustain e =
    if e.n ≤ e.k + 1 then e' else { e with k := e.k + 1, amp := lerp N e.start e'.amp (e.k + 1) e.n } := by
  obtain ⟨ph, k, n, start, amp⟩ := e
  cases ph with
  | idle | sustain => cases h
  | attack | decay | release => cases h; rfl

theorem envTick_last (h : rampEnd N fs decay sustain e.ph = some e') (hk : e.n ≤ e.k + 1) :
    envTick N fs decay sustain e = e' := by
  rw [envTick_ramp N fs decay sustain h, if_pos hk]

theorem envTick_before (h : rampEnd N fs decay sustain e.ph = some e') (hk : e.k + 1 < e.n) :
    envTick N fs decay sustain e = { e with k := e.k + 1, amp := lerp N e.start e'.amp (e.k + 1) e.n } := by
  rw [envTick_ramp N fs decay sustain h, if_neg (by omega)]

/-! ## A whole ramp -/

/-- A ramp with `m + 1` ticks to go is at its end after them. -/
theorem envTick_iterate_ramp {m : Nat} (h : rampEnd N fs decay sustain e.ph = some e') (hm : e.n = e.k + (m + 1)) :
    (envTick N fs decay sustain)^[m + 1] e = e' := by
  induction m generalizing e with
  | zero => exact envTick_last N fs decay sustain h hm.le
  | succ m ih =>
    rw [Function.iterate_succ_apply, envTick_before N fs decay sustain h (by omega)]
    exact ih h (by simp only; omega)

/-- A ramp just started ends after the ticks it was started with. -/
theorem envTick_iterate_started (h : rampEnd N fs decay sustain e.ph = some e') (hk : e.k = 0) (hn : 1 ≤ e.n) :
    (envTick N fs decay sustain)^[e.n] e = e' := by
  obtain ⟨m, hm⟩ := Nat.exists_eq_add_of_le' hn
  rw [hm]
  exact envTick_iterate_ramp N fs decay sustain h (by omega)

/-- The sustain level is held. -/
theorem envTick_iterate_sustain (h : e.ph = .sustain) (hamp : e.amp = sustain) (m : Nat) :
    (envTick N fs decay sustain)^[m] e = e :=
  Function.iterate_fixed (by rw [envTick_sustain N fs decay sustain h, ← hamp]) m

end

/-- Settles O18: one clause for each phase, the ramps at their last tick and before it. -/
theorem tickAdvancesEnvelope : Obligations.TickAdvancesEnvelope := fun f s =>
  ⟨tick f s, rfl,
   fun h => envTick_idle _ _ _ _ h,
   fun h => envTick_last _ _ _ _ (by rw [h]; rfl), fun h => envTick_before _ _ _ _ (by rw [h]; rfl),
   fun h => envTick_last _ _ _ _ (by rw [h]; rfl), fun h => envTick_before _ _ _ _ (by rw [h]; rfl),
   fun h => envTick_sustain _ _ _ _ h,
   fun h => envTick_last _ _ _ _ (by rw [h]; rfl), fun h => envTick_before _ _ _ _ (by rw [h]; rfl)⟩

/-! ## The envelope of a block of TICKs -/

/-- What a TICK of the machine does to the envelope registers (step 6). -/
def State.tickEnv (s : State) : Env Scalar → Env Scalar :=
  envTick s.sys s.device.fs s.par.envDecay s.par.envSustain

/-- The rule is made of the configuration and two held entries. -/
theorem tickEnv_congr {s t : State} (hcfg : t.cfg = s.cfg) (hdecay : t.par.envDecay = s.par.envDecay)
    (hsustain : t.par.envSustain = s.par.envSustain) : t.tickEnv = s.tickEnv := by
  simp only [State.tickEnv, State.sys, hcfg, hdecay, hsustain]

/-- `t` has the configuration and the held entries of `s`. -/
structure SameHeld (s t : State) : Prop where
  cfg : t.cfg = s.cfg
  held : ∀ p, t.par.h p = s.par.h p

theorem SameHeld.trans {s t u : State} (h : SameHeld s t) (h' : SameHeld t u) : SameHeld s u :=
  ⟨h'.cfg.trans h.cfg, fun p => (h'.held p).trans (h.held p)⟩

theorem sameHeld_trigger (s : State) : SameHeld s (s.onBlock (trigger s.device)) := ⟨rfl, fun _ => rfl⟩

theorem sameHeld_release (s : State) : SameHeld s (s.onBlock (release s.device)) := ⟨rfl, fun _ => rfl⟩

theorem sameHeld_tick (f : Frame Scalar) (s : State) : SameHeld s (tick f s) :=
  ⟨rfl, tickBlock_held _ _ _⟩

theorem sameHeld_processBlock (fs : List (Frame Scalar)) (s : State) : SameHeld s (processBlock fs s).2 := by
  induction fs generalizing s with
  | nil => exact ⟨rfl, fun _ => rfl⟩
  | cons f fs ih => exact (sameHeld_tick f s).trans (ih (tick f s))

theorem SameHeld.tickEnv {s t : State} (h : SameHeld s t) : t.tickEnv = s.tickEnv :=
  tickEnv_congr h.cfg (h.held .envDecay) (h.held .envSustain)

/-- After a block the envelope has taken one tick for each Frame, whatever the Frames are. -/
theorem processBlock_env (fs : List (Frame Scalar)) (s : State) :
    (processBlock fs s).2.env = s.tickEnv^[fs.length] s.env := by
  induction fs generalizing s with
  | nil => rfl
  | cons f fs ih => exact ih (tick f s)

/-- The envelope value put out is the amplitude after the latest TICK (R296). -/
theorem processBlock_envOut (f : Frame Scalar) (fs : List (Frame Scalar)) (s : State) :
    (processBlock (f :: fs) s).2.envOut = (processBlock (f :: fs) s).2.env.amp := by
  induction fs generalizing f s with
  | nil => rfl
  | cons g fs ih => exact ih g (tick f s)

/-! ## A full cycle -/

section
variable {s t : State} {e e' : Env Scalar} {fs : List (Frame Scalar)} (h : SameHeld s t) (he : t.env = e)
include h he

/-- A block as long as the ramp just started takes the envelope to the end of the ramp. -/
theorem processBlock_env_of_ramp (hend : rampEnd s.sys s.device.fs s.par.envDecay s.par.envSustain e.ph = some e')
    (hk : e.k = 0) (hn : fs.length = e.n) (hpos : 1 ≤ e.n) : (processBlock fs t).2.env = e' := by
  rw [processBlock_env, h.tickEnv, he, hn]
  exact envTick_iterate_started _ _ _ _ hend hk hpos

/-- A block of any length holds the sustain level. -/
theorem processBlock_env_of_sustain (hph : e.ph = .sustain) (hamp : e.amp = s.par.envSustain) :
    (processBlock fs t).2.env = e := by
  rw [processBlock_env, h.tickEnv, he]
  exact envTick_iterate_sustain _ _ _ _ hph hamp _

/-- `REL` starts the release of the sustain level. -/
theorem release_env_of_sustain (hph : e.ph = .sustain) : (release t.device t.toBlock).env =
    { e with start := e.amp, ph := .release, k := 0, n := phaseTicks s.sys s.device.fs s.par.envRelease } := by
  have htime : t.par.envRelease = s.par.envRelease := h.held .envRelease
  simp only [release, Block.setEnv_env, he, htime, State.sys, h.cfg]
  exact envRel_of_active _ _ _ (.inr (.inr hph))

end

/-- Settles O52: attack and decay run to the ends of their ramps, the sustain level is held, and the release that `REL` then
starts runs to the end of its own. -/
theorem envelopeFullCycle : Obligations.EnvelopeFullCycle := by
  intro s t u fa fd fh fr htrig hfa hfd hfr hrel
  have hpos (d : Scalar) : 1 ≤ phaseTicks s.sys s.device.fs d := phaseTicks_pos ..
  cases htrig
  have same₀ := sameHeld_trigger s
  have same₁ := same₀.trans (sameHeld_processBlock fa _)
  have same₂ := same₁.trans (sameHeld_processBlock fd _)
  have same₃ := same₂.trans (sameHeld_processBlock fh _)
  have hattack := processBlock_env_of_ramp same₀ rfl rfl rfl hfa (hpos _)
  have hdecay := processBlock_env_of_ramp same₁ hattack rfl rfl hfd (hpos _)
  have hhold := processBlock_env_of_sustain (fs := fh) same₂ hdecay rfl rfl
  cases hrel
  have same₄ := same₃.trans (sameHeld_release _)
  have hrelease := processBlock_env_of_ramp same₄ (release_env_of_sustain same₃ hhold rfl) rfl rfl hfr (hpos _)
  exact ⟨hfd ▸ hattack, hhold, hrelease⟩

end Sys2Proof.Machine
end

section
/-! PROOFS. The envelope and the audio chain are independent (49_adsr.md R290): a TICK of a block with other envelope registers
and other envelope parameters is the TICK of the block, but for those; and the envelope reads nothing else. -/

namespace Sys2Proof.Machine

section
variable {α : Type} [DecidableEq α]

/-- The block with the envelope registers `e` and the envelope parameters `p`, in the order attack, decay, sustain, release. -/
def Block.withEnv (b : Block α) (e : Env α) (p : α × α × α × α) : Block α :=
  { b with
    env := e
    par := { b.par with envAttack := p.1, envDecay := p.2.1, envSustain := p.2.2.1, envRelease := p.2.2.2 } }

/-- No step of TICK before the last reads the envelope, and the last writes it alone. -/
theorem tickBlock_withEnv (d : Device α) (b : Block α) (e : Env α) (p : α × α × α × α) (f : Frame α) :
    tickBlock d (b.withEnv e p) f =
      ((tickBlock d b f).1.withEnv (envTick d.num d.fs p.2.1 p.2.2.1 e) p, (tickBlock d b f).2) := rfl

end

/-- The machine with another envelope, and another envelope value at the port. -/
def State.withEnv (s : State) (e : Env Scalar) (p : Scalar × Scalar × Scalar × Scalar) (o : Scalar) : State :=
  { s with toBlock := s.toBlock.withEnv e p, envOut := o }

theorem tick_withEnv (f : Frame Scalar) (s : State) (e : Env Scalar) (p : Scalar × Scalar × Scalar × Scalar) (o : Scalar) :
    tick f (s.withEnv e p o) =
      (tick f s).withEnv (envTick s.sys s.device.fs p.2.1 p.2.2.1 e) p (envTick s.sys s.device.fs p.2.1 p.2.2.1 e).amp := by
  have hblock := tickBlock_withEnv s.device s.toBlock e p (f.map s.cfg.num.read)
  unfold tick
  rw [State.withEnv, State.device, hblock]
  rfl

/-- A block of TICKs puts out the same Frames, and leaves the same machine but for the envelope. -/
theorem processBlock_withEnv (fs : List (Frame Scalar)) (s : State) (e : Env Scalar) (p : Scalar × Scalar × Scalar × Scalar)
    (o : Scalar) : ∃ e' o',
      processBlock fs (s.withEnv e p o) = ((processBlock fs s).1, (processBlock fs s).2.withEnv e' p o') := by
  induction fs generalizing s e o with
  | nil => exact ⟨e, o, rfl⟩
  | cons f fs ih =>
    obtain ⟨e', o', hrest⟩ := ih (tick f s) _ _
    exact ⟨e', o', by rw [processBlock_cons, tick_withEnv, hrest]; rfl⟩

theorem withEnv_smoothed (s : State) (e : Env Scalar) (p : Scalar × Scalar × Scalar × Scalar) (o : Scalar) (q : SParam) :
    (s.withEnv e p o).par.s q = s.par.s q := by
  cases q <;> rfl

/-- Settles O22: the chain by the machine with another envelope; the envelope because a block only iterates its rule. -/
theorem envelopeIsIsolated : Obligations.EnvelopeIsIsolated := by
  refine ⟨fun fs s e a d u r o => ?_, fun fs fs' s s' hlen hcfg henv hout hpar => ?_⟩
  · obtain ⟨e', o', h⟩ := processBlock_withEnv fs s e (a, d, u, r) o
    intro s' x y
    have hy : y = (x.1, x.2.withEnv e' (a, d, u, r) o') := h
    rw [hy]
    exact ⟨rfl, rfl, rfl, rfl, rfl, rfl, rfl, rfl, fun p => (withEnv_smoothed _ _ _ _ p).symm⟩
  · have hrule : s.tickEnv = s'.tickEnv :=
      tickEnv_congr hcfg (hpar .envDecay (by decide)) (hpar .envSustain (by decide))
    have hend : (processBlock fs s).2.env = (processBlock fs' s').2.env := by
      rw [processBlock_env, processBlock_env, hrule, henv, hlen]
    refine ⟨hend, ?_⟩
    cases fs with
    | nil =>
      obtain rfl : fs' = [] := List.length_eq_zero_iff.mp hlen.symm
      exact hout
    | cons f fs =>
      cases fs' with
      | nil => cases hlen
      | cons f' fs' => rw [processBlock_envOut, processBlock_envOut, hend]

end Sys2Proof.Machine
end

section
/-! PROOFS. The amplitude stays in [0, 1] in an exact number system (49_adsr.md R296): a ramp moves on the line between two
levels of the interval, and every other write of the envelope is one of the levels. -/

namespace Sys2Proof.Machine

section
variable {α : Type} {N : NumSys α} {r : α → ℝ} (hx : Exact N r)
include hx

theorem Exact.zero_unit : InDomain N N.zero N.one N.zero := by
  simp [hx.inDomain, hx.zero, hx.one]

theorem Exact.one_unit : InDomain N N.zero N.one N.one := by
  simp [hx.inDomain, hx.zero, hx.one]

/-- A point of the line between two levels of the interval lies in it (R292). -/
theorem Exact.lerp_unit {a b : α} (ha : InDomain N N.zero N.one a) (hb : InDomain N N.zero N.one b) {k n : Nat} (hk : k < n) :
    InDomain N N.zero N.one (lerp N a b k n) := by
  have hn : (0 : ℝ) < n := by exact_mod_cast Nat.zero_lt_of_lt hk
  have hle : (k : ℝ) / n ≤ 1 := by rw [div_le_one hn]; exact_mod_cast hk.le
  have hnonneg : 0 ≤ (k : ℝ) / n := by positivity
  have hdiv : r (N.div (N.ofInt k) (N.ofInt n)) = (k : ℝ) / n := by
    rw [hx.div _ _ (by rw [hx.ofInt]; exact_mod_cast hn.ne'), hx.ofInt, hx.ofInt]
    simp
  rw [hx.inDomain, hx.zero, hx.one] at ha hb ⊢
  obtain ⟨ha₀, ha₁⟩ := ha
  obtain ⟨hb₀, hb₁⟩ := hb
  rw [lerp, hx.add, hx.mul, hx.sub, hdiv]
  constructor <;> nlinarith

/-- The registers at the end of a ramp are levels of the interval. -/
theorem Exact.rampEnd_unit {fs decay sustain : α} (hs : InDomain N N.zero N.one sustain) {ph : Phase} {e' : Env α}
    (h : rampEnd N fs decay sustain ph = some e') : InDomain N N.zero N.one e'.start ∧ InDomain N N.zero N.one e'.amp := by
  cases ph with
  | attack => cases h; exact ⟨hx.one_unit, hx.one_unit⟩
  | decay => cases h; exact ⟨hs, hs⟩
  | release => cases h; exact ⟨hx.zero_unit, hx.zero_unit⟩
  | idle | sustain => cases h

/-- One tick of the envelope. -/
theorem Exact.envTick_unit {fs decay sustain : α} (hs : InDomain N N.zero N.one sustain) {e : Env α}
    (hstart : InDomain N N.zero N.one e.start) :
    InDomain N N.zero N.one (envTick N fs decay sustain e).start ∧
    InDomain N N.zero N.one (envTick N fs decay sustain e).amp := by
  cases hend : rampEnd N fs decay sustain e.ph with
  | some e' =>
    obtain ⟨hstart', hamp'⟩ := hx.rampEnd_unit hs hend
    rw [envTick_ramp N fs decay sustain hend]
    split_ifs with hk
    · exact ⟨hstart', hamp'⟩
    · exact ⟨hstart, hx.lerp_unit hstart hamp' (by omega)⟩
  | none =>
    cases hph : e.ph with
    | idle => rw [envTick_idle N fs decay sustain hph]; exact ⟨hstart, hx.zero_unit⟩
    | sustain => rw [envTick_sustain N fs decay sustain hph]; exact ⟨hstart, hs⟩
    | attack | decay | release => rw [hph] at hend; cases hend

end

section
variable {α : Type} {d : Device α} {r : α → ℝ} {b t : Block α} (hx : Exact d.num r)

/-- `REL` starts a ramp at the amplitude, or does nothing (R295). -/
theorem release_envUnit (h : b.EnvUnit d.num) : (release d b).EnvUnit d.num := by
  cases hph : b.env.ph with
  | attack | decay | sustain =>
    have hrel := envRel_of_active d.num d.fs b.par.envRelease (e := b.env) (by simp [hph])
    simp only [release, hrel]
    exact ⟨h.amp, h.amp, h.sustain⟩
  | idle | release =>
    have hrel := envRel_of_released d.num d.fs b.par.envRelease (e := b.env) (by simp [hph])
    simp only [release, hrel]
    exact h

include hx

/-- A `SETP` of a held entry stores a sustain level of the interval, or leaves the level. -/
theorem setHeld_envUnit (h : b.EnvUnit d.num) {p : HParam} {val : Val} {v : α} (hv : p.operand d val = some v) :
    (b.setHeld p v).EnvUnit d.num := by
  refine ⟨h.amp, h.start, ?_⟩
  show InDomain _ _ _ ((b.par.setHeld p v).h .envSustain)
  rw [Params.setHeld_h]
  split_ifs with hp
  · subst hp
    obtain ⟨w, -, rfl⟩ := operand_some hv
    exact hx.clamp_inDomain w (by rw [hx.zero, hx.one]; exact zero_le_one)
  · exact h.sustain

/-- A command keeps amplitude, ramp start and sustain level in the interval: `TRIG`, `REL` and the held entries are what
speaks of them. -/
theorem Effect.envUnit (h : b.EnvUnit d.num) {i : Instr} (e : Effect d i b t) : t.EnvUnit d.num := by
  cases e with
  | trig => exact ⟨h.amp, h.amp, h.sustain⟩
  | rel => exact release_envUnit h
  | held p v _ hv => exact setHeld_envUnit hx h hv.choose_spec
  | time val v _ hv => exact { setHeld_envUnit hx h hv with }
  | target p v =>
    have hp : (b.setTgt p v).par.envSustain = b.par.envSustain := Params.setTgt_h b.par p .envSustain v
    exact ⟨h.amp, h.start, hp.symm ▸ h.sustain⟩
  | nop | rejected | active => exact { h with }

theorem commandWord_envUnit (h : b.EnvUnit d.num) (w : Word) : (commandWord d w b).EnvUnit d.num := by
  rcases commandWord_cases d w b with ⟨_, _, hreject⟩ | ⟨_, _, _, e⟩
  · rw [hreject]
    exact { h with }
  · exact e.envUnit hx h

variable [DecidableEq α]

theorem tickBlock_envUnit (h : b.EnvUnit d.num) (f : Frame α) : (tickBlock d b f).1.EnvUnit d.num := by
  obtain ⟨hstart, hamp⟩ := hx.envTick_unit (fs := d.fs) (decay := b.par.envDecay) h.sustain h.start
  exact ⟨hamp, hstart, h.sustain⟩

omit hx in
/-- IRGEN writes neither the envelope nor a parameter. -/
theorem irgenStep_envUnit (h : b.EnvUnit d.num) (u : Nat → α) : (irgenStep d b u).EnvUnit d.num := by
  rcases irgenStep_cases d b u with ⟨_, hstay⟩ | ⟨dur, _, hpub⟩
  · rw [hstay]
    exact h
  · have henv : (publish d b dur u).env = b.env := Block.setShadow_env _ _
    have hpar : (publish d b dur u).par = b.par := Block.setShadow_par _ _
    rw [hpub]
    exact ⟨henv ▸ h.amp, henv ▸ h.start, hpar ▸ h.sustain⟩

/-- Every step of a device in an exact number system. -/
theorem deviceStep_envUnit {a : Act α} {o : Output α} (h : b.EnvUnit d.num) (hs : deviceStep d a b = .ok (t, o)) :
    t.EnvUnit d.num := by
  rcases deviceStep_cases hs with
    ⟨w, _, rfl, _⟩ | ⟨f, _, rfl, _⟩ | ⟨_, _, _, rfl, _⟩ | ⟨_, _, rfl, _⟩ | ⟨_, hc, rfl, _⟩
  · exact commandWord_envUnit hx h w
  · exact tickBlock_envUnit hx h f
  · exact irgenStep_envUnit h _
  · exact h
  · exact Block.reset_envUnit hx hc

end

/-- Settles O39: a step of the machine is a step of its device, in which every operation keeps the levels in [0, 1]. -/
theorem envelopeStaysInUnitInterval : Obligations.EnvelopeStaysInUnitInterval := by
  refine ⟨fun s t hk _ h hs => ?_, fun _ _ _ _ _ _ _ _ hx _ h hs => deviceStep_envUnit hx h hs⟩
  cases hi : s.inbox with
  | nil =>
    rw [step_nil hi] at hs
    cases hs
    exact h
  | cons e rest =>
    obtain ⟨o, hd, hcfg⟩ := deviceStep_of_step hi hs
    have hblock := deviceStep_envUnit (exact_of_kind hk) h hd
    rw [State.EnvUnit, State.sys, hcfg]
    exact hblock

end Sys2Proof.Machine
end

section
/-! PROOFS. Construction and reset (60_exceptions.md R320, R321, R328, 70_reset_and_hazards.md R350), and the flag `BADCMD`
(60_exceptions.md R325). -/

namespace Sys2Proof.Machine

/-! ## The checks of construction -/

/-- Settles O28: the checks are asked in the order of R321's table, each only where those before it pass. -/
theorem firstFailingCheckGivesCause : Obligations.FirstFailingCheckGivesCause := by
  intro α d N badFs badNch badPhN lt le zero badBounds bad fla cho dly ir ok4
  have hfs : (!d.num.lt d.num.zero d.fs) = true ↔ badFs := by rw [Bool.not_eq_true']
  have hnch : (d.nch ≠ 1 ∧ d.nch ≠ 2) ↔ badNch := not_or.symm
  have hphn : d.phN < 1 ↔ badPhN := Iff.rfl
  have hbounds : (!boundsOk d) = true ↔ badBounds := by
    rw [Bool.not_eq_true', ← Bool.not_eq_true]
    simp only [boundsOk, Bool.and_eq_true, and_assoc, Bool.not_eq_true', badBounds, lt, le, zero, N]
  have hfla : capTooSmall d.num d.flCap (d.num.add d.flBase d.flDepth) d.fs = true ↔ fla := capTooSmall_iff ..
  have hcho : capTooSmall d.num d.choCap (d.num.add d.choBase d.choDepth) d.fs = true ↔ cho := capTooSmall_iff ..
  have hdly : capTooSmall d.num d.dlyCap d.dlyTmax d.fs = true ↔ dly := capTooSmall_iff ..
  have hir : (d.irCap < 1 ∨ (d.irCap : Int) < d.num.floor (d.num.mul d.fs (d.num.ofDec (31 / 10)))) ↔ ir := Iff.rfl
  simp only [checkDevice, ite_eq_iff, hfs, hnch, hphn, hbounds, hfla, hcho, hdly, hir, ok4]
  clear_value badFs badNch badPhN badBounds fla cho dly ir
  simp [and_assoc]

/-! ## Reset, and steps of a constructed machine -/

/-- Settles O26: RESET asks the checks of construction, and puts the reset state. -/
theorem resetReconstructs : Obligations.ResetReconstructs :=
  fun s => ⟨fun h => by rw [exec_reset, h], fun c h => by rw [exec_reset, h]⟩

/-- Settles O44: with no entry the state stays; every entry answers a next state. -/
theorem constructedMachineNeverStops : Obligations.ConstructedMachineNeverStops := by
  intro s h
  cases hi : s.inbox with
  | nil => exact ⟨s, step_nil hi, rfl⟩
  | cons e rest =>
    rw [step_cons hi]
    exact runEvent_total (s := { s with inbox := rest }) h e

/-! ## `BADCMD` -/

section
variable {α : Type} {d : Device α} {b t : Block α}

/-- A command whose operand is no NaN leaves the flag. -/
theorem Effect.badcmd {i : Instr} (hwf : i.wf = true) (e : Effect d i b t) : t.badcmd = b.badcmd := by
  cases e with
  | rejected h => cases h.symm.trans hwf
  | _ => rfl

/-- A command word raises the flag exactly when it is rejected. -/
theorem commandWord_badcmd (w : Word) : (commandWord d w b).badcmd = true ↔ b.badcmd = true ∨ Rejectable w := by
  rw [rejectable_iff]
  rcases commandWord_cases d w b with ⟨r, hdecode, hreject⟩ | ⟨i, hdecode, -, e⟩
  · simp [hdecode, hreject]
  · simp [hdecode, e.badcmd (decode_wf hdecode)]

theorem irgenStep_badcmd [DecidableEq α] (u : Nat → α) : (irgenStep d b u).badcmd = b.badcmd := by
  rcases irgenStep_cases d b u with ⟨_, hstay⟩ | ⟨dur, _, hpub⟩
  · rw [hstay]
  · rw [hpub]
    exact Block.setShadow_badcmd _ _

/-- The address of `STATUS` (10_state.md R51). -/
theorem readPort_status (N : NumSys α) (b : Block α) : readPort N b 0x0F0 = b.status := rfl

/-- Every step of a device but reset and a rejected word leaves the flag. -/
theorem deviceStep_badcmd [DecidableEq α] {a : Act α} {o : Output α} (hr : a ≠ .reset) (h : deviceStep d a b = .ok (t, o)) :
    t.badcmd = true ↔ b.badcmd = true ∨ ∃ w, a = .word w ∧ Rejectable w := by
  rcases deviceStep_cases h with
    ⟨w, rfl, rfl, _⟩ | ⟨f, rfl, rfl, _⟩ | ⟨_, _, rfl, rfl, _⟩ | ⟨_, rfl, rfl, _⟩ | ⟨ha, _⟩
  · simp [commandWord_badcmd]
  · simp
  · simp [irgenStep_badcmd]
  · simp
  · exact absurd ha hr

/-- A reset that answers a block answers the reset state. -/
theorem block_of_reset [DecidableEq α] {o : Output α} (h : deviceStep d .reset b = .ok (t, o)) : t = Block.reset d := by
  cases hc : checkDevice d with
  | some c => cases (deviceStep_reset_of_some hc).symm.trans h
  | none => cases (deviceStep_reset_of_none hc).symm.trans h; rfl

end

/-- Settles O42: the step of the device, with the entry for its act; and a READ of `STATUS` puts out the flag as it was. -/
theorem badcmdIsSticky : Obligations.BadcmdIsSticky := by
  intro s t e rest hi h
  obtain ⟨o, hd, -⟩ := deviceStep_of_step hi h
  refine ⟨fun hr => ?_, ?_, ?_⟩
  · rw [deviceStep_badcmd (fun ha => hr (actOf_eq_reset ha)) hd]
    refine or_congr_right (exists_congr fun w => and_congr_left fun _ => ⟨actOf_eq_word, ?_⟩)
    rintro rfl
    rfl
  · rintro rfl
    rw [block_of_reset hd]
    rfl
  · rintro rfl
    rw [step_cons hi] at h
    cases h
    exact (status_bits s.toBlock).1

end Sys2Proof.Machine
end
